-- ==== Sys2Proof/Word.lean ====
section
/-! DEFINITION. The word types of the RSA-PSS core: a byte, a byte string, a bus address (rules R8, R60). -/

namespace Sys2Proof

/-- A byte (the document's "octet"): 8 bits, bit 7 the top bit (rule R8). -/
abbrev Byte := BitVec 8

/-- A byte string `X`: `X[0]` is the head of the list, the first and leftmost byte (rule R8). -/
abbrev Bytes := List Byte

/-- An address of the host register space: 0x0000 to 0x3FFF, so 14 bits (rule R60). -/
abbrev Addr := BitVec 14

end Sys2Proof
end

