-- ==== Sys2Proof/Syntax.lean ====
section
/-! DEFINITION. The commands (the checklist's "instructions"): one constructor per row of spec/opcode_table.json.
A command byte has no operand fields: every operand is an implicit register (rules R100, R111). -/

namespace Sys2Proof

/-- The five commands of the opcode map (rule R101). -/
inductive Instr where
  /-- CLEAR, opcode 0x00 (rule R101). -/
  | clear
  /-- RSA, opcode 0x01 (rule R140). -/
  | rsa
  /-- MGF, opcode 0x02 (rule R160). -/
  | mgf
  /-- SIGN, opcode 0x03 (rule R180). -/
  | sign
  /-- VERIFY, opcode 0x04 (rule R210). -/
  | verify
deriving DecidableEq, Repr

end Sys2Proof
end

