-- ==== Sys2Proof/Decode.lean ====
section
/-! DEFINITION. The command byte: decoding, total on all 256 bytes and rejecting by name, and encoding
(rules R100 to R102). -/

namespace Sys2Proof

/-- Why a command byte names no command. -/
inductive DecodeError where
  /-- `OP` from 0x05 to 0xFF names no command (rule R102). -/
  | illegalCommand (op : Byte)
deriving DecidableEq, Repr

/-- The opcode map: all eight bits of the byte written to `CMD` are the opcode (rules R100, R101). -/
def decode (op : Byte) : Except DecodeError Instr :=
  if op = 0x00#8 then .ok .clear
  else if op = 0x01#8 then .ok .rsa
  else if op = 0x02#8 then .ok .mgf
  else if op = 0x03#8 then .ok .sign
  else if op = 0x04#8 then .ok .verify
  else .error (.illegalCommand op)

/-- The byte the host writes to `CMD` for each command (rule R101). -/
def encode : Instr → Byte
  | .clear => 0x00#8
  | .rsa => 0x01#8
  | .mgf => 0x02#8
  | .sign => 0x03#8
  | .verify => 0x04#8

/-- The one byte of an instruction word of `nbits` bits, bits above `nbits` being 0 (rule R100: every command is
exactly one byte). -/
def commandByte (nbits w : Nat) : Byte := BitVec.ofNat 8 (w % 2 ^ nbits)

/-- The command the decoder reads from an instruction word numbered as spec/opcode_table.json numbers it. -/
def decodeTableWord (nbits w : Nat) : Option Instr :=
  match decode (commandByte nbits w) with
  | .ok i => some i
  | .error _ => none

end Sys2Proof
end

