-- ==== Sys2Proof/Config.lean ====
section
/-! DEFINITION. The implementation parameters (rules R5, R6), the construction-time constraints (rule R7), and the
one instance every statement is about: an instance nobody chose (rule R20: the parameters, the hash function and the
random source are arguments of the step, not state). -/

namespace Sys2Proof

/-- The implementation parameters of rule R5, with the two collaborators' answers (rules R72, R73). -/
structure Params where
  /-- Key size in bits (rule R5). -/
  K : Nat
  /-- Hash digest length in bytes (rule R5). -/
  hLen : Nat
  /-- The largest input length in bytes the hash function accepts (rule R5). -/
  hashMaxLen : Nat
  /-- `DIAG_EN`: whether `ERRCODE` shows distinct verification codes (rule R5). -/
  diagEn : Bool
  /-- Byte `i` of the digest of a byte string; only bytes `0 .. hLen - 1` are ever used (rule R72). Total also beyond
  `hashMaxLen`, where the block never asks (assumption 15, DESIGN CHOICE). -/
  digestByte : Bytes → Nat → Byte
  /-- Byte `i` of the random port's answer to the request with `d` requests before it (rule R73: any value). -/
  drawByte : Nat → Nat → Byte
deriving Inhabited

namespace Params

/-- `kLen = K / 8` (rule R6), rounded down where `K` is no multiple of 8, which rule R7 refuses (assumption 19, DESIGN
CHOICE). -/
def kLen (p : Params) : Nat := p.K / 8

/-- `DB_SIZE = kLen - hLen - 1` (rule R6), 0 where that is negative, on sizes rule R7 refuses (assumption 19, DESIGN
CHOICE). -/
def dbSize (p : Params) : Nat := p.kLen - p.hLen - 1

/-- `PS_LEN = DB_SIZE - hLen - 1` (rule R6), 0 where that is negative, on sizes rule R7 refuses (assumption 19, DESIGN
CHOICE). -/
def psLen (p : Params) : Nat := p.dbSize - p.hLen - 1

/-- The hash function: total, pure, exactly `hLen` bytes out (rules R5, R72). -/
def hash (p : Params) (x : Bytes) : Bytes := (List.range p.hLen).map (p.digestByte x)

/-- The random port's answer, `j` bytes, to the request with `d` requests before it (rule R73). -/
def draw (p : Params) (d j : Nat) : Bytes := (List.range j).map (p.drawByte d)

/-- `2^32 * hLen`, the longest mask of MGF1 (rule R162). -/
def maskBound (p : Params) : Nat := 2 ^ 32 * p.hLen

/-- The construction-time constraints of rule R7, in its order: an instance exists only if all hold. -/
def constructible (p : Params) : Bool :=
  decide (p.K % 8 = 0) && decide (1 ≤ p.hLen) && decide (2 * p.hLen + 3 ≤ p.kLen)
    && decide (8 + 2 * p.hLen ≤ p.hashMaxLen) && decide (p.kLen ≤ 4096 ∧ p.hLen ≤ 65535)
    && decide (p.hashMaxLen ≤ 2 ^ 64 - 1)

end Params

/-- The parameters and the collaborators' answers, left wholly open: no body, nothing can be proved of it
(assumption 1, DESIGN CHOICE). -/
opaque Config.free : Params

/-- The smallest sizes rule R7 admits, with collaborators nobody chose. -/
def Config.smallest : Params := { Config.free with K := 40, hLen := 1, hashMaxLen := 10 }

/-- The instance: `Config.free` where rule R7 lets it be built, so that every instance rule R7 admits is among the
possible values and no other is (assumption 1, DESIGN CHOICE). -/
def Config.params : Params := if Config.free.constructible then Config.free else Config.smallest

end Sys2Proof
end

