-- ==== Sys2Proof/Machine/State.lean ====
section
/-! DEFINITION. The state of one instance (rule R20), as plain data, and its value after reset (rule R37). -/

namespace Sys2Proof.Machine

/-- The error kinds (rules R104, R240); `SignatureRejected` is a read-side alias and no kind of its own (R254). -/
inductive ErrorKind where
  /-- The message representative is not below the modulus (rule R241). -/
  | messageOutOfRange
  /-- The message, or the MGF seed with its counter, exceeds the hash domain (rule R242). -/
  | messageTooLong
  /-- The key is too small for the hash (rule R243). -/
  | encodingTooLong
  /-- The requested mask exceeds `2^32 * hLen` bytes (rule R244). -/
  | maskTooLong
  /-- The last byte of `EM` is not 0xbc (rule R245). -/
  | invalidTrailer
  /-- The top bit of `EM[0]` is 1 (rule R246). -/
  | invalidLeadingBit
  /-- The padding or the separator of `DB` is wrong (rule R247). -/
  | invalidPadding
  /-- The recomputed hash differs (rule R248). -/
  | hashMismatch
  /-- A command byte that names no command (rule R249). -/
  | illegalCommand
deriving DecidableEq, Repr

/-- A call on one of the two collaborator ports (rules R11, R72, R73). -/
inductive PortCall where
  /-- A request of the hash port, with the whole input (rule R72). -/
  | hash (x : Bytes)
  /-- A request of the random port for `j` bytes (rule R73). -/
  | rng (j : Nat)
deriving DecidableEq, Repr

/-- The sequencer's phases (rule R31): the program counter of this hardware. -/
inductive Phase where
  /-- No command. -/
  | idle
  /-- RSA kernel: import the operands (rule R150). -/
  | r0Import
  /-- RSA kernel: range check (rule R150). -/
  | r1Range
  /-- RSA kernel: square and multiply, one exponent bit (rule R150). -/
  | r2Exp
  /-- RSA kernel: export the result (rule R150). -/
  | r3Export
  /-- MGF1: the bound (rule R168). -/
  | m0Bound
  /-- MGF1: one hash call (rule R168). -/
  | m1Loop
  /-- MGF1: truncate (rule R168). -/
  | m2Trunc
  /-- SIGN step 1 (rule R193). -/
  | s1Len
  /-- SIGN step 2 (rule R193). -/
  | s2Mhash
  /-- SIGN step 3 (rule R193). -/
  | s3Salt
  /-- SIGN step 4 (rule R193). -/
  | s4H
  /-- SIGN step 5 (rule R193). -/
  | s5Db
  /-- SIGN step 6, entering MGF1 (rule R193). -/
  | s6Mask
  /-- SIGN step 6, after MGF1 (rule R193). -/
  | s6Xor
  /-- SIGN step 7 (rule R193). -/
  | s7Size
  /-- SIGN step 8 (rule R193). -/
  | s8Em
  /-- SIGN step 9 (rule R193). -/
  | s9Topbit
  /-- SIGN step 10, entering the kernel (rule R193). -/
  | s10Rsa
  /-- VERIFY step 1, entering the kernel (rule R232). -/
  | v1Rsa
  /-- VERIFY step 2 (rule R232). -/
  | v2Trailer
  /-- VERIFY step 3 (rule R232). -/
  | v3Leadbit
  /-- VERIFY step 4 (rule R232). -/
  | v4Split
  /-- VERIFY step 5, entering MGF1 (rule R232). -/
  | v5Mask
  /-- VERIFY step 5, after MGF1 (rule R232). -/
  | v5Xor
  /-- VERIFY step 6 (rule R232). -/
  | v6Pad
  /-- VERIFY step 7 (rule R232). -/
  | v7Salt
  /-- VERIFY step 8, the guard (rules R218, R232). -/
  | v8Len
  /-- VERIFY step 8, the message hash (rule R232). -/
  | v8Mhash
  /-- VERIFY step 8, the recomputed hash (rule R232). -/
  | v8H2
  /-- VERIFY step 9 (rule R232). -/
  | v9Cmp
  /-- VERIFY step 10 (rule R232). -/
  | v10Accept
deriving DecidableEq, Repr

/-- The transient buffers of rule R32, under the spec's names. -/
structure Work where
  /-- `MHASH`: `hash(message)`. -/
  mhash : Bytes
  /-- `SALT`: the salt drawn or recovered. -/
  salt : Bytes
  /-- `HB`: the hash `H`. -/
  hb : Bytes
  /-- `H2`: the recomputed hash. -/
  h2 : Bytes
  /-- `DB`: the data block. -/
  db : Bytes
  /-- `DBMASK`: the mask of the data block. -/
  dbmask : Bytes
  /-- `MDB`: the masked data block. -/
  mdb : Bytes
  /-- `EM`: the encoded message. -/
  em : Bytes
  /-- `MGF_SEED`: the seed of the running MGF1. -/
  mgfSeed : Bytes
  /-- `MGF_LEN`: the requested mask length. -/
  mgfLen : Nat
  /-- `MGF_CTR`: the MGF1 counter. -/
  mgfCtr : Nat
  /-- `MGF_ACC`: the accumulated digests. -/
  mgfAcc : Bytes
  /-- `RSA_M`: the imported message representative. -/
  rsaM : Nat
  /-- `RSA_K`: the imported exponent. -/
  rsaK : Nat
  /-- `RSA_N`: the imported modulus. -/
  rsaN : Nat
  /-- `RSA_R`: the running power. -/
  rsaR : Nat
  /-- `RSA_I`: the number of exponent bits still to process. -/
  rsaI : Nat
  /-- `RES`: the exported result. -/
  res : Bytes
deriving DecidableEq, Repr

/-- Every transient zero or empty: what the end of a command and reset leave (rule R33; assumption 8, DEDUCED). -/
def Work.cleared : Work where
  mhash := []
  salt := []
  hb := []
  h2 := []
  db := []
  dbmask := []
  mdb := []
  em := []
  mgfSeed := []
  mgfLen := 0
  mgfCtr := 0
  mgfAcc := []
  rsaM := 0
  rsaK := 0
  rsaN := 0
  rsaR := 0
  rsaI := 0
  res := []

/-- One move of one of the five agents of rule R13, as the environment schedules it. -/
inductive Event where
  /-- The host writes byte `b` at address `a`: `MemWrite(a, 1, b)` (rule R62). -/
  | hostWrite (a : Addr) (b : Byte)
  /-- The host reads address `a`: `MemRead(a, 1)` (rule R62). -/
  | hostRead (a : Addr)
  /-- The host polls `STATUS` until `BUSY` reads 0: the pseudo-instruction `wait` (rule R113). -/
  | hostWait
  /-- The sequencer takes its step (rule R31). -/
  | sequencer
  /-- A collaborator presents an answer (rules R34, R72, R73). -/
  | answer
  /-- The reset input is applied (rule R270). -/
  | reset
deriving DecidableEq, Repr

/-- The two levels of rule R15, one meaning: a command as its function (one step from start to end) or as its phase
sequence (the write starts it, the sequencer's steps run it). -/
inductive Level where
  /-- The big step: the write of `CMD` runs the command to its end. -/
  | bigStep
  /-- The small steps: the write of `CMD` starts the command, one phase follows per sequencer step. -/
  | smallStep
deriving DecidableEq, Repr

/-- The complete state of one instance (rule R20), and after it the model's own fields: the environment's schedule,
the two observation records of rule R14, and the level of rule R15. -/
structure State where
  /-- The operand registers `OPM`, `OPK`, `OPN` (rules R21 to R23), a byte at its bus address (rule R61); an address
  not listed reads 0x00, the value the spec gives every byte at reset (rule R37; assumption 12, DEDUCED). -/
  mem : List Host.Cell
  /-- `MSG`, the message buffer; `MSG_LEN` is its length (rule R24). -/
  msg : Bytes
  /-- `MASK_LEN`, 64 bits (rule R25). -/
  maskLen : BitVec 64
  /-- `OUT`, the output buffer; `OUT_LEN` is its length (rule R26). -/
  out : Bytes
  /-- `CUR_CMD`, the command latch (rule R27). -/
  curCmd : Byte
  /-- `STATUS.BUSY` (rule R28). -/
  busy : Bool
  /-- `STATUS.DONE` (rule R28). -/
  done : Bool
  /-- `STATUS.ERR` (rule R28). -/
  err : Bool
  /-- `ECAUSE`, the code of the error that ended the last command (rule R29). -/
  ecause : Byte
  /-- `PHASE`, the sequencer's control state (rule R31). -/
  phase : Phase
  /-- The transient buffers (rule R32). -/
  work : Work
  /-- `PEND`, the port call in flight (rule R34). -/
  pend : Option PortCall
  /-- The model's own: the moves the environment has scheduled, the next one first (assumption 2, DESIGN CHOICE). -/
  agenda : List Event
  /-- The model's own: the bytes the host's reads returned, in order (rule R14; assumption 3, DESIGN CHOICE). -/
  reads : List (Addr × Byte)
  /-- The model's own: the port trace, all port calls in the order made (rules R11, R74; assumption 3, DESIGN CHOICE). -/
  trace : List PortCall
  /-- The model's own: which of the two levels of rule R15 the model runs at (assumption 4, DESIGN CHOICE). -/
  level : Level
deriving DecidableEq, Repr

/-- No step of this machine stops with a fault: every bus access and every command is defined in every state
(rules R62, R65, R66, R101, R102, R274), and its error kinds are results a command ends with, not stops (rule R252).
So there is no constructor. -/
inductive Fault where
deriving DecidableEq, Repr

/-- Why a command has no meaning. -/
inductive Refusal where
  /-- Raised by `exec` for a command that is not modelled yet. Safe: nothing is claimed of it. -/
  | notModelled (mnemonic : String)
deriving DecidableEq, Repr

/-- The state right after reset (rule R37): no piece of it is unspecified. The model's own fields hold an empty
schedule, empty records and the big-step level (assumption 4, DESIGN CHOICE). -/
def State.reset : State where
  mem := []
  msg := []
  maskLen := 0#64
  out := []
  curCmd := 0x00#8
  busy := false
  done := false
  err := false
  ecause := 0x00#8
  phase := .idle
  work := Work.cleared
  pend := none
  agenda := []
  reads := []
  trace := []
  level := .bigStep

end Sys2Proof.Machine
end

