-- ==== Sys2Proof/Machine/Flags.lean ====
section
/-! DEFINITION. `STATUS`, the error codes, and what the host sees of them (rules R28, R29, R38, R103, R104, R254). -/

namespace Sys2Proof.Machine

/-- The byte of a Boolean flag at a bit position. -/
def flagAt (f : Bool) (i : Nat) : Byte := if f then BitVec.ofNat 8 (2 ^ i) else 0x00#8

/-- `STATUS`: bit 0 `BUSY`, bit 1 `DONE`, bit 2 `ERR`, bits 7 to 3 read 0 (rule R103). -/
def statusByte (s : State) : Byte := flagAt s.busy 0 ||| flagAt s.done 1 ||| flagAt s.err 2

/-- The wire `busy` (rule R38). -/
def busyWire (s : State) : Bool := s.busy

/-- The wire `done` (rules R38, R255). -/
def doneWire (s : State) : Bool := s.done

/-- The code of an error kind (rule R104). -/
def errorCode : ErrorKind → Byte
  | .messageOutOfRange => 0x01#8
  | .messageTooLong => 0x02#8
  | .encodingTooLong => 0x03#8
  | .maskTooLong => 0x04#8
  | .invalidTrailer => 0x05#8
  | .invalidLeadingBit => 0x06#8
  | .invalidPadding => 0x07#8
  | .hashMismatch => 0x08#8
  | .illegalCommand => 0x0F#8

/-- `SignatureRejected`, what `ERRCODE` reads after a failed VERIFY when `DIAG_EN = 0` (rules R104, R254). -/
def signatureRejected : Byte := 0x10#8

/-- `ERRCODE`: `ECAUSE`, filtered after a rejecting VERIFY when `DIAG_EN = 0` (rules R29, R254). -/
def errcode (p : Params) (s : State) : Byte :=
  if p.diagEn = false ∧ s.curCmd = 0x04#8 ∧ s.ecause ≠ 0x00#8 then signatureRejected else s.ecause

/-- `CFG_FLAGS`: bit 0 `DIAG_EN`, bits 7 to 1 read 0 (rule R30). -/
def cfgFlags (p : Params) : Byte := flagAt p.diagEn 0

end Sys2Proof.Machine
end

