-- ==== Sys2Proof/Machine/Operands.lean ====
section
/-! DEFINITION. Octet strings and integers (rules R9, R105, R106), the reads and writes of the operand registers
(rules R21 to R23, R111), and the layouts of the encoded data (rules R107 to R110). -/

namespace Sys2Proof.Machine

/-! ### Integers and octet strings -/

/-- `be_int(X)`: the natural a byte string carries, `X[0]` the most significant byte (rules R9, R105). -/
def beInt (x : Bytes) : Nat := x.foldl (fun acc b => 256 * acc + b.toNat) 0

/-- `be_bytes(v, L)`: the `L`-byte string that carries `v`, for `v < 256^L` (rule R9). A larger `v`, for which the rule
defines no string, gives its low `L` bytes (assumption 9, DESIGN CHOICE). -/
def beBytes (v : Nat) : Nat → Bytes
  | 0 => []
  | L + 1 => beBytes (v / 256) L ++ [BitVec.ofNat 8 v]

/-- `be32(c)`: the four counter bytes (rule R106). It is applied to no `c` above `2^32 - 1`
(rule R166; assumption 9, DESIGN CHOICE). -/
def be32 (c : Nat) : Bytes := beBytes c 4

/-- Byte-wise exclusive-or of two byte strings of one length (rule R8); of two lengths it stops at the shorter
(assumption 9, DESIGN CHOICE). -/
def xorBytes (x y : Bytes) : Bytes := List.zipWith (· ^^^ ·) x y

/-- `j` bytes of 0x00 (rule R8). -/
def zeros (j : Nat) : Bytes := List.replicate j 0x00#8

/-! ### The operand registers, held in `State.mem` at their bus addresses -/

/-- The byte at an address: an address not listed holds 0x00 (rules R21 to R23, R37). -/
def memRead : List Host.Cell → Nat → Byte
  | [], _ => 0x00#8
  | c :: rest, a => if c.1 = a then c.2 else memRead rest a

/-- Writing a byte, keeping the canonical form: addresses strictly rising, no byte 0x00 listed. -/
def memWrite : List Host.Cell → Nat → Byte → List Host.Cell
  | [], a, b => if b = 0x00#8 then [] else [(a, b)]
  | c :: rest, a, b =>
    if a < c.1 then (if b = 0x00#8 then c :: rest else (a, b) :: c :: rest)
    else if a = c.1 then (if b = 0x00#8 then rest else (a, b) :: rest)
    else c :: memWrite rest a b

/-- The canonical form, from an address on: addresses strictly rising, no byte 0x00 listed. -/
def Memory.wfFrom : Nat → List Host.Cell → Bool
  | _, [] => true
  | lo, c :: rest => decide (lo ≤ c.1) && (c.2 != 0x00#8) && Memory.wfFrom (c.1 + 1) rest

/-- The canonical form of `State.mem`: equal operand contents are equal lists. -/
def Memory.wf (mem : List Host.Cell) : Bool := Memory.wfFrom 0 mem

/-- The base address of the window of `OPM` (rule R61). -/
def opmBase : Nat := 0x1000

/-- The base address of the window of `OPK` (rule R61). -/
def opkBase : Nat := 0x2000

/-- The base address of the window of `OPN` (rule R61). -/
def opnBase : Nat := 0x3000

/-- The `kLen` bytes of the register at a base address, byte `i` at the base plus `i` (rule R61). -/
def window (p : Params) (mem : List Host.Cell) (base : Nat) : Bytes :=
  (List.range p.kLen).map fun i => memRead mem (base + i)

/-- `OPM`: the message representative of RSA, the signature of VERIFY (rules R21, R111). -/
def opm (p : Params) (s : State) : Bytes := window p s.mem opmBase

/-- `OPK`: the exponent of RSA, SIGN and VERIFY (rules R22, R111). -/
def opk (p : Params) (s : State) : Bytes := window p s.mem opkBase

/-- `OPN`: the modulus of RSA, SIGN and VERIFY (rules R23, R111). -/
def opn (p : Params) (s : State) : Bytes := window p s.mem opnBase

/-! ### Data layouts

On strings of the lengths the rules give. On a shorter string, which no run has, a byte past its end reads 0x00, and byte 0
of an empty one is not written (assumption 9, DESIGN CHOICE). -/

/-- `M' = 0x00×8 || mHash || salt` (rule R109). -/
def mPrime (mHash salt : Bytes) : Bytes := zeros 8 ++ mHash ++ salt

/-- `DB = 0x00×PS_LEN || 0x01 || salt` (rules R108, R185). -/
def dataBlock (p : Params) (salt : Bytes) : Bytes := zeros p.psLen ++ [0x01#8] ++ salt

/-- The trailer byte of `EM` (rule R107). -/
def trailer : Byte := 0xbc#8

/-- `EM = maskedDB || H || 0xbc` (rules R107, R188). -/
def encodedMessage (maskedDB h : Bytes) : Bytes := maskedDB ++ h ++ [trailer]

/-- `EM[0] <- EM[0] and 0x7F`: exactly bit 7 of byte 0 is cleared (rule R189). -/
def clearTopBit : Bytes → Bytes
  | [] => []
  | b :: rest => (b &&& 0x7F#8) :: rest

/-- The last byte of `EM`, `EM[kLen - 1]` (rule R212). -/
def trailerOf (p : Params) (em : Bytes) : Byte := em.getD (p.kLen - 1) 0x00#8

/-- Whether bit 7 of `EM[0]` is 1 (rule R213). -/
def topBitSet (em : Bytes) : Bool := (em.getD 0 0x00#8) &&& 0x80#8 != 0x00#8

/-- `maskedDB = EM[0 .. DB_SIZE)` (rule R214). -/
def maskedDbOf (p : Params) (em : Bytes) : Bytes := em.take p.dbSize

/-- `H = EM[DB_SIZE .. DB_SIZE + hLen)` (rule R214). -/
def hashOf (p : Params) (em : Bytes) : Bytes := (em.drop p.dbSize).take p.hLen

/-- `DB[0] <- 0x00`: the whole first byte is forced (rule R215). -/
def forceFirst : Bytes → Bytes
  | [] => []
  | _ :: rest => 0x00#8 :: rest

/-- The padding check: `DB[PS_LEN] = 0x01` and every byte before it 0x00 (rule R216). -/
def paddingOk (p : Params) (db : Bytes) : Bool :=
  db.getD p.psLen 0x00#8 == 0x01#8 && (db.take p.psLen).all (· == 0x00#8)

/-- `salt = DB[DB_SIZE - hLen .. DB_SIZE)` (rule R217). -/
def saltOf (p : Params) (db : Bytes) : Bytes := (db.drop (p.dbSize - p.hLen)).take p.hLen

/-- The full-length comparison of step 9: the or of all byte differences of two strings of one length (rule R224); of two
lengths it stops at the shorter (assumption 9, DESIGN CHOICE). -/
def difference (h' h : Bytes) : Byte :=
  (List.zipWith (· ^^^ ·) h' h).foldl (fun diff d => diff ||| d) 0x00#8

end Sys2Proof.Machine
end

