-- ==== Sys2Proof/Machine/Ops.lean ====
section
/-! DEFINITION. The named operations every command is made of: its start (rule R101), its successful end (rule R35),
its error end, the hardware's one "trap entry" (rule R252), the port calls (rules R34, R72, R73), the two levels of
rule R15. There is no return from an error end: the next start of a command clears it (rule R253). -/

namespace Sys2Proof.Machine

/-- The common part of every write of `CMD` while idle (rule R101). -/
def beginCommand (op : Byte) (s : State) : State :=
  { s with curCmd := op, out := [], ecause := 0x00#8, busy := false, done := false, err := false }

/-- `STATUS.BUSY <- 1`, `PHASE <- ph`: what a legal command's start does after the common part (rule R101). -/
def launch (ph : Phase) (s : State) : State := { s with busy := true, phase := ph }

/-- The sequencer's next phase is `ph` (rule R10). -/
def goto (ph : Phase) (s : State) : State := { s with phase := ph }

/-- Successful end of a command with result `v`, all in one step (rule R35; assumption 11, DEDUCED). -/
def endOk (v : Bytes) (s : State) : State :=
  { s with out := v, ecause := 0x00#8, busy := false, done := true, err := false,
           work := Work.cleared, phase := .idle, pend := none }

/-- Error end of a command, all in one step: the shared "trap entry" (rules R35, R252; assumption 11, DEDUCED). -/
def endErr (k : ErrorKind) (s : State) : State :=
  { s with out := [], ecause := errorCode k, busy := false, done := true, err := true,
           work := Work.cleared, phase := .idle, pend := none }

/-- A command's end with the result of its function (rule R35). -/
def finish (r : Except ErrorKind Bytes) (s : State) : State :=
  match r with
  | .ok v => endOk v s
  | .error k => endErr k s

/-- Port calls made, in order (rules R11, R74). -/
def record (calls : List PortCall) (s : State) : State := { s with trace := s.trace ++ calls }

/-- A phase presents a port call and holds until it is answered (rule R34). -/
def ask (call : PortCall) (s : State) : State := record [call] { s with pend := some call }

/-- Whether a port call is one of the random port. -/
def PortCall.isRng : PortCall → Bool
  | .hash _ => false
  | .rng _ => true

/-- The number of requests the random port has been sent: which draw comes next (assumption 5, DESIGN CHOICE). -/
def draws (s : State) : Nat := (s.trace.filter PortCall.isRng).length

/-- What the collaborator answers to the call in flight (rules R72, R73). The request is already in the trace. -/
def answerOf (p : Params) (s : State) : PortCall → Bytes
  | .hash x => p.hash x
  | .rng j => p.draw (draws s - 1) j

/-- A command at the two levels of rule R15, behind the busy gate of rule R67: `whole` is the command from its start
to its end, its port calls answered within it, `start` its start alone (assumption 4, DESIGN CHOICE; assumption 10,
DEDUCED). While busy the write that would start it is ignored. -/
def command (whole start : State → State) (s : State) : State :=
  if s.busy then s
  else match s.level with
    | .bigStep => whole s
    | .smallStep => start s

/-- An illegal command byte: the error is raised in the step of the write, the block is never busy (rules R102, R249).
Ignored while busy (rule R67). -/
def illegalCommand (op : Byte) (s : State) : State :=
  if s.busy then s
  else { beginCommand op s with ecause := errorCode .illegalCommand, done := true, err := true }

end Sys2Proof.Machine
end

