-- ==== Sys2Proof/Machine/Bus.lean ====
section
/-! DEFINITION. The host register space: the address map (rule R61), what each read returns and does (rules R63, R64,
R66), what each write does (rules R24, R25, R63, R65, R66). -/

namespace Sys2Proof.Machine

/-- What stands at an address of the host register space (rule R61). -/
inductive Loc where
  /-- 0x0000. -/
  | cmd
  /-- 0x0001. -/
  | status
  /-- 0x0002. -/
  | errcode
  /-- 0x0003. -/
  | msgClr
  /-- Byte `i` of the register at 0x0004. -/
  | cfgKlen (i : Nat)
  /-- Byte `i` of the register at 0x0006. -/
  | cfgHlen (i : Nat)
  /-- Byte `i` of the register at 0x0008. -/
  | msgLen (i : Nat)
  /-- Byte `i` of the register at 0x0010. -/
  | maskLen (i : Nat)
  /-- Byte `i` of the register at 0x0018. -/
  | outLen (i : Nat)
  /-- 0x0020. -/
  | msgPush
  /-- 0x0021. -/
  | outPop
  /-- 0x0022. -/
  | cfgFlags
  /-- Byte `i` of `OPM`. -/
  | opm (i : Nat)
  /-- Byte `i` of `OPK`. -/
  | opk (i : Nat)
  /-- Byte `i` of `OPN`. -/
  | opn (i : Nat)
  /-- Every other address (rule R66). -/
  | reserved
deriving DecidableEq, Repr

/-- The byte of an operand window at an offset: reserved at offset `kLen` and above (rule R61). -/
def windowLoc (p : Params) (inside : Nat → Loc) (i : Nat) : Loc := if i < p.kLen then inside i else .reserved

/-- The control registers, address by address from 0x0000 to 0x0022 (rule R61). -/
def controlMap : List Loc :=
  [Loc.cmd, Loc.status, Loc.errcode, Loc.msgClr]
    ++ (List.range 2).map Loc.cfgKlen ++ (List.range 2).map Loc.cfgHlen
    ++ (List.range 8).map Loc.msgLen ++ (List.range 8).map Loc.maskLen ++ (List.range 8).map Loc.outLen
    ++ [Loc.msgPush, Loc.outPop, Loc.cfgFlags]

/-- The address map (rule R61): the control registers, then the windows of `OPM`, `OPK` and `OPN`. -/
def locate (p : Params) (a : Addr) : Loc :=
  if a.toNat < 0x1000 then controlMap.getD a.toNat .reserved
  else if a.toNat < 0x2000 then windowLoc p .opm (a.toNat - opmBase)
  else if a.toNat < 0x3000 then windowLoc p .opk (a.toNat - opkBase)
  else windowLoc p .opn (a.toNat - opnBase)

/-- Byte `i` of an `L`-byte big-endian register that holds `v` (rule R63). -/
def regByte (v L i : Nat) : Byte := (beBytes v L).getD i 0x00#8

/-- The byte a read returns (rules R61, R63, R64, R66). The configuration registers are hardwired: they read the
parameters (rule R30; assumption 14, DEDUCED). -/
def readByte (p : Params) (s : State) : Loc → Byte
  | .cmd => s.curCmd
  | .status => statusByte s
  | .errcode => errcode p s
  | .msgClr => 0x00#8
  | .cfgKlen i => regByte p.kLen 2 i
  | .cfgHlen i => regByte p.hLen 2 i
  | .msgLen i => regByte s.msg.length 8 i
  | .maskLen i => regByte s.maskLen.toNat 8 i
  | .outLen i => regByte s.out.length 8 i
  | .msgPush => 0x00#8
  | .outPop => s.out.headD 0x00#8
  | .cfgFlags => cfgFlags p
  | .opm i => memRead s.mem (opmBase + i)
  | .opk i => memRead s.mem (opkBase + i)
  | .opn i => memRead s.mem (opnBase + i)
  | .reserved => 0x00#8

/-- The one read with a side effect: a read of `OUT_POP` removes the byte it returns (rules R26, R64). -/
def readEffect (l : Loc) (s : State) : State := if l = .outPop then { s with out := s.out.tail } else s

/-- A host read: its effect, and the byte returned, which the host sees (rules R14, R64). Allowed busy or idle. -/
def hostRead (p : Params) (a : Addr) (s : State) : State :=
  readEffect (locate p a) { s with reads := s.reads ++ [(a, readByte p s (locate p a))] }

/-- `MSG <- MSG || v` unless `MSG_LEN = 2^64 - 1` (rule R24); no run has a longer `MSG` (assumption 9, DESIGN CHOICE). -/
def pushByte (v : Byte) (s : State) : State :=
  if s.msg.length < 2 ^ 64 - 1 then { s with msg := s.msg ++ [v] } else s

/-- A write to byte `i` of `MASK_LEN` replaces byte `i` of its eight bytes (rule R63). -/
def setMaskByte (i : Nat) (v : Byte) (s : State) : State :=
  { s with maskLen := BitVec.ofNat 64 (beInt ((beBytes s.maskLen.toNat 8).set i v)) }

/-- The byte at bus address `a` of an operand register takes the written value (rule R65). -/
def setOperandByte (a : Nat) (v : Byte) (s : State) : State := { s with mem := memWrite s.mem a v }

/-- A write while idle, to every address but `CMD`'s (rule R65); read-only and reserved addresses ignore it (R66). -/
def writeByte (v : Byte) (s : State) : Loc → State
  | .cmd => s
  | .status => s
  | .errcode => s
  | .msgClr => { s with msg := [] }
  | .cfgKlen _ => s
  | .cfgHlen _ => s
  | .msgLen _ => s
  | .maskLen i => setMaskByte i v s
  | .outLen _ => s
  | .msgPush => pushByte v s
  | .outPop => s
  | .cfgFlags => s
  | .opm i => setOperandByte (opmBase + i) v s
  | .opk i => setOperandByte (opkBase + i) v s
  | .opn i => setOperandByte (opnBase + i) v s
  | .reserved => s

/-- The busy gate: while `STATUS.BUSY = 1` a write to any address is ignored (rule R67). -/
def gatedWrite (v : Byte) (l : Loc) (s : State) : State := if s.busy then s else writeByte v s l

/-- One poll of the pseudo-instruction `wait`: a read of `STATUS`; while it shows `BUSY`, the block's due move is
scheduled and then the next poll (rule R113; assumption 2, DESIGN CHOICE). -/
def hostWait (s : State) : State :=
  let polled := { s with reads := s.reads ++ [(0x0001#14, statusByte s)] }
  if s.busy then
    { polled with agenda := (if s.pend.isSome then .answer else .sequencer) :: .hostWait :: s.agenda }
  else polled

end Sys2Proof.Machine
end

