-- ==== Sys2Proof/Machine/Clear.lean ====
section
/-! DEFINITION. Command CLEAR (rule R101). -/

namespace Sys2Proof.Machine

/-- CLEAR on an instance: the common part of a start and nothing further; the block stays idle (rule R101). Both
levels of rule R15 are the same one step. -/
def clearCommand (s : State) : State := if s.busy then s else beginCommand (encode .clear) s

/-- The meaning of CLEAR. -/
def execClear (s : State) : Host.Outcome State Fault Refusal := .next (clearCommand s)

end Sys2Proof.Machine
end

