-- ==== Sys2Proof/Machine/Mgf.lean ====
section
/-! DEFINITION. The mask generation function MGF1: `mgf` (rules R161 to R166), the unit's phases (rule R168), and
command MGF (rule R160). -/

namespace Sys2Proof.Machine

/-- The hash input for counter `c`: the seed first, then the four counter bytes (rule R110). -/
def mgfInput (seed : Bytes) (c : Nat) : Bytes := seed ++ be32 c

/-- `ceil(mask_len / hLen)`, the number of hash calls (rule R163); 0 on a parameter set with `hLen = 0`, which rule R7
refuses (assumption 19, DESIGN CHOICE). -/
def mgfCount (p : Params) (maskLen : Nat) : Nat := (maskLen + p.hLen - 1) / p.hLen

/-- The concatenated digests of counters `0 .. q - 1` (rule R163). -/
def mgfBlocks (p : Params) (seed : Bytes) (q : Nat) : Bytes :=
  (List.range q).flatMap fun c => p.hash (mgfInput seed c)

/-- `mgf(seed, mask_len)` (rule R161): the bound of rule R162, the digests of rule R163, the truncation of rule R164. -/
def mgf (p : Params) (seed : Bytes) (maskLen : Nat) : Except ErrorKind Bytes :=
  if maskLen > p.maskBound then .error .maskTooLong
  else .ok ((mgfBlocks p seed (mgfCount p maskLen)).take maskLen)

/-- The port calls of `mgf`, in increasing counter order; none when the bound is exceeded (rules R162, R163). -/
def mgfCalls (p : Params) (seed : Bytes) (maskLen : Nat) : List PortCall :=
  if maskLen > p.maskBound then []
  else (List.range (mgfCount p maskLen)).map fun c => .hash (mgfInput seed c)

/-- Entering the unit at `M0_BOUND` with a seed and a length (rule R168). -/
def enterMgf (seed : Bytes) (maskLen : Nat) (s : State) : State :=
  goto .m0Bound { s with work := { s.work with mgfSeed := seed, mgfLen := maskLen } }

/-- The seed guard of the command: `MSG_LEN + 4 > hashMaxLen` (rule R160). -/
def seedTooLong (p : Params) (s : State) : Bool := decide (s.msg.length + 4 > p.hashMaxLen)

/-- The start of MGF: the seed guard may end the command in the step of its start (rules R160, R242). -/
def mgfStart (p : Params) (s : State) : State :=
  if seedTooLong p s then endErr .messageTooLong (beginCommand (encode .mgf) s)
  else enterMgf s.msg s.maskLen.toNat (launch .m0Bound (beginCommand (encode .mgf) s))

/-- MGF from start to end (rule R160), with its port trace (rule R169). -/
def mgfWhole (p : Params) (s : State) : State :=
  if seedTooLong p s then endErr .messageTooLong (beginCommand (encode .mgf) s)
  else finish (mgf p s.msg s.maskLen.toNat)
    (record (mgfCalls p s.msg s.maskLen.toNat) (beginCommand (encode .mgf) s))

/-- MGF on an instance. -/
def mgfCommand (p : Params) (s : State) : State := command (mgfWhole p) (mgfStart p) s

/-- The meaning of MGF. -/
def execMgf (s : State) : Host.Outcome State Fault Refusal := .next (mgfCommand Config.params s)

/-! ### Phases of the unit (rule R168) -/

/-- `M0_BOUND`: the bound, then an empty accumulator and counter 0. -/
def boundPhase (p : Params) (s : State) : State :=
  if s.work.mgfLen > p.maskBound then endErr .maskTooLong s
  else goto .m1Loop { s with work := { s.work with mgfAcc := [], mgfCtr := 0 } }

/-- `M1_LOOP`: go on when enough is accumulated, else call the hash port. -/
def loopPhase (s : State) : State :=
  if s.work.mgfAcc.length ≥ s.work.mgfLen then goto .m2Trunc s
  else ask (.hash (mgfInput s.work.mgfSeed s.work.mgfCtr)) s

/-- `M1_LOOP` answered: the digest is appended, the counter goes up by 1, the phase is entered again. -/
def loopAnswered (digest : Bytes) (s : State) : State :=
  { s with work := { s.work with mgfAcc := s.work.mgfAcc ++ digest, mgfCtr := s.work.mgfCtr + 1 } }

/-- `M2_TRUNC`: the mask; SIGN and VERIFY keep it in `DBMASK` and go on, MGF ends with it. No run is here under another
command (assumption 9, DESIGN CHOICE). -/
def truncPhase (s : State) : State :=
  let t := s.work.mgfAcc.take s.work.mgfLen
  if s.curCmd = encode .sign then goto .s6Xor { s with work := { s.work with dbmask := t } }
  else if s.curCmd = encode .verify then goto .v5Xor { s with work := { s.work with dbmask := t } }
  else endOk t s

end Sys2Proof.Machine
end

