-- ==== Sys2Proof/Machine/Rsa.lean ====
section
/-! DEFINITION. The RSA core cipher: `rsa_transform` (rules R141 to R147), the kernel's phases (rule R150), and
command RSA (rule R140). -/

namespace Sys2Proof.Machine

/-- One round of square and multiply, for exponent bit `i` (rule R144). By `N = 0`, where no run is (rules R143, R148), the
remainder is the dividend (assumption 9, DESIGN CHOICE). -/
def expRound (M E N i R : Nat) : Nat :=
  let sq := R * R % N
  if E.testBit i then sq * M % N else sq

/-- Square and multiply over exponent bits `i - 1` down to 0, from the running power `R` (rule R144). -/
def expLoop (M E N : Nat) : Nat → Nat → Nat
  | 0, R => R
  | i + 1, R => expLoop M E N i (expRound M E N i R)

/-- `modexp(M, E, N)` by the reference sequence: all `K` exponent bits, most significant first (rule R144). -/
def modexp (p : Params) (M E N : Nat) : Nat := expLoop M E N p.K (1 % N)

/-- `rsa_transform(m, k, n)` (rule R141): the range check of rule R142, the value of rule R143, the export of rule
R145. -/
def rsaTransform (p : Params) (m k n : Bytes) : Except ErrorKind Bytes :=
  if beInt m ≥ beInt n then .error .messageOutOfRange
  else .ok (beBytes (modexp p (beInt m) (beInt k) (beInt n)) p.kLen)

/-- The start of RSA (rules R101, R140). -/
def rsaStart (s : State) : State := launch .r0Import (beginCommand (encode .rsa) s)

/-- RSA from start to end (rule R140): no port call. -/
def rsaWhole (p : Params) (s : State) : State :=
  finish (rsaTransform p (opm p s) (opk p s) (opn p s)) (beginCommand (encode .rsa) s)

/-- RSA on an instance. -/
def rsaCommand (p : Params) (s : State) : State := command (rsaWhole p) rsaStart s

/-- The meaning of RSA. -/
def execRsa (s : State) : Host.Outcome State Fault Refusal := .next (rsaCommand Config.params s)

/-! ### Phases of the kernel (rule R150) -/

/-- `R0_IMPORT`: the operands, `m` from `EM` under SIGN and from `OPM` under RSA and VERIFY. No run is here under another
command, where `m` comes from `OPM` too (assumption 9, DESIGN CHOICE). -/
def importPhase (p : Params) (s : State) : State :=
  goto .r1Range { s with work := { s.work with
    rsaM := beInt (if s.curCmd = encode .sign then s.work.em else opm p s)
    rsaK := beInt (opk p s)
    rsaN := beInt (opn p s) } }

/-- `R1_RANGE`: the range check, then the running power `1 mod N` and all `K` bits to process. -/
def rangePhase (p : Params) (s : State) : State :=
  if s.work.rsaM ≥ s.work.rsaN then endErr .messageOutOfRange s
  else goto .r2Exp { s with work := { s.work with rsaR := 1 % s.work.rsaN, rsaI := p.K } }

/-- `R2_EXP`: one exponent bit per entry, and the exit when none is left. -/
def expPhase (s : State) : State :=
  if s.work.rsaI = 0 then goto .r3Export s
  else { s with work := { s.work with
    rsaI := s.work.rsaI - 1
    rsaR := expRound s.work.rsaM s.work.rsaK s.work.rsaN (s.work.rsaI - 1) s.work.rsaR } }

/-- `R3_EXPORT`: the result's bytes; RSA and SIGN end with them, VERIFY keeps them in `EM` and goes on. No run is here
under another command (assumption 9, DESIGN CHOICE). -/
def exportPhase (p : Params) (s : State) : State :=
  let res := beBytes s.work.rsaR p.kLen
  if s.curCmd = encode .verify then
    goto .v2Trailer { s with work := { s.work with res := res, em := res } }
  else endOk res s

end Sys2Proof.Machine
end

