-- ==== Sys2Proof/Machine/Sign.lean ====
section
/-! DEFINITION. The PSS encoder: `sign` (rules R181 to R191), its port trace (rule R194), its phases (rule R193), and
command SIGN (rule R180). -/

namespace Sys2Proof.Machine

/-- `H = hash(0x00×8 || hash(message) || salt)` (rules R182, R184). -/
def saltedHash (p : Params) (message salt : Bytes) : Bytes := p.hash (mPrime (p.hash message) salt)

/-- Step 7's test, `DB_SIZE + hLen + 1 > kLen` (rule R187): never true on an instance, true on some sizes rule R7 refuses
(assumption 19, DESIGN CHOICE). -/
def encodingTooLong (p : Params) : Bool := decide (p.dbSize + p.hLen + 1 > p.kLen)

/-- `sign(message, d, n)` with draw `salt` (rule R191). -/
def sign (p : Params) (message d n salt : Bytes) : Except ErrorKind Bytes :=
  if message.length > p.hashMaxLen then .error .messageTooLong
  else
    let h := saltedHash p message salt
    match mgf p h p.dbSize with
    | .error k => .error k
    | .ok dbMask =>
      if encodingTooLong p then .error .encodingTooLong
      else rsaTransform p (clearTopBit (encodedMessage (xorBytes (dataBlock p salt) dbMask) h)) d n

/-- The port calls of `sign` (rules R181, R194). -/
def signCalls (p : Params) (message salt : Bytes) : List PortCall :=
  if message.length > p.hashMaxLen then []
  else [.hash message, .rng p.hLen, .hash (mPrime (p.hash message) salt)]
    ++ mgfCalls p (saltedHash p message salt) p.dbSize

/-- The salt the random port answers the next request with (rules R73, R183; assumption 5, DESIGN CHOICE). -/
def nextSalt (p : Params) (s : State) : Bytes := p.draw (draws s) p.hLen

/-- The start of SIGN (rules R101, R180). -/
def signStart (s : State) : State := launch .s1Len (beginCommand (encode .sign) s)

/-- SIGN from start to end (rule R180). -/
def signWhole (p : Params) (s : State) : State :=
  finish (sign p s.msg (opk p s) (opn p s) (nextSalt p s))
    (record (signCalls p s.msg (nextSalt p s)) (beginCommand (encode .sign) s))

/-- SIGN on an instance. -/
def signCommand (p : Params) (s : State) : State := command (signWhole p) signStart s

/-- The meaning of SIGN. -/
def execSign (s : State) : Host.Outcome State Fault Refusal := .next (signCommand Config.params s)

/-! ### Phases of SIGN (rule R193) -/

/-- `S1_LEN`: step 1. -/
def lenPhase (p : Params) (s : State) : State :=
  if s.msg.length > p.hashMaxLen then endErr .messageTooLong s else goto .s2Mhash s

/-- `S2_MHASH`: step 2, the call. -/
def mhashPhase (s : State) : State := ask (.hash s.msg) s

/-- `S2_MHASH` answered. -/
def mhashAnswered (digest : Bytes) (s : State) : State :=
  goto .s3Salt { s with work := { s.work with mhash := digest } }

/-- `S3_SALT`: step 3, the draw of exactly `hLen` bytes. -/
def saltPhase (p : Params) (s : State) : State := ask (.rng p.hLen) s

/-- `S3_SALT` answered: every answer is used as it comes (rule R183). -/
def saltAnswered (bytes : Bytes) (s : State) : State :=
  goto .s4H { s with work := { s.work with salt := bytes } }

/-- `S4_H`: step 4, the call. -/
def hPhase (s : State) : State := ask (.hash (mPrime s.work.mhash s.work.salt)) s

/-- `S4_H` answered. -/
def hAnswered (digest : Bytes) (s : State) : State :=
  goto .s5Db { s with work := { s.work with hb := digest } }

/-- `S5_DB`: step 5. -/
def dbPhase (p : Params) (s : State) : State :=
  goto .s6Mask { s with work := { s.work with db := dataBlock p s.work.salt } }

/-- `S6_MASK`: step 6, entering MGF1. -/
def maskPhase (p : Params) (s : State) : State := enterMgf s.work.hb p.dbSize s

/-- `S6_XOR`: step 6, the masked data block. -/
def xorPhase (s : State) : State :=
  goto .s7Size { s with work := { s.work with mdb := xorBytes s.work.db s.work.dbmask } }

/-- `S7_SIZE`: step 7, never true on an instance rule R7 admits. -/
def sizePhase (p : Params) (s : State) : State :=
  if encodingTooLong p then endErr .encodingTooLong s else goto .s8Em s

/-- `S8_EM`: step 8. -/
def emPhase (s : State) : State :=
  goto .s9Topbit { s with work := { s.work with em := encodedMessage s.work.mdb s.work.hb } }

/-- `S9_TOPBIT`: step 9. -/
def topbitPhase (s : State) : State :=
  goto .s10Rsa { s with work := { s.work with em := clearTopBit s.work.em } }

/-- `S10_RSA`: step 10, entering the kernel. -/
def signRsaPhase (s : State) : State := goto .r0Import s

end Sys2Proof.Machine
end

