-- ==== Sys2Proof/Machine/Verify.lean ====
section
/-! DEFINITION. The PSS decoder: `verify` (rules R211 to R226), its port trace (rule R233), its phases (rule R232), and
command VERIFY (rule R210). -/

namespace Sys2Proof.Machine

/-- `DB = maskedDB xor dbMask` with `DB[0]` forced to 0x00 (rule R215). -/
def unmask (maskedDB dbMask : Bytes) : Bytes := forceFirst (xorBytes maskedDB dbMask)

/-- Steps 8 to 10: the guard, the two hashes, the full-length comparison, accept (rules R218, R219, R224, R225). -/
def verifyHash (p : Params) (message salt h : Bytes) : Except ErrorKind Unit :=
  if message.length > p.hashMaxLen then .error .messageTooLong
  else if difference (saltedHash p message salt) h ≠ 0x00#8 then .error .hashMismatch
  else .ok ()

/-- Steps 2 to 10 on the block `EM` of step 1: the decoder proper (rules R212 to R225). -/
def verifyBlock (p : Params) (message em : Bytes) : Except ErrorKind Unit :=
  if trailerOf p em ≠ trailer then .error .invalidTrailer
  else if topBitSet em then .error .invalidLeadingBit
  else match mgf p (hashOf p em) p.dbSize with
    | .error k => .error k
    | .ok dbMask =>
      if paddingOk p (unmask (maskedDbOf p em) dbMask) then
        verifyHash p message (saltOf p (unmask (maskedDbOf p em) dbMask)) (hashOf p em)
      else .error .invalidPadding

/-- `verify(message, e, n, signature)` (rule R226). -/
def verify (p : Params) (message e n signature : Bytes) : Except ErrorKind Unit :=
  match rsaTransform p signature e n with
  | .error k => .error k
  | .ok em => verifyBlock p message em

/-- The port calls of steps 8 and 9 (rule R233). -/
def verifyHashCalls (p : Params) (message salt : Bytes) : List PortCall :=
  if message.length > p.hashMaxLen then []
  else [.hash message, .hash (mPrime (p.hash message) salt)]

/-- The port calls of steps 2 to 10 on the block `EM` (rule R233). -/
def blockCalls (p : Params) (message em : Bytes) : List PortCall :=
  if trailerOf p em ≠ trailer then []
  else if topBitSet em then []
  else mgfCalls p (hashOf p em) p.dbSize ++
    match mgf p (hashOf p em) p.dbSize with
    | .error _ => []
    | .ok dbMask =>
      if paddingOk p (unmask (maskedDbOf p em) dbMask) then
        verifyHashCalls p message (saltOf p (unmask (maskedDbOf p em) dbMask))
      else []

/-- The port calls of `verify` (rule R233). -/
def verifyCalls (p : Params) (message e n signature : Bytes) : List PortCall :=
  match rsaTransform p signature e n with
  | .error _ => []
  | .ok em => blockCalls p message em

/-- The verdict as a command's result: `OUT` stays empty on accept (rule R210). -/
def verdict : Except ErrorKind Unit → Except ErrorKind Bytes
  | .ok _ => .ok []
  | .error k => .error k

/-- The start of VERIFY (rules R101, R210). -/
def verifyStart (s : State) : State := launch .v1Rsa (beginCommand (encode .verify) s)

/-- VERIFY from start to end (rule R210). -/
def verifyWhole (p : Params) (s : State) : State :=
  finish (verdict (verify p s.msg (opk p s) (opn p s) (opm p s)))
    (record (verifyCalls p s.msg (opk p s) (opn p s) (opm p s)) (beginCommand (encode .verify) s))

/-- VERIFY on an instance. -/
def verifyCommand (p : Params) (s : State) : State := command (verifyWhole p) verifyStart s

/-- The meaning of VERIFY. -/
def execVerify (s : State) : Host.Outcome State Fault Refusal := .next (verifyCommand Config.params s)

/-! ### Phases of VERIFY (rule R232) -/

/-- `V1_RSA`: step 1, entering the kernel. -/
def verifyRsaPhase (s : State) : State := goto .r0Import s

/-- `V2_TRAILER`: step 2. -/
def trailerPhase (p : Params) (s : State) : State :=
  if trailerOf p s.work.em ≠ trailer then endErr .invalidTrailer s else goto .v3Leadbit s

/-- `V3_LEADBIT`: step 3. -/
def leadbitPhase (s : State) : State :=
  if topBitSet s.work.em then endErr .invalidLeadingBit s else goto .v4Split s

/-- `V4_SPLIT`: step 4. -/
def splitPhase (p : Params) (s : State) : State :=
  goto .v5Mask { s with work := { s.work with
    mdb := maskedDbOf p s.work.em, hb := hashOf p s.work.em } }

/-- `V5_MASK`: step 5, entering MGF1 with the `H` taken from `EM`. -/
def unmaskPhase (p : Params) (s : State) : State := enterMgf s.work.hb p.dbSize s

/-- `V5_XOR`: step 5, the data block with its first byte forced. -/
def unxorPhase (s : State) : State :=
  goto .v6Pad { s with work := { s.work with db := unmask s.work.mdb s.work.dbmask } }

/-- `V6_PAD`: step 6. -/
def padPhase (p : Params) (s : State) : State :=
  if paddingOk p s.work.db then goto .v7Salt s else endErr .invalidPadding s

/-- `V7_SALT`: step 7. -/
def recoverSaltPhase (p : Params) (s : State) : State :=
  goto .v8Len { s with work := { s.work with salt := saltOf p s.work.db } }

/-- `V8_LEN`: the guard of step 8. -/
def guardPhase (p : Params) (s : State) : State :=
  if s.msg.length > p.hashMaxLen then endErr .messageTooLong s else goto .v8Mhash s

/-- `V8_MHASH`: step 8, the message hash, the call. -/
def verifyMhashPhase (s : State) : State := ask (.hash s.msg) s

/-- `V8_MHASH` answered. -/
def verifyMhashAnswered (digest : Bytes) (s : State) : State :=
  goto .v8H2 { s with work := { s.work with mhash := digest } }

/-- `V8_H2`: step 8, the recomputed hash, the call. -/
def h2Phase (s : State) : State := ask (.hash (mPrime s.work.mhash s.work.salt)) s

/-- `V8_H2` answered. -/
def h2Answered (digest : Bytes) (s : State) : State :=
  goto .v9Cmp { s with work := { s.work with h2 := digest } }

/-- `V9_CMP`: step 9. -/
def cmpPhase (s : State) : State :=
  if difference s.work.h2 s.work.hb ≠ 0x00#8 then endErr .hashMismatch s else goto .v10Accept s

/-- `V10_ACCEPT`: step 10. -/
def acceptPhase (s : State) : State := endOk [] s

end Sys2Proof.Machine
end

