-- ==== Sys2Proof/Machine/Sequencer.lean ====
section
/-! DEFINITION. The moves of the sequencer and of the collaborators at the small-step level (rules R31, R34, R150, R168,
R193, R232). -/

namespace Sys2Proof.Machine

/-- What the phase being executed does when the sequencer takes its step (rule R31). -/
def phaseStep (p : Params) (s : State) : State :=
  match s.phase with
  | .idle => s
  | .r0Import => importPhase p s
  | .r1Range => rangePhase p s
  | .r2Exp => expPhase s
  | .r3Export => exportPhase p s
  | .m0Bound => boundPhase p s
  | .m1Loop => loopPhase s
  | .m2Trunc => truncPhase s
  | .s1Len => lenPhase p s
  | .s2Mhash => mhashPhase s
  | .s3Salt => saltPhase p s
  | .s4H => hPhase s
  | .s5Db => dbPhase p s
  | .s6Mask => maskPhase p s
  | .s6Xor => xorPhase s
  | .s7Size => sizePhase p s
  | .s8Em => emPhase s
  | .s9Topbit => topbitPhase s
  | .s10Rsa => signRsaPhase s
  | .v1Rsa => verifyRsaPhase s
  | .v2Trailer => trailerPhase p s
  | .v3Leadbit => leadbitPhase s
  | .v4Split => splitPhase p s
  | .v5Mask => unmaskPhase p s
  | .v5Xor => unxorPhase s
  | .v6Pad => padPhase p s
  | .v7Salt => recoverSaltPhase p s
  | .v8Len => guardPhase p s
  | .v8Mhash => verifyMhashPhase s
  | .v8H2 => h2Phase s
  | .v9Cmp => cmpPhase s
  | .v10Accept => acceptPhase s

/-- How an answer completes the phase that made the call; a phase that makes no call has none to complete,
and the phase alone says what is completed, not the port of the call in flight (assumption 9, DESIGN CHOICE). -/
def completePhase (bytes : Bytes) (s : State) : State :=
  match s.phase with
  | .m1Loop => loopAnswered bytes s
  | .s2Mhash => mhashAnswered bytes s
  | .s3Salt => saltAnswered bytes s
  | .s4H => hAnswered bytes s
  | .v8Mhash => verifyMhashAnswered bytes s
  | .v8H2 => h2Answered bytes s
  | _ => s

/-- The sequencer's move: it has no step while a port call is in flight (rule R34), nor when idle (rule R31):
there the state stays as it is (assumption 13, DESIGN CHOICE). -/
def sequencerMove (p : Params) (s : State) : State :=
  match s.pend with
  | some _ => s
  | none => phaseStep p s

/-- A collaborator's move: the answer sets `PEND <- none` and completes the phase (rule R34); an answer that arrives
when no call is in flight is discarded without effect (rule R271). The answer to a call in flight is its own: a late
answer to a call that reset abandoned is never taken for it, a case rule R271 leaves open (assumption 18, DESIGN
CHOICE, unsafe). -/
def answerMove (p : Params) (s : State) : State :=
  match s.pend with
  | none => s
  | some call => completePhase (answerOf p s call) { s with pend := none }

/-- The move that is due when nothing else is scheduled: the answer to the call in flight, else the sequencer's step;
none when idle, where the state stays as it is (rules R259, R285; assumptions 2, 13, DESIGN CHOICE). -/
def dueMove (p : Params) (s : State) : State :=
  match s.pend with
  | some _ => answerMove p s
  | none => sequencerMove p s

/-- Reset, in one step, in any state (rules R270, R271). What the environment has scheduled and what has been observed
are no state of the block and stay (assumption 7, DESIGN CHOICE). -/
def resetMove (s : State) : State :=
  { State.reset with agenda := s.agenda, reads := s.reads, trace := s.trace, level := s.level }

end Sys2Proof.Machine
end

