-- ==== Sys2Proof/Machine/Fetch.lean ====
section
/-! DEFINITION. What each scheduled move does. There is no instruction fetch (rules R62, R71): a command is the byte the
host writes to `CMD` (rule R100), so that write is where a command byte is decoded. -/

namespace Sys2Proof.Machine

/-- A write of `CMD`: the command it names, or the end of an illegal byte (rules R101, R102). -/
def writeCmd (op : Byte) (s : State) : Host.Outcome State Fault Refusal :=
  match decode op with
  | .ok i => exec i s
  | .error (.illegalCommand op') => .next (illegalCommand op' s)

/-- A host write: of `CMD` a command, of any other address a byte behind the busy gate (rules R65, R67). -/
def hostWrite (a : Addr) (v : Byte) (s : State) : Host.Outcome State Fault Refusal :=
  match locate Config.params a with
  | .cmd => writeCmd v s
  | l => .next (gatedWrite v l s)

/-- One scheduled move; the state is the one after it has left the schedule (rules R13, R69). -/
def move (e : Event) (s : State) : Host.Outcome State Fault Refusal :=
  match e with
  | .hostWrite a v => hostWrite a v s
  | .hostRead a => .next (hostRead Config.params a s)
  | .hostWait => .next (hostWait s)
  | .sequencer => .next (sequencerMove Config.params s)
  | .answer => .next (answerMove Config.params s)
  | .reset => .next (resetMove s)

/-- The next move: the head of the schedule, or the block's due move when nothing is scheduled (assumption 2,
DESIGN CHOICE). -/
def nextMove (s : State) : Host.Outcome State Fault Refusal :=
  match s.agenda with
  | [] => .next (dueMove Config.params s)
  | e :: rest => move e { s with agenda := rest }

/-- The write of a command byte scheduled as the next move. -/
def scheduleCommand (op : Byte) (s : State) : State :=
  { s with agenda := .hostWrite 0x0000#14 op :: s.agenda }

end Sys2Proof.Machine
end

