-- ==== Sys2Proof/Machine/Step.lean ====
section
/-! DEFINITION. One step of the machine: one move of one agent (rules R13, R69). -/

namespace Sys2Proof.Machine

/-- One step. -/
def step (s : State) : Host.Outcome State Fault Refusal := nextMove s

/-- `s` with a command placed where `step` takes its next command from: the host's write of it to `CMD`, next in the
schedule (assumption 6, DESIGN CHOICE). -/
def State.withFetchWord (s : State) (nbits w : Nat) : State := scheduleCommand (commandByte nbits w) s

end Sys2Proof.Machine
end

