-- ==== Sys2Proof/Machine/Driver.lean ====
section
/-! DEFINITION. The host's bus-level notation (rules R112, R113) and its driver sequences (rule R275), as the moves the
host schedules. -/

namespace Sys2Proof.Machine

/-- The command mnemonics as pseudo-instructions: one write of `CMD` (rule R113). -/
def issue (i : Instr) : List Event := [.hostWrite 0x0000#14 (encode i)]

/-- `ldop REG, hex`, for the register at a base address: one write per byte, in order (rule R113). -/
def ldop (base : Nat) (x : Bytes) : List Event :=
  x.zipIdx.map fun b => .hostWrite (BitVec.ofNat 14 (base + b.2)) b.1

/-- `ldmsg hex`: a write of `MSG_CLR`, then one push per byte (rule R113). -/
def ldmsg (x : Bytes) : List Event := .hostWrite 0x0003#14 0x00#8 :: x.map (.hostWrite 0x0020#14)

/-- `ldlen v`: the eight bytes of `MASK_LEN` (rule R113). -/
def ldlen (v : Nat) : List Event :=
  (List.range 8).map fun i => .hostWrite (BitVec.ofNat 14 (0x0010 + i)) (regByte v 8 i)

/-- `popn j`: `j` reads of `OUT_POP` (rule R113). -/
def popn (j : Nat) : List Event := List.replicate j (.hostRead 0x0021#14)

/-- `rd64 REG`, for the register at a base address: its eight bytes (rule R113). -/
def rd64 (base : Nat) : List Event := (List.range 8).map fun i => .hostRead (BitVec.ofNat 14 (base + i))

/-- The driver of `rsa_transform(m, k, n)` up to its `wait` (rule R275). -/
def driveRsa (m k n : Bytes) : List Event :=
  ldop opmBase m ++ ldop opkBase k ++ ldop opnBase n ++ issue .rsa ++ [.hostWait]

/-- The driver of `mgf(seed, mask_len)` up to its `wait` (rule R275). -/
def driveMgf (seed : Bytes) (maskLen : Nat) : List Event := ldmsg seed ++ ldlen maskLen ++ issue .mgf ++ [.hostWait]

/-- The driver of `sign(message, d, n)` up to its `wait` (rule R275). -/
def driveSign (message d n : Bytes) : List Event :=
  ldmsg message ++ ldop opkBase d ++ ldop opnBase n ++ issue .sign ++ [.hostWait]

/-- The driver of `verify(message, e, n, signature)` up to its `wait` (rule R275). -/
def driveVerify (message e n signature : Bytes) : List Event :=
  ldmsg message ++ ldop opkBase e ++ ldop opnBase n ++ ldop opmBase signature ++ issue .verify ++ [.hostWait]

/-- What the host does with the status `wait` returned: 0x02 means pop the `j` result bytes, else read `ERRCODE`
(rule R275; for VERIFY `j` is 0 and the read is for testing and logging only). -/
def collect (st : Byte) (j : Nat) : List Event := if st = 0x02#8 then popn j else [.hostRead 0x0002#14]

end Sys2Proof.Machine
end

