-- ==== Sys2Proof/Safety.lean ====
section
/-! DEFINITION. The terms claims are made in: a valid key (rule R130), the frame of a command (rule R35), and the
invariant of a well-behaved run (rules R28, R31 to R34, R72). -/

namespace Sys2Proof.Machine

/-- `ValidKey(e, d, n)` over three `kLen`-byte octet strings (rule R130). -/
def ValidKey (p : Params) (e d n : Bytes) : Prop :=
  e.length = p.kLen ∧ d.length = p.kLen ∧ n.length = p.kLen ∧
  ∃ P Q : Nat, P.Prime ∧ Q.Prime ∧ P ≠ Q ∧
    2 ^ (p.K / 2 - 1) ≤ P ∧ P < 2 ^ (p.K / 2) ∧ 2 ^ (p.K / 2 - 1) ≤ Q ∧ Q < 2 ^ (p.K / 2) ∧
    beInt n = P * Q ∧ 2 ^ (p.K - 1) ≤ beInt n ∧ beInt n < 2 ^ p.K ∧
    Nat.gcd (beInt e) (Nat.lcm (P - 1) (Q - 1)) = 1 ∧
    beInt e * beInt d % Nat.lcm (P - 1) (Q - 1) = 1

/-- The host-owned inputs are as they were: every byte of the operand registers, the message, the mask length
(rule R35). -/
def InputsKept (s t : State) : Prop :=
  t.mem = s.mem ∧ (∀ a, memRead t.mem a = memRead s.mem a) ∧ t.msg = s.msg ∧ t.maskLen = s.maskLen

/-- The model's own fields but the port trace are as they were. -/
def ScheduleKept (s t : State) : Prop := t.agenda = s.agenda ∧ t.reads = s.reads ∧ t.level = s.level

/-- What a move of the sequencer or of a collaborator leaves alone, and that it shows the host nothing or ends the
command (rules R31, R34, R35, R69). -/
def MoveKept (s t : State) : Prop :=
  t.mem = s.mem ∧ t.msg = s.msg ∧ t.maskLen = s.maskLen ∧ t.curCmd = s.curCmd ∧ t.agenda = s.agenda ∧
  t.reads = s.reads ∧ t.level = s.level ∧
  ((t.busy = s.busy ∧ t.done = s.done ∧ t.err = s.err ∧ t.ecause = s.ecause ∧ t.out = s.out) ∨
    (t.busy = false ∧ t.done = true))

/-- A command with opcode `op` has ended in `t` with result `v` (rules R27, R35). -/
def EndedOk (op : Byte) (v : Bytes) (t : State) : Prop :=
  t.curCmd = op ∧ t.out = v ∧ t.ecause = 0x00#8 ∧ t.busy = false ∧ t.done = true ∧ t.err = false ∧
  t.phase = .idle ∧ t.work = Work.cleared ∧ t.pend = none

/-- A command with opcode `op` has ended in `t` with error code `c` (rules R27, R35, R252). -/
def EndedErr (op c : Byte) (t : State) : Prop :=
  t.curCmd = op ∧ t.out = [] ∧ t.ecause = c ∧ t.busy = false ∧ t.done = true ∧ t.err = true ∧
  t.phase = .idle ∧ t.work = Work.cleared ∧ t.pend = none

/-- An address of one of the three operand registers (rule R61). -/
def inWindow (p : Params) (a : Nat) : Prop :=
  (opmBase ≤ a ∧ a < opmBase + p.kLen) ∨ (opkBase ≤ a ∧ a < opkBase + p.kLen) ∨
    (opnBase ≤ a ∧ a < opnBase + p.kLen)

/-- The codes `ECAUSE` can hold (rules R29, R104). -/
def causeLegal (c : Byte) : Prop := c.toNat ≤ 8 ∨ c = 0x0F#8

/-- The port call the phase being executed makes, if it makes one now (rules R168, R193, R232). -/
def callOf (p : Params) (s : State) : Option PortCall :=
  match s.phase with
  | .m1Loop =>
    if s.work.mgfAcc.length < s.work.mgfLen then some (.hash (mgfInput s.work.mgfSeed s.work.mgfCtr)) else none
  | .s2Mhash => some (.hash s.msg)
  | .s3Salt => some (.rng p.hLen)
  | .s4H => some (.hash (mPrime s.work.mhash s.work.salt))
  | .v8Mhash => some (.hash s.msg)
  | .v8H2 => some (.hash (mPrime s.work.mhash s.work.salt))
  | _ => none

/-- A port call a hash port may be sent: its input is in the hash function's domain (rule R72). -/
def PortCall.inDomain (p : Params) : PortCall → Prop
  | .hash x => x.length ≤ p.hashMaxLen
  | .rng j => 1 ≤ j

/-- The commands the kernel runs under (rule R31). -/
def kernelCommand (s : State) : Prop :=
  s.curCmd = encode .rsa ∨ s.curCmd = encode .sign ∨ s.curCmd = encode .verify

/-- The imported operands are below `2^K` (rule R32). -/
def kernelOperands (p : Params) (s : State) : Prop :=
  kernelCommand s ∧ s.work.rsaM < 2 ^ p.K ∧ s.work.rsaK < 2 ^ p.K ∧ s.work.rsaN < 2 ^ p.K

/-- What MGF1 was entered with: by MGF, by SIGN with `DB` built, by VERIFY with `MDB` split off (rule R168). -/
def mgfEntered (p : Params) (s : State) : Prop :=
  s.work.mgfSeed.length + 4 ≤ p.hashMaxLen ∧ s.work.mgfLen ≤ 2 ^ 64 - 1 ∧
  (s.curCmd = encode .mgf ∨
    (s.curCmd = encode .sign ∧ s.work.mgfLen = p.dbSize ∧ s.work.hb.length = p.hLen ∧
      s.work.db.length = p.dbSize) ∨
    (s.curCmd = encode .verify ∧ s.work.mgfLen = p.dbSize ∧ s.work.hb.length = p.hLen ∧
      s.work.mdb.length = p.dbSize))

/-- What the transients hold in each phase: the phase belongs to the current command, every buffer a later phase of the
command reads has been written with its size (rules R31 to R33), and the running power and the accumulated digests are
what their loops have computed so far (rules R144, R163, R166). -/
def live (p : Params) (s : State) : Prop :=
  match s.phase with
  | .idle => s.work = Work.cleared
  | .r0Import => kernelCommand s ∧ (s.curCmd = encode .sign → s.work.em.length = p.kLen)
  | .r1Range => kernelOperands p s
  | .r2Exp => kernelOperands p s ∧ s.work.rsaM < s.work.rsaN ∧ s.work.rsaI ≤ p.K ∧
      s.work.rsaR = s.work.rsaM ^ (s.work.rsaK / 2 ^ s.work.rsaI) % s.work.rsaN
  | .r3Export => kernelOperands p s ∧ s.work.rsaM < s.work.rsaN ∧
      s.work.rsaR = s.work.rsaM ^ s.work.rsaK % s.work.rsaN
  | .m0Bound => mgfEntered p s
  | .m1Loop => mgfEntered p s ∧ s.work.mgfLen ≤ p.maskBound ∧ s.work.mgfCtr ≤ 2 ^ 32 ∧
      s.work.mgfAcc = mgfBlocks p s.work.mgfSeed s.work.mgfCtr
  | .m2Trunc => mgfEntered p s ∧ s.work.mgfLen ≤ s.work.mgfAcc.length ∧
      s.work.mgfAcc = mgfBlocks p s.work.mgfSeed s.work.mgfCtr
  | .s1Len => s.curCmd = encode .sign
  | .s2Mhash => s.curCmd = encode .sign ∧ s.msg.length ≤ p.hashMaxLen
  | .s3Salt => s.curCmd = encode .sign ∧ s.work.mhash.length = p.hLen
  | .s4H => s.curCmd = encode .sign ∧ s.work.mhash.length = p.hLen ∧ s.work.salt.length = p.hLen
  | .s5Db => s.curCmd = encode .sign ∧ s.work.salt.length = p.hLen ∧ s.work.hb.length = p.hLen
  | .s6Mask => s.curCmd = encode .sign ∧ s.work.hb.length = p.hLen ∧ s.work.db.length = p.dbSize
  | .s6Xor => s.curCmd = encode .sign ∧ s.work.hb.length = p.hLen ∧ s.work.db.length = p.dbSize ∧
      s.work.dbmask.length = p.dbSize
  | .s7Size => s.curCmd = encode .sign ∧ s.work.hb.length = p.hLen ∧ s.work.mdb.length = p.dbSize
  | .s8Em => s.curCmd = encode .sign ∧ s.work.hb.length = p.hLen ∧ s.work.mdb.length = p.dbSize
  | .s9Topbit => s.curCmd = encode .sign ∧ s.work.em.length = p.kLen
  | .s10Rsa => s.curCmd = encode .sign ∧ s.work.em.length = p.kLen
  | .v1Rsa => s.curCmd = encode .verify
  | .v2Trailer => s.curCmd = encode .verify ∧ s.work.em.length = p.kLen
  | .v3Leadbit => s.curCmd = encode .verify ∧ s.work.em.length = p.kLen
  | .v4Split => s.curCmd = encode .verify ∧ s.work.em.length = p.kLen
  | .v5Mask => s.curCmd = encode .verify ∧ s.work.hb.length = p.hLen ∧ s.work.mdb.length = p.dbSize
  | .v5Xor => s.curCmd = encode .verify ∧ s.work.hb.length = p.hLen ∧ s.work.mdb.length = p.dbSize ∧
      s.work.dbmask.length = p.dbSize
  | .v6Pad => s.curCmd = encode .verify ∧ s.work.hb.length = p.hLen ∧ s.work.db.length = p.dbSize
  | .v7Salt => s.curCmd = encode .verify ∧ s.work.hb.length = p.hLen ∧ s.work.db.length = p.dbSize
  | .v8Len => s.curCmd = encode .verify ∧ s.work.hb.length = p.hLen ∧ s.work.salt.length = p.hLen
  | .v8Mhash => s.curCmd = encode .verify ∧ s.work.hb.length = p.hLen ∧ s.work.salt.length = p.hLen ∧
      s.msg.length ≤ p.hashMaxLen
  | .v8H2 => s.curCmd = encode .verify ∧ s.work.hb.length = p.hLen ∧ s.work.salt.length = p.hLen ∧
      s.work.mhash.length = p.hLen
  | .v9Cmp => s.curCmd = encode .verify ∧ s.work.hb.length = p.hLen ∧ s.work.h2.length = p.hLen
  | .v10Accept => s.curCmd = encode .verify

/-- The invariant of every run: what rules out the states no run reaches. -/
structure Inv (p : Params) (s : State) : Prop where
  /-- The operand registers are in canonical form. -/
  memWf : Memory.wf s.mem = true
  /-- They list nothing outside the three registers (rule R61). -/
  memIn : ∀ c ∈ s.mem, inWindow p c.1
  /-- `MSG_LEN` fits its 64 bits (rule R24). -/
  msgFits : s.msg.length ≤ 2 ^ 64 - 1
  /-- `OUT_LEN` fits its 64 bits (rule R26). -/
  outFits : s.out.length ≤ 2 ^ 64 - 1
  /-- `BUSY = 1` implies `DONE = 0`, `ERR = 0` (rule R28) and `OUT` empty (rule R26). -/
  busyFlags : s.busy = true → s.done = false ∧ s.err = false ∧ s.out = []
  /-- `ERR = 1` implies `DONE = 1` (rule R28). -/
  errDone : s.err = true → s.done = true
  /-- `ERR = 1` if and only if `ECAUSE` is not 0 (rule R28). -/
  errCause : s.err = true ↔ s.ecause ≠ 0x00#8
  /-- `ECAUSE` holds a code that can be produced (rule R104). -/
  cause : causeLegal s.ecause
  /-- The block is busy exactly while a phase is being executed (rule R31). -/
  busyPhase : s.busy = true ↔ s.phase ≠ .idle
  /-- The call in flight is the one the phase being executed makes, it is the last of the trace, and it is in the port's
  domain (rules R34, R72). -/
  pending : ∀ c, s.pend = some c → callOf p s = some c ∧ s.trace.getLast? = some c ∧ c.inDomain p
  /-- The transients (rules R31 to R33). -/
  transients : live p s

end Sys2Proof.Machine
end

