-- ==== Sys2Proof/WellFormed.lean ====
section
/-! DEFINITION. What a well-formed command is, and which instances are built at all (rule R7). -/

namespace Sys2Proof

/-- A command has no operand field, immediate or modifier, so every constructor is well formed (rule R100). -/
def Instr.wellFormed : Instr → Bool
  | .clear => true
  | .rsa => true
  | .mgf => true
  | .sign => true
  | .verify => true

/-- An instance that satisfies the construction-time constraints (rule R7). -/
structure Instance where
  /-- Its parameters. -/
  params : Params
  /-- They pass every check of rule R7. -/
  built : params.constructible = true

/-- Building an instance: refused unless every check of rule R7 passes. -/
def Instance.build (p : Params) : Option Instance :=
  if h : p.constructible = true then some ⟨p, h⟩ else none

end Sys2Proof
end

