-- ==== Sys2Proof/Certificates/Slice0/Obligations.lean ====
section
/-! DEFINITION. The statements for the provers, made from the spec's numbered rules. `P` in the comments is
`Config.params`, the instance nobody chose: a statement about it holds for every instance rule R7 admits, every hash
function and every answer of the random port. -/

open Sys2Proof Sys2Proof.Machine

/-! ### Encoding and the step -/

/-- The five opcodes of rule R101, bit by bit, and two bytes that name no command. -/
def Obligations.OpcodeWordsDecode : Prop :=
  decodeTableWord 8 0b00000000 = some .clear ∧ decodeTableWord 8 0b00000001 = some .rsa ∧
  decodeTableWord 8 0b00000010 = some .mgf ∧ decodeTableWord 8 0b00000011 = some .sign ∧
  decodeTableWord 8 0b00000100 = some .verify ∧ decodeTableWord 8 0b00000101 = none ∧
  decodeTableWord 8 0b11111111 = none

/-- Decode and encode agree, both ways: every byte is a command's encoding or is rejected by name (rules R101, R102). -/
def Obligations.DecodeInvertsEncode : Prop :=
  (∀ i : Instr, i.wellFormed = true → decode (encode i) = .ok i) ∧
  (∀ op i, decode op = .ok i → encode i = op) ∧
  (∀ op : Byte, 5 ≤ op.toNat → decode op = .error (.illegalCommand op))

/-- When the byte the host writes to `CMD` decodes to a command, the step is that command's meaning on the state with the
write taken from the schedule, and nothing else. The clause on `withFetchWord`, which places exactly that write, is the
model's choice: the spec has no fetch (assumption 6, DESIGN CHOICE). -/
def Obligations.StepRunsDecodedCommand : Prop :=
  (∀ (s : State) (op : Byte) (rest : List Event) (i : Instr),
    s.agenda = .hostWrite 0x0000#14 op :: rest → decode op = .ok i → i.wellFormed = true →
      step s = exec i { s with agenda := rest }) ∧
  (∀ (s : State) (w : Nat) (i : Instr), decodeTableWord 8 w = some i → step (s.withFetchWord 8 w) = exec i s)

/-- Every command and every step answers a next state, whatever the registers hold: commands by rule R274 ("Every command
is nevertheless total"), host reads and writes by rules R62, R65, R66, reset by R270, late answers by R271. Where rules
R259 and R34 say there is no step, for an idle block and for a sequencer during a call, that the unchanged state is
answered is the model's choice (assumption 13, DESIGN CHOICE; the move due with nothing scheduled is assumption 2, DESIGN
CHOICE). -/
def Obligations.StepNeverStops : Prop :=
  (∀ (i : Instr) (s : State), ∃ t, exec i s = .next t) ∧ (∀ s : State, ∃ t, step s = .next t)

/-- The opcode map of rule R101: what is done for every value written, and what each opcode starts. While busy the write
is ignored. A start is visible at the small-step level of rule R15 only; which level runs, and the schedule the write is
taken from, are the model's own fields (assumptions 2, 4, DESIGN CHOICE). -/
def Obligations.OpcodeMapStarts : Prop :=
  ∀ (s : State) (op : Byte) (rest : List Event), s.agenda = .hostWrite 0x0000#14 op :: rest →
    (s.busy = true → step s = .next { s with agenda := rest }) ∧
    (s.busy = false →
      let s0 : State := { s with agenda := rest, curCmd := op, out := [], ecause := 0x00#8,
                                 busy := false, done := false, err := false }
      (op = 0x00#8 → step s = .next s0) ∧
      (5 ≤ op.toNat → step s = .next { s0 with ecause := 0x0F#8, done := true, err := true }) ∧
      (s.level = .smallStep →
        (op = 0x01#8 → step s = .next { s0 with busy := true, phase := .r0Import }) ∧
        (op = 0x02#8 → step s = .next
          (if s.msg.length + 4 > Config.params.hashMaxLen then
            { s0 with ecause := 0x02#8, done := true, err := true, phase := .idle, work := Work.cleared, pend := none }
          else { s0 with busy := true, phase := .m0Bound,
                         work := { s.work with mgfSeed := s.msg, mgfLen := s.maskLen.toNat } })) ∧
        (op = 0x03#8 → step s = .next { s0 with busy := true, phase := .s1Len }) ∧
        (op = 0x04#8 → step s = .next { s0 with busy := true, phase := .v1Rsa })))

/-- Every byte from 0x05 to 0xFF, written to `CMD` while idle, ends at once with IllegalCommand and changes nothing else
(rules R102, R249). -/
def Obligations.IllegalByteEndsAtOnce : Prop :=
  ∀ (s : State) (op : Byte) (rest : List Event),
    s.agenda = .hostWrite 0x0000#14 op :: rest → s.busy = false → 5 ≤ op.toNat →
      step s = .next { s with agenda := rest, curCmd := op, out := [], ecause := 0x0F#8,
                              busy := false, done := true, err := true }

/-- An idle block, and a sequencer step scheduled while a call is in flight, leave the state as it is: rules R259 and R34
say that there is no step there, and that the model's step answers the unchanged state is its choice (assumption 13,
DESIGN CHOICE; the schedule is assumption 2, DESIGN CHOICE). An answer when no call is in flight is discarded (rule
R271). The answer to the call in flight sets `PEND` to none and makes no new call (rule R34); that it is that call's own
answer, never a late one, is assumption 18 (DESIGN CHOICE). -/
def Obligations.MovesThatDoNothing : Prop :=
  (∀ s : State, s.agenda = [] → s.pend = none → s.phase = .idle → step s = .next s) ∧
  (∀ (s : State) (rest : List Event) (c : PortCall), s.agenda = .sequencer :: rest → s.pend = some c →
    step s = .next { s with agenda := rest }) ∧
  (∀ (s : State) (rest : List Event), s.agenda = .answer :: rest → s.pend = none →
    step s = .next { s with agenda := rest }) ∧
  (∀ (s : State) (rest : List Event) (c : PortCall), s.agenda = .answer :: rest → s.pend = some c →
    ∃ t, step s = .next t ∧ t.pend = none ∧ t.trace = s.trace ∧ t.agenda = rest)

/-! ### The host bus -/

/-- The busy gate (rule R67): while busy every host write, to any address, changes nothing; the inputs and the latched
command do not change while busy; only reset ends a command without its own `DONE`. -/
def Obligations.BusyGateDropsEveryWrite : Prop :=
  (∀ (s : State) (a : Addr) (v : Byte) (rest : List Event),
    s.busy = true → s.agenda = .hostWrite a v :: rest → step s = .next { s with agenda := rest }) ∧
  (∀ s t : State, s.busy = true → step s = .next t → (∀ rest, s.agenda ≠ .reset :: rest) →
    t.mem = s.mem ∧ t.msg = s.msg ∧ t.maskLen = s.maskLen ∧ t.curCmd = s.curCmd ∧
      (t.busy = true ∨ t.done = true))

/-- Reserved addresses, the read side of write-only registers and the write side of read-only registers: a read returns
0x00, a write is ignored, neither has any other effect (rule R66). -/
def Obligations.ReservedAddressesInert : Prop :=
  let P := Config.params
  let reserved : Addr → Prop := fun a =>
    (0x0023 ≤ a.toNat ∧ a.toNat ≤ 0x0FFF) ∨ (0x1000 + P.kLen ≤ a.toNat ∧ a.toNat ≤ 0x1FFF) ∨
      (0x2000 + P.kLen ≤ a.toNat ∧ a.toNat ≤ 0x2FFF) ∨ 0x3000 + P.kLen ≤ a.toNat
  (∀ (s : State) (a : Addr) (rest : List Event), s.agenda = .hostRead a :: rest →
    (reserved a ∨ a = 0x0003#14 ∨ a = 0x0020#14) →
      step s = .next { s with agenda := rest, reads := s.reads ++ [(a, 0x00#8)] }) ∧
  (∀ (s : State) (a : Addr) (v : Byte) (rest : List Event), s.agenda = .hostWrite a v :: rest →
    (reserved a ∨ a = 0x0001#14 ∨ a = 0x0002#14 ∨ (0x0004 ≤ a.toNat ∧ a.toNat ≤ 0x000F) ∨
      (0x0018 ≤ a.toNat ∧ a.toNat ≤ 0x001F) ∨ a = 0x0021#14 ∨ a = 0x0022#14) →
      step s = .next { s with agenda := rest })

/-- Read effects (rule R64): a read of `OUT_POP` returns and removes the first byte of `OUT`, or returns 0x00; every
other read returns the current value and changes nothing; while busy `OUT_LEN` and `OUT_POP` read 0. The reads of
reserved and write-only addresses are in `ReservedAddressesInert`, and stated here again. -/
def Obligations.ReadsReturnCurrentValues : Prop :=
  let P := Config.params
  let reads : State → Addr → Byte → Prop := fun s a b =>
    ∀ rest, s.agenda = .hostRead a :: rest → step s = .next { s with agenda := rest, reads := s.reads ++ [(a, b)] }
  (∀ (s : State) (rest : List Event), s.agenda = .hostRead 0x0021#14 :: rest →
    step s = .next { s with agenda := rest, reads := s.reads ++ [(0x0021#14, s.out.headD 0x00#8)], out := s.out.tail }) ∧
  (∀ s : State,
    reads s 0x0000#14 s.curCmd ∧ reads s 0x0001#14 (statusByte s) ∧ reads s 0x0002#14 (errcode P s) ∧
    reads s 0x0003#14 0x00#8 ∧ reads s 0x0020#14 0x00#8 ∧
    reads s 0x0022#14 (if P.diagEn then 0x01#8 else 0x00#8) ∧
    (∀ i < 2, reads s (BitVec.ofNat 14 (0x0004 + i)) ((beBytes P.kLen 2).getD i 0x00#8)) ∧
    (∀ i < 2, reads s (BitVec.ofNat 14 (0x0006 + i)) ((beBytes P.hLen 2).getD i 0x00#8)) ∧
    (∀ i < 8, reads s (BitVec.ofNat 14 (0x0008 + i)) ((beBytes s.msg.length 8).getD i 0x00#8)) ∧
    (∀ i < 8, reads s (BitVec.ofNat 14 (0x0010 + i)) ((beBytes s.maskLen.toNat 8).getD i 0x00#8)) ∧
    (∀ i < 8, reads s (BitVec.ofNat 14 (0x0018 + i)) ((beBytes s.out.length 8).getD i 0x00#8)) ∧
    (∀ i < P.kLen, reads s (BitVec.ofNat 14 (0x1000 + i)) ((opm P s).getD i 0x00#8)) ∧
    (∀ i < P.kLen, reads s (BitVec.ofNat 14 (0x2000 + i)) ((opk P s).getD i 0x00#8)) ∧
    (∀ i < P.kLen, reads s (BitVec.ofNat 14 (0x3000 + i)) ((opn P s).getD i 0x00#8)) ∧
    (∀ a : Addr, 0x0023 ≤ a.toNat → a.toNat ≤ 0x0FFF → reads s a 0x00#8) ∧
    (∀ a : Addr, (0x1000 + P.kLen ≤ a.toNat ∧ a.toNat ≤ 0x1FFF) ∨ (0x2000 + P.kLen ≤ a.toNat ∧ a.toNat ≤ 0x2FFF) ∨
      0x3000 + P.kLen ≤ a.toNat → reads s a 0x00#8)) ∧
  (∀ s : State, Inv P s → s.busy = true →
    reads s 0x0021#14 0x00#8 ∧ ∀ i < 8, reads s (BitVec.ofNat 14 (0x0018 + i)) 0x00#8)

/-- As many pops as `OUT` has bytes deliver it whole, first byte first, and leave it empty (rules R26, R113). -/
def Obligations.PopsDeliverOutInOrder : Prop :=
  ∀ (s : State) (rest : List Event), s.agenda = popn s.out.length ++ rest →
    Sys2Proof.core.run s.out.length s =
      .next { s with agenda := rest, out := [], reads := s.reads ++ s.out.map fun b => (0x0021#14, b) }

/-- A write while idle to byte `i` of `MASK_LEN` replaces byte `i` of its eight big-endian bytes and nothing else (rule
R63). -/
def Obligations.MaskLenByteWrites : Prop :=
  ∀ (s : State) (i : Nat) (v : Byte) (rest : List Event), i < 8 → s.busy = false →
    s.agenda = .hostWrite (BitVec.ofNat 14 (0x0010 + i)) v :: rest →
      ∃ t, step s = .next t ∧ beBytes t.maskLen.toNat 8 = (beBytes s.maskLen.toNat 8).set i v ∧
        t = { s with agenda := rest, maskLen := t.maskLen }

/-- A write while idle to byte `i` of an operand register sets that byte, keeps the canonical form, and leaves every
other byte of every operand register and all other state as it was (rules R21 to R23, R65). -/
def Obligations.OperandByteWrites : Prop :=
  let P := Config.params
  ∀ (s : State) (i : Nat) (v : Byte) (rest : List Event), Memory.wf s.mem = true → i < P.kLen → s.busy = false →
    (∀ base, base = opmBase ∨ base = opkBase ∨ base = opnBase →
      s.agenda = .hostWrite (BitVec.ofNat 14 (base + i)) v :: rest →
        ∃ t, step s = .next t ∧ Memory.wf t.mem = true ∧
          (∀ a, memRead t.mem a = if a = base + i then v else memRead s.mem a) ∧
          opm P t = (if base = opmBase then (opm P s).set i v else opm P s) ∧
          opk P t = (if base = opkBase then (opk P s).set i v else opk P s) ∧
          opn P t = (if base = opnBase then (opn P s).set i v else opn P s) ∧
          t = { s with agenda := rest, mem := t.mem })

/-- The message buffer while idle: a push appends its byte unless the buffer is full, a write of any value to `MSG_CLR`
empties it; nothing else changes (rule R24). -/
def Obligations.MessagePushAndClear : Prop :=
  ∀ (s : State) (v : Byte) (rest : List Event), s.busy = false →
    (s.agenda = .hostWrite 0x0020#14 v :: rest → s.msg.length < 2 ^ 64 - 1 →
      step s = .next { s with agenda := rest, msg := s.msg ++ [v] }) ∧
    (s.agenda = .hostWrite 0x0020#14 v :: rest → s.msg.length = 2 ^ 64 - 1 → step s = .next { s with agenda := rest }) ∧
    (s.agenda = .hostWrite 0x0003#14 v :: rest → step s = .next { s with agenda := rest, msg := [] })

/-- The load pseudo-instructions of rule R113, run to their end on an idle block: `ldop` puts its bytes into the
register and touches no byte of another, `ldmsg` replaces the message, `ldlen` sets `MASK_LEN`. -/
def Obligations.LoadsReachTheirRegisters : Prop :=
  let P := Config.params
  ∀ (s : State) (rest : List Event), s.busy = false →
    (∀ (base : Nat) (x : Bytes), Memory.wf s.mem = true → x.length = P.kLen →
      (base = opmBase ∨ base = opkBase ∨ base = opnBase) → s.agenda = ldop base x ++ rest →
        ∃ t, Sys2Proof.core.run P.kLen s = .next t ∧ window P t.mem base = x ∧
          (∀ a, ¬ (base ≤ a ∧ a < base + P.kLen) → memRead t.mem a = memRead s.mem a) ∧
          t = { s with agenda := rest, mem := t.mem }) ∧
    (∀ x : Bytes, x.length ≤ 2 ^ 64 - 1 → s.agenda = ldmsg x ++ rest →
      Sys2Proof.core.run (x.length + 1) s = .next { s with agenda := rest, msg := x }) ∧
    (∀ v : Nat, v < 2 ^ 64 → s.agenda = ldlen v ++ rest →
      Sys2Proof.core.run 8 s = .next { s with agenda := rest, maskLen := BitVec.ofNat 64 v })

/-- `STATUS` bit by bit, and the only four values it reads (rule R103). -/
def Obligations.StatusReadsFourValues : Prop :=
  (∀ s : State, (statusByte s).getLsbD 0 = s.busy ∧ (statusByte s).getLsbD 1 = s.done ∧
    (statusByte s).getLsbD 2 = s.err ∧ ∀ i, 3 ≤ i → (statusByte s).getLsbD i = false) ∧
  (∀ s : State, Inv Config.params s →
    (s.busy = false ∧ s.done = false ∧ s.err = false ∧ statusByte s = 0x00#8) ∨
    (s.busy = true ∧ s.done = false ∧ s.err = false ∧ statusByte s = 0x01#8) ∨
    (s.busy = false ∧ s.done = true ∧ s.err = false ∧ statusByte s = 0x02#8) ∨
    (s.busy = false ∧ s.done = true ∧ s.err = true ∧ statusByte s = 0x06#8))

/-- With `DIAG_EN = 0` every rejecting VERIFY reads the one code 0x10, with `DIAG_EN = 1` its own code, an accepting one
0x00; after RSA, MGF, SIGN and an illegal byte `ERRCODE` is `ECAUSE` under either setting (rules R29, R254). For every
instance, and at the big-step level; it quantifies over every parameter set, and on one rule R7 refuses it speaks of the
model's choice alone (assumption 19, DESIGN CHOICE). -/
def Obligations.RejectionCauseIsHidden : Prop :=
  ∀ (p : Params) (s : State), s.busy = false → s.level = .bigStep →
    (∀ k, verify p s.msg (opk p s) (opn p s) (opm p s) = .error k →
      statusByte (verifyCommand p s) = 0x06#8 ∧
      (p.diagEn = false → errcode p (verifyCommand p s) = 0x10#8) ∧
      (p.diagEn = true → errcode p (verifyCommand p s) = errorCode k)) ∧
    (verify p s.msg (opk p s) (opn p s) (opm p s) = .ok () →
      statusByte (verifyCommand p s) = 0x02#8 ∧ errcode p (verifyCommand p s) = 0x00#8) ∧
    errcode p (rsaCommand p s) = (rsaCommand p s).ecause ∧
    errcode p (mgfCommand p s) = (mgfCommand p s).ecause ∧
    errcode p (signCommand p s) = (signCommand p s).ecause ∧
    (∀ op : Byte, 5 ≤ op.toNat → errcode p (illegalCommand op s) = 0x0F#8)

/-- What the host can read, and the two wires, do not depend on the transients, the phase or the call in flight (rules
R14, R32). -/
def Obligations.ReadsIgnoreTransients : Prop :=
  ∀ (s : State) (w : Work) (ph : Phase) (c : Option PortCall) (a : Addr),
    (hostRead Config.params a { s with work := w, phase := ph, pend := c }).reads =
      (hostRead Config.params a s).reads ∧
    busyWire { s with work := w, phase := ph, pend := c } = busyWire s ∧
    doneWire { s with work := w, phase := ph, pend := c } = doneWire s

/-! ### CLEAR -/

/-- CLEAR while idle, at either level: `STATUS`, `ECAUSE` and `CUR_CMD` zero, `OUT` empty, nothing else changed (rule
R101). -/
def Obligations.ClearDropsTheResult : Prop :=
  ∀ s : State, s.busy = false →
    ∃ t, exec .clear s = .next t ∧ statusByte t = 0x00#8 ∧ errcode Config.params t = 0x00#8 ∧ t.out = [] ∧
      t.curCmd = 0x00#8 ∧ InputsKept s t ∧ ScheduleKept s t ∧ t.trace = s.trace ∧ t.phase = s.phase ∧
      t.work = s.work ∧ t.pend = s.pend

/-! ### The RSA core cipher -/

/-- The value of modular exponentiation (rule R143): the natural `M^E` reduced mod `N`, below `N`; `N = 0` never reaches
it. -/
def Obligations.ModexpIsPowerModN : Prop :=
  (∀ (p : Params) (M E N : Nat), M < N → E < 2 ^ p.K → modexp p M E N = M ^ E % N ∧ modexp p M E N < N) ∧
  (∀ (p : Params) (m k n : Bytes), beInt n = 0 → rsaTransform p m k n = .error .messageOutOfRange)

/-- Square and multiply (rule R144): `K` rounds from `1 mod N`, whatever the exponent; a round for bit `i` keeps the
invariant `R = M^(E div 2^i) mod N`; from it the remaining rounds reach the whole power; every intermediate value is
below `N`; so the loop computes the value of rule R143. -/
def Obligations.SquareMultiplyReachesPower : Prop :=
  (∀ (p : Params) (M E N : Nat), modexp p M E N = expLoop M E N p.K (1 % N)) ∧
  (∀ (M E N i R : Nat), expLoop M E N (i + 1) R = expLoop M E N i (expRound M E N i R)) ∧
  (∀ (M E N i R : Nat), expRound M E N i R = if E.testBit i then R * R % N * M % N else R * R % N) ∧
  (∀ (M E N i R : Nat), R = M ^ (E / 2 ^ (i + 1)) % N → expRound M E N i R = M ^ (E / 2 ^ i) % N) ∧
  (∀ (M E N i R : Nat), R = M ^ (E / 2 ^ i) % N → expLoop M E N i R = M ^ E % N) ∧
  (∀ (M E N i R : Nat), 1 ≤ N → expRound M E N i R < N) ∧
  (∀ (p : Params) (M E N : Nat), 1 ≤ N → E < 2 ^ p.K → modexp p M E N = M ^ E % N)

/-- Octet strings and integers (rule R105): the weighted sum, every content a distinct integer below `2^K`, import and
export each undoing the other, and a result of the kernel always exporting. -/
def Obligations.OctetStringsRoundTrip : Prop :=
  (∀ x : Bytes, beInt x = ((List.range x.length).map fun i => (x.getD i 0x00#8).toNat * 256 ^ (x.length - 1 - i)).sum) ∧
  (∀ p : Params, p.constructible = true → ∀ x y : Bytes, x.length = p.kLen → y.length = p.kLen →
    beInt x < 2 ^ p.K ∧ (beInt x = beInt y → x = y) ∧ beBytes (beInt x) p.kLen = x) ∧
  (∀ p : Params, p.constructible = true → ∀ v, v < 2 ^ p.K → (beBytes v p.kLen).length = p.kLen ∧
    beInt (beBytes v p.kLen) = v) ∧
  (∀ p : Params, p.constructible = true → ∀ m k n : Bytes, m.length = p.kLen → k.length = p.kLen → n.length = p.kLen →
    ∀ r, rsaTransform p m k n = .ok r → r.length = p.kLen ∧ beInt r < beInt n)

/-- Command RSA (rule R140): its start, at the small-step level; and at the big-step level its end, MessageOutOfRange
exactly when `be_int(OPM) >= be_int(OPN)`, else the power, exported; the operands, the port trace and everything else
are unchanged. -/
def Obligations.RsaEnds : Prop :=
  let P := Config.params
  encode .rsa = 0x01#8 ∧
  (∀ s : State, s.busy = false → s.level = .smallStep →
    exec .rsa s = .next { s with curCmd := 0x01#8, out := [], ecause := 0x00#8, busy := true, done := false,
                                 err := false, phase := .r0Import }) ∧
  ∀ s : State, s.busy = false → s.level = .bigStep →
    ∃ t, exec .rsa s = .next t ∧ InputsKept s t ∧ ScheduleKept s t ∧ t.trace = s.trace ∧
      (if beInt (opn P s) ≤ beInt (opm P s) then EndedErr 0x01#8 0x01#8 t
       else EndedOk 0x01#8 (beBytes (beInt (opm P s) ^ beInt (opk P s) % beInt (opn P s)) P.kLen) t)

/-- The corner cases of `rsa_transform` (rule R147), on every instance: the table's rows, and its last one: no register
is both source and destination. -/
def Obligations.RsaCornerCases : Prop :=
  (∀ p : Params, p.constructible = true → ∀ m k n : Bytes, m.length = p.kLen → k.length = p.kLen → n.length = p.kLen →
    let ok : Nat → Prop := fun v => rsaTransform p m k n = .ok (beBytes v p.kLen)
    let err : Prop := rsaTransform p m k n = .error .messageOutOfRange
    (beInt n = 0 → err) ∧
    (beInt n = 1 → beInt m = 0 → ok 0) ∧
    (beInt n = 1 → 1 ≤ beInt m → err) ∧
    (beInt m = beInt n → err) ∧
    (2 ≤ beInt n → beInt m = beInt n - 1 → ok (if beInt k % 2 = 1 then beInt n - 1 else 1)) ∧
    (beInt n < beInt m → err) ∧
    (beInt k = 0 → 2 ≤ beInt n → beInt m < beInt n → ok 1) ∧
    (beInt k = 1 → beInt m < beInt n → ok (beInt m)) ∧
    (beInt m = 0 → 1 ≤ beInt k → 1 ≤ beInt n → ok 0) ∧
    (beInt m = 1 → 2 ≤ beInt n → ok 1) ∧
    (beInt m < beInt n → beInt n ≤ beInt k ∨ beInt k = 2 ^ p.K - 1 → ok (beInt m ^ beInt k % beInt n)) ∧
    (beInt m < beInt n → ok (beInt m ^ beInt k % beInt n)) ∧
    (m = n → k = n → err)) ∧
  (∀ s t : State, exec .rsa s = .next t → t.mem = s.mem)

/-- The domain check and what a valid key gives the kernel (rule R151): for every modulus `m >= n` fails and
`m = n - 1` succeeds; under a valid key a block with its top bit clear passes the range check (rule R139), and the
kernel with one exponent undoes the kernel with the other. -/
def Obligations.KernelInvertsUnderValidKey : Prop :=
  (∀ (p : Params) (m k n : Bytes),
    (beInt n ≤ beInt m → rsaTransform p m k n = .error .messageOutOfRange) ∧
    (m = n → rsaTransform p m k n = .error .messageOutOfRange) ∧
    (beInt m + 1 = beInt n → ∃ y, rsaTransform p m k n = .ok y)) ∧
  (∀ (p : Params) (e d n x : Bytes), p.constructible = true → ValidKey p e d n → x.length = p.kLen →
    (beInt x < 2 ^ (p.K - 1) → beInt x < beInt n) ∧
    (beInt x < beInt n →
      (∃ y, rsaTransform p x d n = .ok y ∧ rsaTransform p y e n = .ok x) ∧
      (∃ y, rsaTransform p x e n = .ok y ∧ rsaTransform p y d n = .ok x)))

/-- The kernel's phases, row by row (rule R150): what the sequencer's step does in each, whatever the state. In states no
run reaches it says the model's choice: the remainder by `RSA_N = 0` in `R2_EXP`, the bytes of an `RSA_R` not below `2^K`
in `R3_EXPORT` (assumption 9, DESIGN CHOICE). -/
def Obligations.KernelPhases : Prop :=
  let P := Config.params
  ∀ (s : State) (rest : List Event), s.agenda = .sequencer :: rest → s.pend = none →
    let u : State := { s with agenda := rest }
    let res := beBytes s.work.rsaR P.kLen
    let ended : State := { u with busy := false, done := true, work := Work.cleared, phase := .idle, pend := none }
    (s.phase = .r0Import →
      (s.curCmd = 0x01#8 ∨ s.curCmd = 0x04#8 → step s = .next { u with phase := .r1Range, work := { s.work with
        rsaM := beInt (opm P s), rsaK := beInt (opk P s), rsaN := beInt (opn P s) } }) ∧
      (s.curCmd = 0x03#8 → step s = .next { u with phase := .r1Range, work := { s.work with
        rsaM := beInt s.work.em, rsaK := beInt (opk P s), rsaN := beInt (opn P s) } })) ∧
    (s.phase = .r1Range →
      (s.work.rsaN ≤ s.work.rsaM → step s = .next { ended with out := [], ecause := 0x01#8, err := true }) ∧
      (s.work.rsaM < s.work.rsaN → step s = .next { u with phase := .r2Exp, work := { s.work with
        rsaR := 1 % s.work.rsaN, rsaI := P.K } })) ∧
    (s.phase = .r2Exp →
      (s.work.rsaI = 0 → step s = .next { u with phase := .r3Export }) ∧
      (∀ i, s.work.rsaI = i + 1 → step s = .next { u with work := { s.work with
        rsaI := i
        rsaR := if s.work.rsaK.testBit i then s.work.rsaR ^ 2 % s.work.rsaN * s.work.rsaM % s.work.rsaN
          else s.work.rsaR ^ 2 % s.work.rsaN } })) ∧
    (s.phase = .r3Export →
      (s.curCmd = 0x01#8 ∨ s.curCmd = 0x03#8 →
        step s = .next { ended with out := res, ecause := 0x00#8, err := false }) ∧
      (s.curCmd = 0x04#8 →
        step s = .next { u with phase := .v2Trailer, work := { s.work with res := res, em := res } }))

/-- The number of phase steps of an RSA that passes its range check: `K + 4`, whatever the operands (rule R286). With
nothing scheduled each step is the due move of assumption 2 (DESIGN CHOICE), here the sequencer's. -/
def Obligations.RsaTakesKPlusFourPhases : Prop :=
  let P := Config.params
  ∀ s : State, s.busy = false → s.level = .smallStep → s.pend = none → s.agenda = [] →
    beInt (opm P s) < beInt (opn P s) →
      ∃ a t, exec .rsa s = .next a ∧ Sys2Proof.core.run (P.K + 4) a = .next t ∧ t.busy = false ∧ t.done = true ∧
        ∀ j < P.K + 4, ∃ u, Sys2Proof.core.run j a = .next u ∧ u.busy = true

/-! ### The mask generation function -/

/-- The counter's four bytes (rule R106). -/
def Obligations.CounterBytes : Prop :=
  (∀ c, c ≤ 2 ^ 32 - 1 → be32 c = [BitVec.ofNat 8 (c / 2 ^ 24), BitVec.ofNat 8 (c / 2 ^ 16 % 256),
    BitVec.ofNat 8 (c / 2 ^ 8 % 256), BitVec.ofNat 8 (c % 256)]) ∧
  be32 0 = [0x00#8, 0x00#8, 0x00#8, 0x00#8] ∧ be32 1 = [0x00#8, 0x00#8, 0x00#8, 0x01#8] ∧
  be32 258 = [0x00#8, 0x00#8, 0x01#8, 0x02#8] ∧ be32 (2 ^ 32 - 1) = [0xff#8, 0xff#8, 0xff#8, 0xff#8]

/-- Command MGF at the big-step level (rules R160, R169): the seed guard first, then the bound, else the first `MASK_LEN`
bytes of the concatenated digests, with exactly the port trace of rule R169. -/
def Obligations.MgfEnds : Prop :=
  let P := Config.params
  encode .mgf = 0x02#8 ∧
  ∀ s : State, s.busy = false → s.level = .bigStep →
    let L := s.maskLen.toNat
    let q := (L + P.hLen - 1) / P.hLen
    let T := ((List.range q).flatMap fun c => P.hash (s.msg ++ be32 c)).take L
    ∃ t, exec .mgf s = .next t ∧ InputsKept s t ∧ ScheduleKept s t ∧
      (if s.msg.length + 4 > P.hashMaxLen then EndedErr 0x02#8 0x02#8 t ∧ t.trace = s.trace
       else if L > 2 ^ 32 * P.hLen then EndedErr 0x02#8 0x04#8 t ∧ t.trace = s.trace
       else EndedOk 0x02#8 T t ∧ T.length = L ∧
         t.trace = s.trace ++ (List.range q).map fun c => .hash (s.msg ++ be32 c))

/-- Determinism and the prefix property (rule R165): the mask depends on the seed, the length and the hash function
alone, and a longer mask of the same seed begins with the shorter one and is strictly longer. -/
def Obligations.MgfPrefixOfLonger : Prop :=
  (∀ (p p' : Params) (seed : Bytes) (L : Nat), p.hLen = p'.hLen → p.hash = p'.hash → mgf p seed L = mgf p' seed L) ∧
  (∀ (p : Params) (seed : Bytes) (L L' : Nat), p.constructible = true → L < L' → L' ≤ 2 ^ 32 * p.hLen →
    ∃ T T', mgf p seed L = .ok T ∧ mgf p seed L' = .ok T' ∧ T <+: T' ∧ T.length < T'.length)

/-- The corner cases of MGF1 (rule R167), on every instance: the result and the number of hash calls of each row, the
guard of the command, and that neither SIGN nor VERIFY can meet MaskTooLong. -/
def Obligations.MgfCornerCases : Prop :=
  (∀ (p : Params) (seed : Bytes) (L : Nat), p.constructible = true →
    (L = 0 → mgf p seed L = .ok [] ∧ mgfCalls p seed L = []) ∧
    (1 ≤ L → L < p.hLen → mgf p seed L = .ok ((p.hash (seed ++ be32 0)).take L) ∧
      mgfCalls p seed L = [.hash (seed ++ be32 0)]) ∧
    (L = p.hLen → mgf p seed L = .ok (p.hash (seed ++ be32 0)) ∧ mgfCalls p seed L = [.hash (seed ++ be32 0)]) ∧
    (L = p.hLen + 1 → mgf p seed L = .ok (p.hash (seed ++ be32 0) ++ (p.hash (seed ++ be32 1)).take 1) ∧
      mgfCalls p seed L = [.hash (seed ++ be32 0), .hash (seed ++ be32 1)]) ∧
    (L = 2 ^ 32 * p.hLen → (∃ T, mgf p seed L = .ok T) ∧
      mgfCalls p seed L = (List.range (2 ^ 32)).map fun c => .hash (seed ++ be32 c)) ∧
    (2 ^ 32 * p.hLen + 1 ≤ L → mgf p seed L = .error .maskTooLong ∧ mgfCalls p seed L = []) ∧
    (seed = [] → mgfCalls p seed L =
      if L > 2 ^ 32 * p.hLen then [] else (List.range ((L + p.hLen - 1) / p.hLen)).map fun c => .hash (be32 c)) ∧
    (∀ L' T T', L < L' → mgf p seed L = .ok T → mgf p seed L' = .ok T' → T <+: T') ∧
    2 ^ 32 * p.hLen + 1 ≤ 2 ^ 64 - 1 ∧ p.dbSize < p.kLen ∧ p.kLen ≤ 4096 ∧ p.dbSize ≤ 2 ^ 32 * p.hLen) ∧
  (∀ s : State, s.busy = false → s.level = .bigStep →
    (s.msg.length + 4 > Config.params.hashMaxLen →
      ∃ t, exec .mgf s = .next t ∧ EndedErr 0x02#8 0x02#8 t ∧ t.trace = s.trace) ∧
    (s.msg.length + 4 ≤ Config.params.hashMaxLen → s.maskLen = 0#64 →
      ∃ t, exec .mgf s = .next t ∧ statusByte t = 0x02#8 ∧ t.out.length = 0 ∧ t.trace = s.trace))

/-- The counter (rule R166): it never passes `be32` a value above `2^32 - 1`, as a function and in every phase of a run,
where it may reach `2^32` only when no call is left to make. -/
def Obligations.MgfCounterNeverWraps : Prop :=
  (∀ (p : Params) (seed : Bytes) (L : Nat), p.constructible = true → L ≤ 2 ^ 32 * p.hLen →
    (mgfCalls p seed L).length = (L + p.hLen - 1) / p.hLen ∧ (mgfCalls p seed L).length ≤ 2 ^ 32 ∧
    ∀ j < (mgfCalls p seed L).length, (mgfCalls p seed L)[j]? = some (.hash (seed ++ be32 j)) ∧ j ≤ 2 ^ 32 - 1) ∧
  (∀ s : State, Inv Config.params s → s.phase = .m1Loop →
    s.work.mgfCtr ≤ 2 ^ 32 ∧ (s.work.mgfAcc.length < s.work.mgfLen → s.work.mgfCtr ≤ 2 ^ 32 - 1))

/-- The phases of MGF1, row by row (rule R168), the hash call and its answer apart (rule R34); the answer is the call's own
(assumption 18, DESIGN CHOICE). The counter bytes above `2^32 - 1`, in states no run reaches, are the model's choice
(assumption 9, DESIGN CHOICE). -/
def Obligations.MgfPhases : Prop :=
  let P := Config.params
  (∀ (s : State) (rest : List Event), s.agenda = .sequencer :: rest → s.pend = none →
    let u : State := { s with agenda := rest }
    let t := s.work.mgfAcc.take s.work.mgfLen
    let call : PortCall := .hash (s.work.mgfSeed ++ be32 s.work.mgfCtr)
    let ended : State := { u with busy := false, done := true, work := Work.cleared, phase := .idle, pend := none }
    (s.phase = .m0Bound →
      (s.work.mgfLen > 2 ^ 32 * P.hLen → step s = .next { ended with out := [], ecause := 0x04#8, err := true }) ∧
      (s.work.mgfLen ≤ 2 ^ 32 * P.hLen →
        step s = .next { u with phase := .m1Loop, work := { s.work with mgfAcc := [], mgfCtr := 0 } })) ∧
    (s.phase = .m1Loop →
      (s.work.mgfLen ≤ s.work.mgfAcc.length → step s = .next { u with phase := .m2Trunc }) ∧
      (s.work.mgfAcc.length < s.work.mgfLen →
        step s = .next { u with pend := some call, trace := s.trace ++ [call] })) ∧
    (s.phase = .m2Trunc →
      (s.curCmd = 0x02#8 → step s = .next { ended with out := t, ecause := 0x00#8, err := false }) ∧
      (s.curCmd = 0x03#8 → step s = .next { u with phase := .s6Xor, work := { s.work with dbmask := t } }) ∧
      (s.curCmd = 0x04#8 → step s = .next { u with phase := .v5Xor, work := { s.work with dbmask := t } }))) ∧
  (∀ (s : State) (rest : List Event) (x : Bytes), s.agenda = .answer :: rest → s.pend = some (.hash x) →
    s.phase = .m1Loop → step s = .next { s with
      agenda := rest, pend := none,
      work := { s.work with mgfAcc := s.work.mgfAcc ++ P.hash x, mgfCtr := s.work.mgfCtr + 1 } })

/-! ### The PSS encoder -/

/-- Step 9 (rule R189): exactly bit 7 of `EM[0]` is cleared, the block is then below `2^(K-1)`, and its first byte is the
mask's first byte without bit 7. -/
def Obligations.TopBitClearBoundsBlock : Prop :=
  ∀ (p : Params) (salt dbMask h : Bytes), p.constructible = true → salt.length = p.hLen → dbMask.length = p.dbSize →
    h.length = p.hLen →
    let before := encodedMessage (xorBytes (dataBlock p salt) dbMask) h
    let em := clearTopBit before
    em.length = p.kLen ∧ beInt em < 2 ^ (p.K - 1) ∧
    em.getD 0 0x00#8 = before.getD 0 0x00#8 &&& 0x7F#8 ∧ em.getD 0 0x00#8 = dbMask.getD 0 0x00#8 &&& 0x7F#8 ∧
    ∀ i, 1 ≤ i → em.getD i 0x00#8 = before.getD i 0x00#8

/-- Command SIGN at the big-step level, for whatever salt the random port answers (rules R180, R192, R194): the two
reachable errors, the signature as the power of the encoded block, and the port trace. -/
def Obligations.SignEnds : Prop :=
  let P := Config.params
  encode .sign = 0x03#8 ∧
  ∀ s : State, s.busy = false → s.level = .bigStep →
    let salt := P.draw (draws s) P.hLen
    let m' := List.replicate 8 0x00#8 ++ P.hash s.msg ++ salt
    let h := P.hash m'
    let q := (P.dbSize + P.hLen - 1) / P.hLen
    let dbMask := ((List.range q).flatMap fun c => P.hash (h ++ be32 c)).take P.dbSize
    let db := List.replicate P.psLen 0x00#8 ++ [0x01#8] ++ salt
    let em := clearTopBit (List.zipWith (· ^^^ ·) db dbMask ++ h ++ [0xbc#8])
    salt.length = P.hLen ∧
    ∃ t, exec .sign s = .next t ∧ InputsKept s t ∧ ScheduleKept s t ∧ errcode P t = t.ecause ∧
      (if s.msg.length > P.hashMaxLen then EndedErr 0x03#8 0x02#8 t ∧ t.trace = s.trace
       else t.trace = s.trace ++ [.hash s.msg, .rng P.hLen, .hash m'] ++
           ((List.range q).map fun c => .hash (h ++ be32 c)) ∧
         (if beInt (opn P s) ≤ beInt em then EndedErr 0x03#8 0x01#8 t
          else EndedOk 0x03#8 (beBytes (beInt em ^ beInt (opk P s) % beInt (opn P s)) P.kLen) t))

/-- The phases of SIGN, row by row (rule R193), each port call and its answer apart (rule R34): the salt is whatever the
random port answers (assumption 5, DESIGN CHOICE), and each answer is its call's own (assumption 18, DESIGN CHOICE).
On strings of lengths no run has it says the model's choice (assumption 9, DESIGN CHOICE). -/
def Obligations.SignPhases : Prop :=
  let P := Config.params
  (∀ (s : State) (rest : List Event), s.agenda = .sequencer :: rest → s.pend = none →
    let u : State := { s with agenda := rest }
    let asks : PortCall → State := fun c => { u with pend := some c, trace := s.trace ++ [c] }
    (s.phase = .s1Len →
      (s.msg.length > P.hashMaxLen → step s = .next { u with
        out := [], ecause := 0x02#8, busy := false, done := true, err := true, work := Work.cleared, phase := .idle,
        pend := none }) ∧
      (s.msg.length ≤ P.hashMaxLen → step s = .next { u with phase := .s2Mhash })) ∧
    (s.phase = .s2Mhash → step s = .next (asks (.hash s.msg))) ∧
    (s.phase = .s3Salt → step s = .next (asks (.rng P.hLen))) ∧
    (s.phase = .s4H →
      step s = .next (asks (.hash (List.replicate 8 0x00#8 ++ s.work.mhash ++ s.work.salt)))) ∧
    (s.phase = .s5Db → step s = .next { u with phase := .s6Mask, work := { s.work with
      db := List.replicate P.psLen 0x00#8 ++ [0x01#8] ++ s.work.salt } }) ∧
    (s.phase = .s6Mask → step s = .next { u with phase := .m0Bound, work := { s.work with
      mgfSeed := s.work.hb, mgfLen := P.dbSize } }) ∧
    (s.phase = .s6Xor → step s = .next { u with phase := .s7Size, work := { s.work with
      mdb := List.zipWith (· ^^^ ·) s.work.db s.work.dbmask } }) ∧
    (s.phase = .s7Size → step s = .next { u with phase := .s8Em }) ∧
    (s.phase = .s8Em → step s = .next { u with phase := .s9Topbit, work := { s.work with
      em := s.work.mdb ++ s.work.hb ++ [0xbc#8] } }) ∧
    (s.phase = .s9Topbit → step s = .next { u with phase := .s10Rsa, work := { s.work with
      em := s.work.em.set 0 (s.work.em.getD 0 0x00#8 &&& 0x7F#8) } }) ∧
    (s.phase = .s10Rsa → step s = .next { u with phase := .r0Import })) ∧
  (∀ (s : State) (rest : List Event), s.agenda = .answer :: rest →
    (∀ x, s.pend = some (.hash x) → s.phase = .s2Mhash → step s = .next { s with
      agenda := rest, pend := none, phase := .s3Salt, work := { s.work with mhash := P.hash x } }) ∧
    (∀ j, s.pend = some (.rng j) → s.phase = .s3Salt → ∃ salt : Bytes, salt.length = j ∧ step s = .next { s with
      agenda := rest, pend := none, phase := .s4H, work := { s.work with salt := salt } }) ∧
    (∀ x, s.pend = some (.hash x) → s.phase = .s4H → step s = .next { s with
      agenda := rest, pend := none, phase := .s5Db, work := { s.work with hb := P.hash x } }))

/-- What the signature is, for a valid key (rule R196): the result register after SIGN at the big-step level, for every
instance, every message the hash accepts and every salt the random port answers. -/
def Obligations.SignatureOfValidKey : Prop :=
  ∀ (p : Params) (s : State) (e : Bytes), p.constructible = true → s.busy = false → s.level = .bigStep →
    s.msg.length ≤ p.hashMaxLen → ValidKey p e (opk p s) (opn p s) →
    let salt := p.draw (draws s) p.hLen
    let h := p.hash (List.replicate 8 0x00#8 ++ p.hash s.msg ++ salt)
    let db := List.replicate p.psLen 0x00#8 ++ [0x01#8] ++ salt
    ∃ em dbMask, em.length = p.kLen ∧ mgf p h p.dbSize = .ok dbMask ∧ dbMask.length = p.dbSize ∧
      (signCommand p s).out = beBytes (beInt em ^ beInt (opk p s) % beInt (opn p s)) p.kLen ∧
      statusByte (signCommand p s) = 0x02#8 ∧
      (em.getD 0 0x00#8).getLsbD 7 = false ∧ em.getD (p.kLen - 1) 0x00#8 = 0xbc#8 ∧
      (em.drop p.dbSize).take p.hLen = h ∧
      (∀ i, 1 ≤ i → i < p.dbSize → em.getD i 0x00#8 = db.getD i 0x00#8 ^^^ dbMask.getD i 0x00#8) ∧
      em.getD 0 0x00#8 = (db.getD 0 0x00#8 ^^^ dbMask.getD 0 0x00#8) &&& 0x7F#8

/-! ### The PSS decoder -/

/-- Command VERIFY at the big-step level (rules R210, R227, R233): the checks in their order, the first that fails is the
one reported, with exactly the port calls made before the end; accept only after all of them. -/
def Obligations.VerifyEnds : Prop :=
  let P := Config.params
  encode .verify = 0x04#8 ∧
  ∀ s : State, s.busy = false → s.level = .bigStep →
    let em := beBytes (beInt (opm P s) ^ beInt (opk P s) % beInt (opn P s)) P.kLen
    let h := (em.drop P.dbSize).take P.hLen
    let q := (P.dbSize + P.hLen - 1) / P.hLen
    let dbMask := ((List.range q).flatMap fun c => P.hash (h ++ be32 c)).take P.dbSize
    let db := (List.zipWith (· ^^^ ·) (em.take P.dbSize) dbMask).set 0 0x00#8
    let salt := (db.drop (P.dbSize - P.hLen)).take P.hLen
    let m' := List.replicate 8 0x00#8 ++ P.hash s.msg ++ salt
    let maskCalls : List PortCall := (List.range q).map fun c => .hash (h ++ be32 c)
    ∃ t, exec .verify s = .next t ∧ InputsKept s t ∧ ScheduleKept s t ∧ t.out = [] ∧
      errcode P t = (if t.err = true ∧ P.diagEn = false then 0x10#8 else t.ecause) ∧
      (if beInt (opn P s) ≤ beInt (opm P s) then EndedErr 0x04#8 0x01#8 t ∧ t.trace = s.trace
       else if em.getD (P.kLen - 1) 0x00#8 ≠ 0xbc#8 then EndedErr 0x04#8 0x05#8 t ∧ t.trace = s.trace
       else if (em.getD 0 0x00#8).getLsbD 7 = true then EndedErr 0x04#8 0x06#8 t ∧ t.trace = s.trace
       else if db.getD P.psLen 0x00#8 ≠ 0x01#8 ∨ ¬ (∀ i < P.psLen, 1 ≤ i → db.getD i 0x00#8 = 0x00#8) then
         EndedErr 0x04#8 0x07#8 t ∧ t.trace = s.trace ++ maskCalls
       else if s.msg.length > P.hashMaxLen then EndedErr 0x04#8 0x02#8 t ∧ t.trace = s.trace ++ maskCalls
       else t.trace = s.trace ++ maskCalls ++ [.hash s.msg, .hash m'] ∧
         (if P.hash m' = h then EndedOk 0x04#8 [] t else EndedErr 0x04#8 0x08#8 t))

/-- The phases of VERIFY, row by row (rule R232), each hash call and its answer apart (rule R34); each answer is its call's
own (assumption 18, DESIGN CHOICE). On strings of lengths no run has it says the model's choice (assumption 9, DESIGN
CHOICE). -/
def Obligations.VerifyPhases : Prop :=
  let P := Config.params
  (∀ (s : State) (rest : List Event), s.agenda = .sequencer :: rest → s.pend = none →
    let u : State := { s with agenda := rest }
    let asks : PortCall → State := fun c => { u with pend := some c, trace := s.trace ++ [c] }
    let rejects : Byte → State := fun c => { u with
      out := [], ecause := c, busy := false, done := true, err := true, work := Work.cleared, phase := .idle,
      pend := none }
    (s.phase = .v1Rsa → step s = .next { u with phase := .r0Import }) ∧
    (s.phase = .v2Trailer → step s = .next
      (if s.work.em.getD (P.kLen - 1) 0x00#8 ≠ 0xbc#8 then rejects 0x05#8 else { u with phase := .v3Leadbit })) ∧
    (s.phase = .v3Leadbit → step s = .next
      (if (s.work.em.getD 0 0x00#8).getLsbD 7 then rejects 0x06#8 else { u with phase := .v4Split })) ∧
    (s.phase = .v4Split → step s = .next { u with phase := .v5Mask, work := { s.work with
      mdb := s.work.em.take P.dbSize, hb := (s.work.em.drop P.dbSize).take P.hLen } }) ∧
    (s.phase = .v5Mask → step s = .next { u with phase := .m0Bound, work := { s.work with
      mgfSeed := s.work.hb, mgfLen := P.dbSize } }) ∧
    (s.phase = .v5Xor → step s = .next { u with phase := .v6Pad, work := { s.work with
      db := (List.zipWith (· ^^^ ·) s.work.mdb s.work.dbmask).set 0 0x00#8 } }) ∧
    (s.phase = .v6Pad → step s = .next
      (if s.work.db.getD P.psLen 0x00#8 ≠ 0x01#8 ∨ ¬ (∀ b ∈ s.work.db.take P.psLen, b = 0x00#8) then rejects 0x07#8
       else { u with phase := .v7Salt })) ∧
    (s.phase = .v7Salt → step s = .next { u with phase := .v8Len, work := { s.work with
      salt := (s.work.db.drop (P.dbSize - P.hLen)).take P.hLen } }) ∧
    (s.phase = .v8Len → step s = .next
      (if s.msg.length > P.hashMaxLen then rejects 0x02#8 else { u with phase := .v8Mhash })) ∧
    (s.phase = .v8Mhash → step s = .next (asks (.hash s.msg))) ∧
    (s.phase = .v8H2 →
      step s = .next (asks (.hash (List.replicate 8 0x00#8 ++ s.work.mhash ++ s.work.salt)))) ∧
    (s.phase = .v9Cmp → s.work.h2.length = s.work.hb.length → step s = .next
      (if s.work.h2 ≠ s.work.hb then rejects 0x08#8 else { u with phase := .v10Accept })) ∧
    (s.phase = .v10Accept → step s = .next { u with
      out := [], ecause := 0x00#8, busy := false, done := true, err := false, work := Work.cleared, phase := .idle,
      pend := none })) ∧
  (∀ (s : State) (rest : List Event) (x : Bytes), s.agenda = .answer :: rest → s.pend = some (.hash x) →
    (s.phase = .v8Mhash → step s = .next { s with
      agenda := rest, pend := none, phase := .v8H2, work := { s.work with mhash := P.hash x } }) ∧
    (s.phase = .v8H2 → step s = .next { s with
      agenda := rest, pend := none, phase := .v9Cmp, work := { s.work with h2 := P.hash x } }))

/-- The comparison of step 9 over all byte pairs decides equality of the whole strings (rule R224). -/
def Obligations.FullComparisonIsEquality : Prop :=
  ∀ h' h : Bytes, h'.length = h.length →
    ((difference h' h ≠ 0x00#8 ↔ h' ≠ h) ∧ ∀ i < h.length, (difference h' h = 0x00#8 → h'[i]? = h[i]?))

/-- The verifier ignores bits 6 to 0 of `EM[0]` (rule R230): two blocks that differ there alone get the same verdict, and
under a valid key every such variant of an accepted block has a signature that is accepted too. -/
def Obligations.LowBitsOfBlockIgnored : Prop :=
  ∀ (p : Params) (message : Bytes) (b b' : Byte) (rest : Bytes), p.constructible = true →
    rest.length + 1 = p.kLen → b.getLsbD 7 = false → b'.getLsbD 7 = false →
    verifyBlock p message (b :: rest) = verifyBlock p message (b' :: rest) ∧
    (∀ e d n s : Bytes, ValidKey p e d n → rsaTransform p s e n = .ok (b :: rest) →
      verify p message e n s = .ok () →
      ∃ s', rsaTransform p (b' :: rest) d n = .ok s' ∧ verify p message e n s' = .ok ())

/-- Why `PS_LEN = 0` is excluded (rule R229): with no padding byte no signature is accepted, and one that SIGN just made
with a valid key ends in InvalidPadding. -/
def Obligations.NoPaddingByteNoAccept : Prop :=
  ∀ (p : Params) (message e d n : Bytes), p.K = 8 * p.kLen → 1 ≤ p.hLen → p.kLen = 2 * p.hLen + 2 → p.kLen ≤ 4096 →
    (∀ s, verify p message e n s ≠ .ok ()) ∧
    (∀ s salt, ValidKey p e d n → salt.length = p.hLen → sign p message d n salt = .ok s →
      verify p message e n s = .error .invalidPadding)

/-- The round trip (rule R234): on every instance, for every valid key, every message the hash accepts and every answer
of the random port, SIGN succeeds and VERIFY of its output accepts. -/
def Obligations.SignThenVerifyAccepts : Prop :=
  ∀ (p : Params) (s u : State) (e : Bytes), p.constructible = true →
    s.busy = false → s.level = .bigStep → u.busy = false → u.level = .bigStep →
    s.msg.length ≤ p.hashMaxLen → ValidKey p e (opk p s) (opn p s) →
    u.msg = s.msg → opk p u = e → opn p u = opn p s → opm p u = (signCommand p s).out →
      statusByte (signCommand p s) = 0x02#8 ∧ statusByte (verifyCommand p u) = 0x02#8

/-! ### Errors, ports, reset -/

/-- The kinds each command can end with (rule R250), at the big-step level and on the one instance: no command ends with
a kind its column leaves empty or calls unreachable. -/
def Obligations.ErrorKindsPerCommand : Prop :=
  ∀ s : State, s.busy = false → s.level = .bigStep →
    (∃ t, exec .clear s = .next t ∧ t.err = false ∧ t.ecause = 0x00#8) ∧
    (∃ t, exec .rsa s = .next t ∧ (t.err = true → t.ecause = 0x01#8)) ∧
    (∃ t, exec .mgf s = .next t ∧ (t.err = true → t.ecause = 0x02#8 ∨ t.ecause = 0x04#8)) ∧
    (∃ t, exec .sign s = .next t ∧ (t.err = true → t.ecause = 0x02#8 ∨ t.ecause = 0x01#8)) ∧
    (∃ t, exec .verify s = .next t ∧ (t.err = true → t.ecause = 0x01#8 ∨ t.ecause = 0x02#8 ∨ t.ecause = 0x05#8 ∨
      t.ecause = 0x06#8 ∨ t.ecause = 0x07#8 ∨ t.ecause = 0x08#8))

/-- Every port call of every step is in its port's domain, and the trace only grows (rules R72, R74). -/
def Obligations.PortCallsStayInDomain : Prop :=
  ∀ s t : State, Inv Config.params s → step s = .next t →
    ∃ cs, t.trace = s.trace ++ cs ∧ ∀ c ∈ cs, c.inDomain Config.params

/-- The state after reset (rule R37). -/
def Obligations.ResetValues : Prop :=
  let P := Config.params
  let r := State.reset
  opm P r = List.replicate P.kLen 0x00#8 ∧ opk P r = List.replicate P.kLen 0x00#8 ∧
  opn P r = List.replicate P.kLen 0x00#8 ∧ (∀ a, memRead r.mem a = 0x00#8) ∧
  r.msg = [] ∧ r.maskLen = 0#64 ∧ r.out = [] ∧ r.curCmd = 0x00#8 ∧
  r.busy = false ∧ r.done = false ∧ r.err = false ∧ statusByte r = 0x00#8 ∧ r.ecause = 0x00#8 ∧
  errcode P r = 0x00#8 ∧ r.phase = .idle ∧ r.work = Work.cleared ∧ r.pend = none ∧
  busyWire r = false ∧ doneWire r = false ∧
  (∀ i < 2, readByte P r (.cfgKlen i) = (beBytes P.kLen 2).getD i 0x00#8 ∧
    readByte P r (.cfgHlen i) = (beBytes P.hLen 2).getD i 0x00#8) ∧
  readByte P r .cfgFlags = (if P.diagEn then 0x01#8 else 0x00#8) ∧
  readByte P r .outPop = 0x00#8 ∧ readByte P r .cmd = 0x00#8 ∧
  (∀ i < 8, readByte P r (.msgLen i) = 0x00#8 ∧ readByte P r (.outLen i) = 0x00#8)

/-- Reset from any state, busy or not (rules R270, R271): every field of the block as after reset; a call in flight is
abandoned, its request stays in the trace and the draw it was stays consumed, and its late answer is discarded. That the
schedule, the records and the level stay is the model's choice (assumption 7, DESIGN CHOICE). -/
def Obligations.ResetFromAnyState : Prop :=
  ∀ (s : State) (rest : List Event), s.agenda = .reset :: rest →
    ∃ t, step s = .next t ∧
      t = { State.reset with agenda := rest, reads := s.reads, trace := s.trace, level := s.level } ∧
      draws t = draws s ∧
      ∀ rest', rest = .answer :: rest' → step t = .next { t with agenda := rest' }

/-- Every command is defined in the one state `State.reset` (rule R273): RSA and VERIFY end with MessageOutOfRange, SIGN
draws a salt, makes its hash calls and then ends so too, MGF returns the empty mask, CLEAR does nothing. -/
def Obligations.CommandsFromReset : Prop :=
  let P := Config.params
  (∃ t, exec .rsa State.reset = .next t ∧ EndedErr 0x01#8 0x01#8 t ∧ t.trace = []) ∧
  (∃ t, exec .verify State.reset = .next t ∧ EndedErr 0x04#8 0x01#8 t ∧ t.trace = []) ∧
  (∃ t, exec .sign State.reset = .next t ∧ EndedErr 0x03#8 0x01#8 t ∧
    t.trace.length = 3 + (P.dbSize + P.hLen - 1) / P.hLen ∧ t.trace.getD 1 (.hash []) = .rng P.hLen) ∧
  (∃ t, exec .mgf State.reset = .next t ∧ EndedOk 0x02#8 [] t ∧ t.trace = []) ∧
  exec .clear State.reset = .next State.reset

/-! ### Whole-machine rules -/

/-- The host sees two instants of a command, its start and its end (rule R69): a step that begins busy and ends busy
changes no host-visible state but the host's own read. -/
def Obligations.CommandHasTwoVisibleInstants : Prop :=
  ∀ s t : State, s.busy = true → t.busy = true → step s = .next t →
    t.curCmd = s.curCmd ∧ t.done = s.done ∧ t.err = s.err ∧ t.ecause = s.ecause ∧
    t.mem = s.mem ∧ t.msg = s.msg ∧ t.maskLen = s.maskLen ∧
    (t.out = s.out ∨ (∃ rest, s.agenda = .hostRead 0x0021#14 :: rest ∧ t.out = s.out.tail))

/-- The inputs are written by the host and by reset alone (rules R21 to R25): every other move, and every command, leaves
every byte of the operand registers, the message and the mask length as they were. -/
def Obligations.InputsWrittenOnlyByHostAndReset : Prop :=
  (∀ (i : Instr) (s t : State), exec i s = .next t → InputsKept s t) ∧
  (∀ s t : State, step s = .next t → (∀ a v rest, s.agenda ≠ .hostWrite a v :: rest) →
    (∀ rest, s.agenda ≠ .reset :: rest) → InputsKept s t)

/-- The state after reset satisfies the invariant. -/
def Obligations.ResetSatisfiesInvariant : Prop := Inv Config.params State.reset

/-- Every step keeps the invariant, whichever agent moves and at either level: the canonical form of the operand
registers, the relations between the flags (rule R28), the phase belonging to the current command (rule R31), the
transients written before they are read (rule R33), the call in flight (rule R34), the requests in the hash function's
domain (rule R72). -/
def Obligations.EveryStepKeepsInvariant : Prop :=
  ∀ s t : State, Inv Config.params s → step s = .next t → Inv Config.params t

/-- The two levels have one meaning (rule R15): started idle from the same state, the phase sequence, left to run, ends
in exactly the state the function gives: the same output, status and error code, and the same port calls in the same
order. Left to run means with nothing scheduled, so that every step is the due move: the call's own answer while one is
in flight, else the sequencer's step (assumptions 2, 18, DESIGN CHOICE). -/
def Obligations.PhaseSequenceAgreesWithFunction : Prop :=
  ∀ (i : Instr) (s : State), s.busy = false → s.pend = none → s.agenda = [] →
    ∃ n a b, exec i { s with level := .smallStep } = .next a ∧ exec i { s with level := .bigStep } = .next b ∧
      Sys2Proof.core.run n a = .next { b with level := .smallStep }

/-- Every running command ends once its calls are answered (rule R285): from any state of a run that is busy and has
nothing else scheduled, finitely many steps lead to an idle state with `DONE = 1`. With nothing scheduled each step is
the due move of assumption 2 (DESIGN CHOICE, unsafe for termination): it answers every call and steps the sequencer,
which stands for the rule's assumptions (a) and (b), so hardware on which (a) or (b) fails need not end. -/
def Obligations.EveryCommandEnds : Prop :=
  ∀ s : State, Inv Config.params s → s.busy = true → s.agenda = [] →
    ∃ n t, Sys2Proof.core.run n s = .next t ∧ t.busy = false ∧ t.done = true ∧ t.phase = .idle
end

