-- ==== Sys2Proof/Laws/Instance.lean ====
section
/-! SUPPORT. What rule R7 gives of the one instance every statement is about. -/

namespace Sys2Proof

/-- Every instance `Instance.build` makes has the parameters it was asked for (rule R7). -/
theorem Instance.build_eq_some {p : Params} {i : Instance} (h : Instance.build p = some i) :
    i.params = p ∧ p.constructible = true := by
  unfold Instance.build at h
  split at h
  · cases h; exact ⟨rfl, ‹_›⟩
  · cases h

/-- Whatever `Config.free` is, the instance satisfies rule R7. -/
theorem Config.params_constructible : Config.params.constructible = true := by
  unfold Config.params
  split
  · assumption
  · simp [Params.constructible, Config.smallest, Params.kLen]

/-- Every parameter set rule R7 admits is a possible value of the instance. -/
theorem Config.params_eq_free (h : Config.free.constructible = true) : Config.params = Config.free := by
  simp [Config.params, h]

/-- The constraints of rule R7, one by one. -/
structure Params.Valid (p : Params) : Prop where
  /-- `K` is a multiple of 8. -/
  K_eq : p.K = 8 * p.kLen
  /-- The digest is not empty. -/
  hLen_pos : 1 ≤ p.hLen
  /-- `PS_LEN >= 1`. -/
  kLen_ge : 2 * p.hLen + 3 ≤ p.kLen
  /-- The hash accepts `M'`. -/
  hash_ge : 8 + 2 * p.hLen ≤ p.hashMaxLen
  /-- An operand fits its window. -/
  kLen_le : p.kLen ≤ 4096
  /-- The digest length fits `CFG_HLEN`. -/
  hLen_le : p.hLen ≤ 65535
  /-- The bound fits `MSG_LEN`. -/
  hash_le : p.hashMaxLen ≤ 2 ^ 64 - 1

theorem Params.valid_of_constructible {p : Params} (h : p.constructible = true) : p.Valid := by
  simp only [Params.constructible, Bool.and_eq_true, decide_eq_true_eq] at h
  obtain ⟨⟨⟨⟨⟨hk, h1⟩, h2⟩, h3⟩, h4, h5⟩, h6⟩ := h
  exact ⟨by unfold Params.kLen; omega, h1, h2, h3, h4, h5, h6⟩

/-- The one instance is valid. -/
theorem Config.params_valid : Config.params.Valid := Params.valid_of_constructible Config.params_constructible

theorem Params.Valid.dbSize_eq {p : Params} (h : p.Valid) : p.dbSize + p.hLen + 1 = p.kLen := by
  have := h.kLen_ge
  unfold Params.dbSize
  omega

theorem Params.Valid.psLen_eq {p : Params} (h : p.Valid) : p.psLen + p.hLen + 1 = p.dbSize := by
  have := h.kLen_ge
  unfold Params.psLen Params.dbSize
  omega

theorem Params.Valid.psLen_pos {p : Params} (h : p.Valid) : 1 ≤ p.psLen := by
  have := h.kLen_ge
  unfold Params.psLen Params.dbSize
  omega

/-- MaskTooLong cannot occur inside SIGN and VERIFY (rules R167, R244). -/
theorem Params.Valid.dbSize_le_maskBound {p : Params} (h : p.Valid) : p.dbSize ≤ p.maskBound := by
  have := h.kLen_le
  have := h.hLen_pos
  unfold Params.maskBound Params.dbSize
  omega

theorem Params.Valid.two_pow_K {p : Params} (h : p.Valid) : 2 ^ p.K = 256 ^ p.kLen := by
  rw [h.K_eq, pow_mul]
  norm_num

end Sys2Proof
end

