-- ==== Sys2Proof/Laws/Memory.lean ====
section
/-! SUPPORT. The laws of the operand registers' memory: a write keeps the canonical form, a read after a write to the
same address gives the byte written, a write leaves every other address alone. -/

namespace Sys2Proof.Machine

theorem memRead_eq_zero_of_wfFrom {mem : List Host.Cell} {lo a : Nat} (h : Memory.wfFrom lo mem = true) (ha : a < lo) :
    memRead mem a = 0x00#8 := by
  induction mem generalizing lo with
  | nil => rfl
  | cons c rest ih =>
    simp only [Memory.wfFrom, Bool.and_eq_true, decide_eq_true_eq] at h
    obtain ⟨⟨hlo, -⟩, hrest⟩ := h
    have hne : c.1 ≠ a := by omega
    simp only [memRead, hne, if_false]
    exact ih hrest (by omega)

theorem Memory.wfFrom_mono {mem : List Host.Cell} {lo lo' : Nat} (h : Memory.wfFrom lo mem = true) (hl : lo' ≤ lo) :
    Memory.wfFrom lo' mem = true := by
  cases mem with
  | nil => rfl
  | cons c rest =>
    simp only [Memory.wfFrom, Bool.and_eq_true, decide_eq_true_eq] at h ⊢
    exact ⟨⟨by omega, h.1.2⟩, h.2⟩

theorem memWrite_wfFrom {mem : List Host.Cell} {lo a : Nat} (b : Byte) (h : Memory.wfFrom lo mem = true) (ha : lo ≤ a) :
    Memory.wfFrom lo (memWrite mem a b) = true := by
  induction mem generalizing lo with
  | nil =>
    simp only [memWrite]
    split
    · rfl
    · rename_i hb
      simp [Memory.wfFrom, ha, hb]
  | cons c rest ih =>
    simp only [Memory.wfFrom, Bool.and_eq_true, decide_eq_true_eq] at h
    obtain ⟨⟨hlo, hne⟩, hrest⟩ := h
    simp only [memWrite]
    split
    · rename_i hlt
      split
      · simp [Memory.wfFrom, hlo, hne, hrest]
      · rename_i hb
        simp only [Memory.wfFrom, Bool.and_eq_true, decide_eq_true_eq, bne_iff_ne]
        exact ⟨⟨ha, hb⟩, ⟨by omega, by simpa using hne⟩, hrest⟩
    · split
      · rename_i hge heq
        subst heq
        split
        · exact Memory.wfFrom_mono hrest (by omega)
        · rename_i hb
          simp [Memory.wfFrom, ha, hb, hrest]
      · rename_i hge hne'
        simp only [Memory.wfFrom, Bool.and_eq_true, decide_eq_true_eq]
        exact ⟨⟨hlo, hne⟩, ih hrest (by omega)⟩

/-- A write keeps the canonical form. -/
theorem memWrite_wf {mem : List Host.Cell} (a : Nat) (b : Byte) (h : Memory.wf mem = true) :
    Memory.wf (memWrite mem a b) = true := memWrite_wfFrom b h (Nat.zero_le a)

/-- The memory after reset has the canonical form. -/
theorem reset_mem_wf : Memory.wf State.reset.mem = true := rfl

theorem memRead_memWrite_from {mem : List Host.Cell} {lo : Nat} (h : Memory.wfFrom lo mem = true) (a a' : Nat)
    (b : Byte) : memRead (memWrite mem a b) a' = if a = a' then b else memRead mem a' := by
  induction mem generalizing lo with
  | nil =>
    simp only [memWrite]
    by_cases hb : b = 0x00#8 <;> by_cases he : a = a' <;> simp [memRead, hb, he]
  | cons c rest ih =>
    simp only [Memory.wfFrom, Bool.and_eq_true, decide_eq_true_eq] at h
    obtain ⟨⟨hlo, -⟩, hrest⟩ := h
    simp only [memWrite]
    split
    · rename_i hlt
      have hc : c.1 ≠ a := by omega
      have hz : memRead rest a = 0x00#8 := memRead_eq_zero_of_wfFrom hrest (by omega)
      by_cases he : a = a'
      · subst he
        by_cases hb : b = 0x00#8 <;> simp [memRead, hb, hc, hz]
      · by_cases hb : b = 0x00#8 <;> simp [memRead, hb, he]
    · split
      · rename_i hge heq
        have hz : memRead rest a = 0x00#8 := memRead_eq_zero_of_wfFrom hrest (by omega)
        by_cases he : a = a'
        · subst he
          by_cases hb : b = 0x00#8 <;> simp [memRead, hb, hz]
        · have hc : c.1 ≠ a' := by omega
          by_cases hb : b = 0x00#8 <;> simp [memRead, hb, he, hc]
      · rename_i hge hne
        have hc : c.1 ≠ a := by omega
        simp only [memRead]
        by_cases he : a = a'
        · subst he
          simp [hc, ih hrest]
        · simp [he, ih hrest]

/-- A read after a write: the byte written at its address, the old byte everywhere else. -/
theorem memRead_memWrite {mem : List Host.Cell} (h : Memory.wf mem = true) (a a' : Nat) (b : Byte) :
    memRead (memWrite mem a b) a' = if a = a' then b else memRead mem a' := memRead_memWrite_from h a a' b

/-- A write lists no address but its own. -/
theorem mem_memWrite {mem : List Host.Cell} {a : Nat} {b : Byte} {c : Host.Cell} (h : c ∈ memWrite mem a b) :
    c = (a, b) ∨ c ∈ mem := by
  induction mem with
  | nil =>
    simp only [memWrite] at h
    split at h <;> simp_all
  | cons d rest ih =>
    simp only [memWrite] at h
    split at h
    · split at h <;> simp_all
    · split at h
      · split at h
        · exact .inr (List.mem_cons_of_mem _ h)
        · rcases List.mem_cons.1 h with h | h
          · exact .inl h
          · exact .inr (List.mem_cons_of_mem _ h)
      · rcases List.mem_cons.1 h with h | h
        · exact .inr (h ▸ List.mem_cons_self ..)
        · exact (ih h).imp id (List.mem_cons_of_mem _)

@[simp] theorem window_length (p : Params) (mem : List Host.Cell) (base : Nat) :
    (window p mem base).length = p.kLen := by simp [window]

@[simp] theorem opm_length (p : Params) (s : State) : (opm p s).length = p.kLen := window_length ..
@[simp] theorem opk_length (p : Params) (s : State) : (opk p s).length = p.kLen := window_length ..
@[simp] theorem opn_length (p : Params) (s : State) : (opn p s).length = p.kLen := window_length ..

end Sys2Proof.Machine
end

