-- ==== Sys2Proof/Laws/Octets.lean ====
section
/-! SUPPORT. The laws of octet strings and integers (rules R9, R105, R145) and of the data layouts' lengths. -/

namespace Sys2Proof.Machine

@[simp] theorem beBytes_length (v L : Nat) : (beBytes v L).length = L := by
  induction L generalizing v with
  | zero => rfl
  | succ L ih => simp [beBytes, ih]

@[simp] theorem beInt_nil : beInt [] = 0 := rfl

theorem beInt_append_singleton (x : Bytes) (b : Byte) : beInt (x ++ [b]) = 256 * beInt x + b.toNat := by
  simp [beInt]

theorem beInt_lt (x : Bytes) : beInt x < 256 ^ x.length := by
  induction x using List.reverseRecOn with
  | nil => simp
  | append_singleton x b ih =>
    have hb := b.isLt
    rw [beInt_append_singleton, List.length_append, List.length_singleton, pow_succ]
    omega

/-- Import after export gives the value back (rules R105, R145). -/
theorem beInt_beBytes {v L : Nat} (h : v < 256 ^ L) : beInt (beBytes v L) = v := by
  induction L generalizing v with
  | zero => simp at h; simp [beBytes, h]
  | succ L ih =>
    have hd : v / 256 < 256 ^ L := Nat.div_lt_of_lt_mul (by rw [pow_succ] at h; omega)
    rw [beBytes, beInt_append_singleton, ih hd, BitVec.toNat_ofNat]
    omega

/-- Export after import gives the octet string back (rules R9, R105). -/
theorem beBytes_beInt (x : Bytes) : beBytes (beInt x) x.length = x := by
  induction x using List.reverseRecOn with
  | nil => rfl
  | append_singleton x b ih =>
    have hb := b.isLt
    have hdiv : (256 * beInt x + b.toNat) / 256 = beInt x := by omega
    have hmod : BitVec.ofNat 8 (256 * beInt x + b.toNat) = b := by
      apply BitVec.eq_of_toNat_eq
      rw [BitVec.toNat_ofNat]
      omega
    rw [beInt_append_singleton, List.length_append, List.length_singleton, beBytes, hdiv, hmod, ih]

theorem beInt_append (x y : Bytes) : beInt (x ++ y) = beInt x * 256 ^ y.length + beInt y := by
  induction y using List.reverseRecOn with
  | nil => simp
  | append_singleton y b ih =>
    rw [← List.append_assoc, beInt_append_singleton, ih, beInt_append_singleton, List.length_append,
      List.length_singleton, pow_succ]
    ring

theorem beInt_cons (b : Byte) (x : Bytes) : beInt (b :: x) = b.toNat * 256 ^ x.length + beInt x := by
  have := beInt_append [b] x
  simpa [beInt] using this

@[simp] theorem zeros_length (j : Nat) : (zeros j).length = j := by simp [zeros]

@[simp] theorem beInt_zeros (j : Nat) : beInt (zeros j) = 0 := by
  induction j with
  | zero => rfl
  | succ j ih =>
    have : zeros (j + 1) = 0x00#8 :: zeros j := rfl
    rw [this, beInt_cons, ih]
    simp

@[simp] theorem xorBytes_length (x y : Bytes) : (xorBytes x y).length = min x.length y.length := by
  simp [xorBytes]

@[simp] theorem hash_length (p : Params) (x : Bytes) : (p.hash x).length = p.hLen := by simp [Params.hash]

@[simp] theorem draw_length (p : Params) (d j : Nat) : (p.draw d j).length = j := by simp [Params.draw]

@[simp] theorem mPrime_length (h salt : Bytes) : (mPrime h salt).length = 8 + h.length + salt.length := by
  simp [mPrime]; omega

@[simp] theorem clearTopBit_length (x : Bytes) : (clearTopBit x).length = x.length := by
  cases x <;> rfl

@[simp] theorem forceFirst_length (x : Bytes) : (forceFirst x).length = x.length := by
  cases x <;> rfl

@[simp] theorem encodedMessage_length (m h : Bytes) : (encodedMessage m h).length = m.length + h.length + 1 := by
  simp [encodedMessage]; omega

@[simp] theorem dataBlock_length (p : Params) (salt : Bytes) :
    (dataBlock p salt).length = p.psLen + 1 + salt.length := by
  simp [dataBlock]; omega

end Sys2Proof.Machine
end

