-- ==== Sys2Proof/Laws/State.lean ====
section
/-! SUPPORT. What each named update of the state leaves in each field, so that no proof unfolds a record update. -/

namespace Sys2Proof.Machine

/-! ### `beginCommand` -/

@[simp] theorem beginCommand_mem (op : Byte) (s : State) : (beginCommand op s).mem = s.mem := rfl
@[simp] theorem beginCommand_msg (op : Byte) (s : State) : (beginCommand op s).msg = s.msg := rfl
@[simp] theorem beginCommand_maskLen (op : Byte) (s : State) : (beginCommand op s).maskLen = s.maskLen := rfl
@[simp] theorem beginCommand_out (op : Byte) (s : State) : (beginCommand op s).out = [] := rfl
@[simp] theorem beginCommand_curCmd (op : Byte) (s : State) : (beginCommand op s).curCmd = op := rfl
@[simp] theorem beginCommand_busy (op : Byte) (s : State) : (beginCommand op s).busy = false := rfl
@[simp] theorem beginCommand_done (op : Byte) (s : State) : (beginCommand op s).done = false := rfl
@[simp] theorem beginCommand_err (op : Byte) (s : State) : (beginCommand op s).err = false := rfl
@[simp] theorem beginCommand_ecause (op : Byte) (s : State) : (beginCommand op s).ecause = 0x00#8 := rfl
@[simp] theorem beginCommand_phase (op : Byte) (s : State) : (beginCommand op s).phase = s.phase := rfl
@[simp] theorem beginCommand_work (op : Byte) (s : State) : (beginCommand op s).work = s.work := rfl
@[simp] theorem beginCommand_pend (op : Byte) (s : State) : (beginCommand op s).pend = s.pend := rfl
@[simp] theorem beginCommand_agenda (op : Byte) (s : State) : (beginCommand op s).agenda = s.agenda := rfl
@[simp] theorem beginCommand_reads (op : Byte) (s : State) : (beginCommand op s).reads = s.reads := rfl
@[simp] theorem beginCommand_trace (op : Byte) (s : State) : (beginCommand op s).trace = s.trace := rfl
@[simp] theorem beginCommand_level (op : Byte) (s : State) : (beginCommand op s).level = s.level := rfl

/-! ### `launch` -/

@[simp] theorem launch_mem (ph : Phase) (s : State) : (launch ph s).mem = s.mem := rfl
@[simp] theorem launch_msg (ph : Phase) (s : State) : (launch ph s).msg = s.msg := rfl
@[simp] theorem launch_maskLen (ph : Phase) (s : State) : (launch ph s).maskLen = s.maskLen := rfl
@[simp] theorem launch_out (ph : Phase) (s : State) : (launch ph s).out = s.out := rfl
@[simp] theorem launch_curCmd (ph : Phase) (s : State) : (launch ph s).curCmd = s.curCmd := rfl
@[simp] theorem launch_busy (ph : Phase) (s : State) : (launch ph s).busy = true := rfl
@[simp] theorem launch_done (ph : Phase) (s : State) : (launch ph s).done = s.done := rfl
@[simp] theorem launch_err (ph : Phase) (s : State) : (launch ph s).err = s.err := rfl
@[simp] theorem launch_ecause (ph : Phase) (s : State) : (launch ph s).ecause = s.ecause := rfl
@[simp] theorem launch_phase (ph : Phase) (s : State) : (launch ph s).phase = ph := rfl
@[simp] theorem launch_work (ph : Phase) (s : State) : (launch ph s).work = s.work := rfl
@[simp] theorem launch_pend (ph : Phase) (s : State) : (launch ph s).pend = s.pend := rfl
@[simp] theorem launch_agenda (ph : Phase) (s : State) : (launch ph s).agenda = s.agenda := rfl
@[simp] theorem launch_reads (ph : Phase) (s : State) : (launch ph s).reads = s.reads := rfl
@[simp] theorem launch_trace (ph : Phase) (s : State) : (launch ph s).trace = s.trace := rfl
@[simp] theorem launch_level (ph : Phase) (s : State) : (launch ph s).level = s.level := rfl

/-! ### `goto` -/

@[simp] theorem goto_mem (ph : Phase) (s : State) : (goto ph s).mem = s.mem := rfl
@[simp] theorem goto_msg (ph : Phase) (s : State) : (goto ph s).msg = s.msg := rfl
@[simp] theorem goto_maskLen (ph : Phase) (s : State) : (goto ph s).maskLen = s.maskLen := rfl
@[simp] theorem goto_out (ph : Phase) (s : State) : (goto ph s).out = s.out := rfl
@[simp] theorem goto_curCmd (ph : Phase) (s : State) : (goto ph s).curCmd = s.curCmd := rfl
@[simp] theorem goto_busy (ph : Phase) (s : State) : (goto ph s).busy = s.busy := rfl
@[simp] theorem goto_done (ph : Phase) (s : State) : (goto ph s).done = s.done := rfl
@[simp] theorem goto_err (ph : Phase) (s : State) : (goto ph s).err = s.err := rfl
@[simp] theorem goto_ecause (ph : Phase) (s : State) : (goto ph s).ecause = s.ecause := rfl
@[simp] theorem goto_phase (ph : Phase) (s : State) : (goto ph s).phase = ph := rfl
@[simp] theorem goto_work (ph : Phase) (s : State) : (goto ph s).work = s.work := rfl
@[simp] theorem goto_pend (ph : Phase) (s : State) : (goto ph s).pend = s.pend := rfl
@[simp] theorem goto_agenda (ph : Phase) (s : State) : (goto ph s).agenda = s.agenda := rfl
@[simp] theorem goto_reads (ph : Phase) (s : State) : (goto ph s).reads = s.reads := rfl
@[simp] theorem goto_trace (ph : Phase) (s : State) : (goto ph s).trace = s.trace := rfl
@[simp] theorem goto_level (ph : Phase) (s : State) : (goto ph s).level = s.level := rfl

/-! ### `endOk` -/

@[simp] theorem endOk_mem (v : Bytes) (s : State) : (endOk v s).mem = s.mem := rfl
@[simp] theorem endOk_msg (v : Bytes) (s : State) : (endOk v s).msg = s.msg := rfl
@[simp] theorem endOk_maskLen (v : Bytes) (s : State) : (endOk v s).maskLen = s.maskLen := rfl
@[simp] theorem endOk_out (v : Bytes) (s : State) : (endOk v s).out = v := rfl
@[simp] theorem endOk_curCmd (v : Bytes) (s : State) : (endOk v s).curCmd = s.curCmd := rfl
@[simp] theorem endOk_busy (v : Bytes) (s : State) : (endOk v s).busy = false := rfl
@[simp] theorem endOk_done (v : Bytes) (s : State) : (endOk v s).done = true := rfl
@[simp] theorem endOk_err (v : Bytes) (s : State) : (endOk v s).err = false := rfl
@[simp] theorem endOk_ecause (v : Bytes) (s : State) : (endOk v s).ecause = 0x00#8 := rfl
@[simp] theorem endOk_phase (v : Bytes) (s : State) : (endOk v s).phase = .idle := rfl
@[simp] theorem endOk_work (v : Bytes) (s : State) : (endOk v s).work = Work.cleared := rfl
@[simp] theorem endOk_pend (v : Bytes) (s : State) : (endOk v s).pend = none := rfl
@[simp] theorem endOk_agenda (v : Bytes) (s : State) : (endOk v s).agenda = s.agenda := rfl
@[simp] theorem endOk_reads (v : Bytes) (s : State) : (endOk v s).reads = s.reads := rfl
@[simp] theorem endOk_trace (v : Bytes) (s : State) : (endOk v s).trace = s.trace := rfl
@[simp] theorem endOk_level (v : Bytes) (s : State) : (endOk v s).level = s.level := rfl

/-! ### `endErr` -/

@[simp] theorem endErr_mem (k : ErrorKind) (s : State) : (endErr k s).mem = s.mem := rfl
@[simp] theorem endErr_msg (k : ErrorKind) (s : State) : (endErr k s).msg = s.msg := rfl
@[simp] theorem endErr_maskLen (k : ErrorKind) (s : State) : (endErr k s).maskLen = s.maskLen := rfl
@[simp] theorem endErr_out (k : ErrorKind) (s : State) : (endErr k s).out = [] := rfl
@[simp] theorem endErr_curCmd (k : ErrorKind) (s : State) : (endErr k s).curCmd = s.curCmd := rfl
@[simp] theorem endErr_busy (k : ErrorKind) (s : State) : (endErr k s).busy = false := rfl
@[simp] theorem endErr_done (k : ErrorKind) (s : State) : (endErr k s).done = true := rfl
@[simp] theorem endErr_err (k : ErrorKind) (s : State) : (endErr k s).err = true := rfl
@[simp] theorem endErr_ecause (k : ErrorKind) (s : State) : (endErr k s).ecause = errorCode k := rfl
@[simp] theorem endErr_phase (k : ErrorKind) (s : State) : (endErr k s).phase = .idle := rfl
@[simp] theorem endErr_work (k : ErrorKind) (s : State) : (endErr k s).work = Work.cleared := rfl
@[simp] theorem endErr_pend (k : ErrorKind) (s : State) : (endErr k s).pend = none := rfl
@[simp] theorem endErr_agenda (k : ErrorKind) (s : State) : (endErr k s).agenda = s.agenda := rfl
@[simp] theorem endErr_reads (k : ErrorKind) (s : State) : (endErr k s).reads = s.reads := rfl
@[simp] theorem endErr_trace (k : ErrorKind) (s : State) : (endErr k s).trace = s.trace := rfl
@[simp] theorem endErr_level (k : ErrorKind) (s : State) : (endErr k s).level = s.level := rfl

/-! ### `record` -/

@[simp] theorem record_mem (calls : List PortCall) (s : State) : (record calls s).mem = s.mem := rfl
@[simp] theorem record_msg (calls : List PortCall) (s : State) : (record calls s).msg = s.msg := rfl
@[simp] theorem record_maskLen (calls : List PortCall) (s : State) : (record calls s).maskLen = s.maskLen := rfl
@[simp] theorem record_out (calls : List PortCall) (s : State) : (record calls s).out = s.out := rfl
@[simp] theorem record_curCmd (calls : List PortCall) (s : State) : (record calls s).curCmd = s.curCmd := rfl
@[simp] theorem record_busy (calls : List PortCall) (s : State) : (record calls s).busy = s.busy := rfl
@[simp] theorem record_done (calls : List PortCall) (s : State) : (record calls s).done = s.done := rfl
@[simp] theorem record_err (calls : List PortCall) (s : State) : (record calls s).err = s.err := rfl
@[simp] theorem record_ecause (calls : List PortCall) (s : State) : (record calls s).ecause = s.ecause := rfl
@[simp] theorem record_phase (calls : List PortCall) (s : State) : (record calls s).phase = s.phase := rfl
@[simp] theorem record_work (calls : List PortCall) (s : State) : (record calls s).work = s.work := rfl
@[simp] theorem record_pend (calls : List PortCall) (s : State) : (record calls s).pend = s.pend := rfl
@[simp] theorem record_agenda (calls : List PortCall) (s : State) : (record calls s).agenda = s.agenda := rfl
@[simp] theorem record_reads (calls : List PortCall) (s : State) : (record calls s).reads = s.reads := rfl
@[simp] theorem record_trace (calls : List PortCall) (s : State) : (record calls s).trace = s.trace ++ calls := rfl
@[simp] theorem record_level (calls : List PortCall) (s : State) : (record calls s).level = s.level := rfl

/-! ### `ask` -/

@[simp] theorem ask_mem (call : PortCall) (s : State) : (ask call s).mem = s.mem := rfl
@[simp] theorem ask_msg (call : PortCall) (s : State) : (ask call s).msg = s.msg := rfl
@[simp] theorem ask_maskLen (call : PortCall) (s : State) : (ask call s).maskLen = s.maskLen := rfl
@[simp] theorem ask_out (call : PortCall) (s : State) : (ask call s).out = s.out := rfl
@[simp] theorem ask_curCmd (call : PortCall) (s : State) : (ask call s).curCmd = s.curCmd := rfl
@[simp] theorem ask_busy (call : PortCall) (s : State) : (ask call s).busy = s.busy := rfl
@[simp] theorem ask_done (call : PortCall) (s : State) : (ask call s).done = s.done := rfl
@[simp] theorem ask_err (call : PortCall) (s : State) : (ask call s).err = s.err := rfl
@[simp] theorem ask_ecause (call : PortCall) (s : State) : (ask call s).ecause = s.ecause := rfl
@[simp] theorem ask_phase (call : PortCall) (s : State) : (ask call s).phase = s.phase := rfl
@[simp] theorem ask_work (call : PortCall) (s : State) : (ask call s).work = s.work := rfl
@[simp] theorem ask_pend (call : PortCall) (s : State) : (ask call s).pend = some call := rfl
@[simp] theorem ask_agenda (call : PortCall) (s : State) : (ask call s).agenda = s.agenda := rfl
@[simp] theorem ask_reads (call : PortCall) (s : State) : (ask call s).reads = s.reads := rfl
@[simp] theorem ask_trace (call : PortCall) (s : State) : (ask call s).trace = s.trace ++ [call] := rfl
@[simp] theorem ask_level (call : PortCall) (s : State) : (ask call s).level = s.level := rfl

/-! ### `setMaskByte` -/

@[simp] theorem setMaskByte_mem (i : Nat) (v : Byte) (s : State) : (setMaskByte i v s).mem = s.mem := rfl
@[simp] theorem setMaskByte_msg (i : Nat) (v : Byte) (s : State) : (setMaskByte i v s).msg = s.msg := rfl
@[simp] theorem setMaskByte_maskLen (i : Nat) (v : Byte) (s : State) : (setMaskByte i v s).maskLen = BitVec.ofNat 64 (beInt ((beBytes s.maskLen.toNat 8).set i v)) := rfl
@[simp] theorem setMaskByte_out (i : Nat) (v : Byte) (s : State) : (setMaskByte i v s).out = s.out := rfl
@[simp] theorem setMaskByte_curCmd (i : Nat) (v : Byte) (s : State) : (setMaskByte i v s).curCmd = s.curCmd := rfl
@[simp] theorem setMaskByte_busy (i : Nat) (v : Byte) (s : State) : (setMaskByte i v s).busy = s.busy := rfl
@[simp] theorem setMaskByte_done (i : Nat) (v : Byte) (s : State) : (setMaskByte i v s).done = s.done := rfl
@[simp] theorem setMaskByte_err (i : Nat) (v : Byte) (s : State) : (setMaskByte i v s).err = s.err := rfl
@[simp] theorem setMaskByte_ecause (i : Nat) (v : Byte) (s : State) : (setMaskByte i v s).ecause = s.ecause := rfl
@[simp] theorem setMaskByte_phase (i : Nat) (v : Byte) (s : State) : (setMaskByte i v s).phase = s.phase := rfl
@[simp] theorem setMaskByte_work (i : Nat) (v : Byte) (s : State) : (setMaskByte i v s).work = s.work := rfl
@[simp] theorem setMaskByte_pend (i : Nat) (v : Byte) (s : State) : (setMaskByte i v s).pend = s.pend := rfl
@[simp] theorem setMaskByte_agenda (i : Nat) (v : Byte) (s : State) : (setMaskByte i v s).agenda = s.agenda := rfl
@[simp] theorem setMaskByte_reads (i : Nat) (v : Byte) (s : State) : (setMaskByte i v s).reads = s.reads := rfl
@[simp] theorem setMaskByte_trace (i : Nat) (v : Byte) (s : State) : (setMaskByte i v s).trace = s.trace := rfl
@[simp] theorem setMaskByte_level (i : Nat) (v : Byte) (s : State) : (setMaskByte i v s).level = s.level := rfl

/-! ### `setOperandByte` -/

@[simp] theorem setOperandByte_mem (a : Nat) (v : Byte) (s : State) : (setOperandByte a v s).mem = memWrite s.mem a v := rfl
@[simp] theorem setOperandByte_msg (a : Nat) (v : Byte) (s : State) : (setOperandByte a v s).msg = s.msg := rfl
@[simp] theorem setOperandByte_maskLen (a : Nat) (v : Byte) (s : State) : (setOperandByte a v s).maskLen = s.maskLen := rfl
@[simp] theorem setOperandByte_out (a : Nat) (v : Byte) (s : State) : (setOperandByte a v s).out = s.out := rfl
@[simp] theorem setOperandByte_curCmd (a : Nat) (v : Byte) (s : State) : (setOperandByte a v s).curCmd = s.curCmd := rfl
@[simp] theorem setOperandByte_busy (a : Nat) (v : Byte) (s : State) : (setOperandByte a v s).busy = s.busy := rfl
@[simp] theorem setOperandByte_done (a : Nat) (v : Byte) (s : State) : (setOperandByte a v s).done = s.done := rfl
@[simp] theorem setOperandByte_err (a : Nat) (v : Byte) (s : State) : (setOperandByte a v s).err = s.err := rfl
@[simp] theorem setOperandByte_ecause (a : Nat) (v : Byte) (s : State) : (setOperandByte a v s).ecause = s.ecause := rfl
@[simp] theorem setOperandByte_phase (a : Nat) (v : Byte) (s : State) : (setOperandByte a v s).phase = s.phase := rfl
@[simp] theorem setOperandByte_work (a : Nat) (v : Byte) (s : State) : (setOperandByte a v s).work = s.work := rfl
@[simp] theorem setOperandByte_pend (a : Nat) (v : Byte) (s : State) : (setOperandByte a v s).pend = s.pend := rfl
@[simp] theorem setOperandByte_agenda (a : Nat) (v : Byte) (s : State) : (setOperandByte a v s).agenda = s.agenda := rfl
@[simp] theorem setOperandByte_reads (a : Nat) (v : Byte) (s : State) : (setOperandByte a v s).reads = s.reads := rfl
@[simp] theorem setOperandByte_trace (a : Nat) (v : Byte) (s : State) : (setOperandByte a v s).trace = s.trace := rfl
@[simp] theorem setOperandByte_level (a : Nat) (v : Byte) (s : State) : (setOperandByte a v s).level = s.level := rfl

/-! ### `resetMove` -/

@[simp] theorem resetMove_mem (s : State) : (resetMove s).mem = [] := rfl
@[simp] theorem resetMove_msg (s : State) : (resetMove s).msg = [] := rfl
@[simp] theorem resetMove_maskLen (s : State) : (resetMove s).maskLen = 0#64 := rfl
@[simp] theorem resetMove_out (s : State) : (resetMove s).out = [] := rfl
@[simp] theorem resetMove_curCmd (s : State) : (resetMove s).curCmd = 0x00#8 := rfl
@[simp] theorem resetMove_busy (s : State) : (resetMove s).busy = false := rfl
@[simp] theorem resetMove_done (s : State) : (resetMove s).done = false := rfl
@[simp] theorem resetMove_err (s : State) : (resetMove s).err = false := rfl
@[simp] theorem resetMove_ecause (s : State) : (resetMove s).ecause = 0x00#8 := rfl
@[simp] theorem resetMove_phase (s : State) : (resetMove s).phase = .idle := rfl
@[simp] theorem resetMove_work (s : State) : (resetMove s).work = Work.cleared := rfl
@[simp] theorem resetMove_pend (s : State) : (resetMove s).pend = none := rfl
@[simp] theorem resetMove_agenda (s : State) : (resetMove s).agenda = s.agenda := rfl
@[simp] theorem resetMove_reads (s : State) : (resetMove s).reads = s.reads := rfl
@[simp] theorem resetMove_trace (s : State) : (resetMove s).trace = s.trace := rfl
@[simp] theorem resetMove_level (s : State) : (resetMove s).level = s.level := rfl

/-! ### `scheduleCommand` -/

@[simp] theorem scheduleCommand_mem (op : Byte) (s : State) : (scheduleCommand op s).mem = s.mem := rfl
@[simp] theorem scheduleCommand_msg (op : Byte) (s : State) : (scheduleCommand op s).msg = s.msg := rfl
@[simp] theorem scheduleCommand_maskLen (op : Byte) (s : State) : (scheduleCommand op s).maskLen = s.maskLen := rfl
@[simp] theorem scheduleCommand_out (op : Byte) (s : State) : (scheduleCommand op s).out = s.out := rfl
@[simp] theorem scheduleCommand_curCmd (op : Byte) (s : State) : (scheduleCommand op s).curCmd = s.curCmd := rfl
@[simp] theorem scheduleCommand_busy (op : Byte) (s : State) : (scheduleCommand op s).busy = s.busy := rfl
@[simp] theorem scheduleCommand_done (op : Byte) (s : State) : (scheduleCommand op s).done = s.done := rfl
@[simp] theorem scheduleCommand_err (op : Byte) (s : State) : (scheduleCommand op s).err = s.err := rfl
@[simp] theorem scheduleCommand_ecause (op : Byte) (s : State) : (scheduleCommand op s).ecause = s.ecause := rfl
@[simp] theorem scheduleCommand_phase (op : Byte) (s : State) : (scheduleCommand op s).phase = s.phase := rfl
@[simp] theorem scheduleCommand_work (op : Byte) (s : State) : (scheduleCommand op s).work = s.work := rfl
@[simp] theorem scheduleCommand_pend (op : Byte) (s : State) : (scheduleCommand op s).pend = s.pend := rfl
@[simp] theorem scheduleCommand_agenda (op : Byte) (s : State) : (scheduleCommand op s).agenda = .hostWrite 0x0000#14 op :: s.agenda := rfl
@[simp] theorem scheduleCommand_reads (op : Byte) (s : State) : (scheduleCommand op s).reads = s.reads := rfl
@[simp] theorem scheduleCommand_trace (op : Byte) (s : State) : (scheduleCommand op s).trace = s.trace := rfl
@[simp] theorem scheduleCommand_level (op : Byte) (s : State) : (scheduleCommand op s).level = s.level := rfl

end Sys2Proof.Machine
end

