-- ==== Sys2Proof/Laws/Ops.lean ====
section
/-! SUPPORT. For each shared operation, once, everything it can do: the two ends of a command, the levels and the busy
gate of a command, the functions behind the commands, and the cases of a step. -/

namespace Sys2Proof.Machine

/-! ### The shared operations of a command -/

/-- A command: ignored while busy, run whole at the big-step level, started at the small-step level. -/
theorem command_cases (whole start : State → State) (s : State) :
    (s.busy = true ∧ command whole start s = s) ∨
    (s.busy = false ∧ s.level = .bigStep ∧ command whole start s = whole s) ∨
    (s.busy = false ∧ s.level = .smallStep ∧ command whole start s = start s) := by
  unfold command
  cases hb : s.busy <;> cases hl : s.level <;> simp

@[simp] theorem command_busy {whole start : State → State} {s : State} (h : s.busy = true) :
    command whole start s = s := by simp [command, h]

theorem command_bigStep {whole start : State → State} {s : State} (h : s.busy = false) (hl : s.level = .bigStep) :
    command whole start s = whole s := by simp [command, h, hl]

theorem command_smallStep {whole start : State → State} {s : State} (h : s.busy = false) (hl : s.level = .smallStep) :
    command whole start s = start s := by simp [command, h, hl]

@[simp] theorem finish_ok (v : Bytes) (s : State) : finish (.ok v) s = endOk v s := rfl
@[simp] theorem finish_error (k : ErrorKind) (s : State) : finish (.error k) s = endErr k s := rfl

/-- A command's end is one of the two ends. -/
theorem finish_cases (r : Except ErrorKind Bytes) (s : State) :
    (∃ v, r = .ok v ∧ finish r s = endOk v s) ∨ (∃ k, r = .error k ∧ finish r s = endErr k s) := by
  cases r with
  | ok v => exact .inl ⟨v, rfl, rfl⟩
  | error k => exact .inr ⟨k, rfl, rfl⟩

@[simp] theorem finish_mem (r : Except ErrorKind Bytes) (s : State) : (finish r s).mem = s.mem := by cases r <;> rfl
@[simp] theorem finish_msg (r : Except ErrorKind Bytes) (s : State) : (finish r s).msg = s.msg := by cases r <;> rfl
@[simp] theorem finish_maskLen (r : Except ErrorKind Bytes) (s : State) : (finish r s).maskLen = s.maskLen := by
  cases r <;> rfl
@[simp] theorem finish_curCmd (r : Except ErrorKind Bytes) (s : State) : (finish r s).curCmd = s.curCmd := by
  cases r <;> rfl
@[simp] theorem finish_busy (r : Except ErrorKind Bytes) (s : State) : (finish r s).busy = false := by cases r <;> rfl
@[simp] theorem finish_done (r : Except ErrorKind Bytes) (s : State) : (finish r s).done = true := by cases r <;> rfl
@[simp] theorem finish_phase (r : Except ErrorKind Bytes) (s : State) : (finish r s).phase = .idle := by cases r <;> rfl
@[simp] theorem finish_work (r : Except ErrorKind Bytes) (s : State) : (finish r s).work = Work.cleared := by
  cases r <;> rfl
@[simp] theorem finish_pend (r : Except ErrorKind Bytes) (s : State) : (finish r s).pend = none := by cases r <;> rfl
@[simp] theorem finish_agenda (r : Except ErrorKind Bytes) (s : State) : (finish r s).agenda = s.agenda := by
  cases r <;> rfl
@[simp] theorem finish_reads (r : Except ErrorKind Bytes) (s : State) : (finish r s).reads = s.reads := by
  cases r <;> rfl
@[simp] theorem finish_trace (r : Except ErrorKind Bytes) (s : State) : (finish r s).trace = s.trace := by
  cases r <;> rfl
@[simp] theorem finish_level (r : Except ErrorKind Bytes) (s : State) : (finish r s).level = s.level := by
  cases r <;> rfl

/-- No error kind has the code 0x00 (rule R104). -/
theorem errorCode_ne_zero (k : ErrorKind) : errorCode k ≠ 0x00#8 := by cases k <;> decide

/-- The codes are distinct (rule R104). -/
theorem errorCode_injective {j k : ErrorKind} (h : errorCode j = errorCode k) : j = k := by
  cases j <;> cases k <;> first | rfl | exact absurd h (by decide)

/-! ### The functions behind the commands -/

/-- `rsa_transform` fails exactly on the range check, and a result has `kLen` bytes (rules R142, R145). -/
theorem rsaTransform_cases (p : Params) (m k n : Bytes) :
    (beInt n ≤ beInt m ∧ rsaTransform p m k n = .error .messageOutOfRange) ∨
    (beInt m < beInt n ∧
      rsaTransform p m k n = .ok (beBytes (modexp p (beInt m) (beInt k) (beInt n)) p.kLen)) := by
  unfold rsaTransform
  split
  · exact .inl ⟨‹_›, rfl⟩
  · exact .inr ⟨by omega, rfl⟩

/-- `mgf` fails exactly beyond the bound (rule R162). -/
theorem mgf_cases (p : Params) (seed : Bytes) (maskLen : Nat) :
    (p.maskBound < maskLen ∧ mgf p seed maskLen = .error .maskTooLong) ∨
    (maskLen ≤ p.maskBound ∧ mgf p seed maskLen = .ok ((mgfBlocks p seed (mgfCount p maskLen)).take maskLen)) := by
  unfold mgf
  split
  · exact .inl ⟨‹_›, rfl⟩
  · exact .inr ⟨by omega, rfl⟩

@[simp] theorem mgfBlocks_zero (p : Params) (seed : Bytes) : mgfBlocks p seed 0 = [] := rfl

/-- One more block is one more digest (rule R163). -/
theorem mgfBlocks_succ (p : Params) (seed : Bytes) (q : Nat) :
    mgfBlocks p seed (q + 1) = mgfBlocks p seed q ++ p.hash (mgfInput seed q) := by
  simp [mgfBlocks, List.range_succ]

@[simp] theorem mgfBlocks_length (p : Params) (seed : Bytes) (q : Nat) :
    (mgfBlocks p seed q).length = q * p.hLen := by
  induction q with
  | zero => simp
  | succ q ih => rw [mgfBlocks_succ, List.length_append, ih, hash_length]; ring

/-- The number of hash calls is enough for the mask (rule R163). -/
theorem le_mgfCount_mul (p : Params) (h : 1 ≤ p.hLen) (maskLen : Nat) : maskLen ≤ mgfCount p maskLen * p.hLen := by
  have h1 := Nat.div_add_mod (maskLen + p.hLen - 1) p.hLen
  have h2 := Nat.mod_lt (maskLen + p.hLen - 1) (show 0 < p.hLen by omega)
  have h3 : p.hLen * ((maskLen + p.hLen - 1) / p.hLen) = mgfCount p maskLen * p.hLen := by
    rw [mgfCount, Nat.mul_comm]
  omega

/-- A mask has the requested length (rule R164). -/
theorem mgf_ok_length {p : Params} (h : 1 ≤ p.hLen) {seed : Bytes} {maskLen : Nat} {t : Bytes}
    (ht : mgf p seed maskLen = .ok t) : t.length = maskLen := by
  rcases mgf_cases p seed maskLen with ⟨_, he⟩ | ⟨_, he⟩
  · rw [he] at ht; cases ht
  · rw [he] at ht
    cases ht
    have := le_mgfCount_mul p h maskLen
    simp only [List.length_take, mgfBlocks_length]
    omega

/-- The only results of step 8 and 9 (rules R218, R224). -/
theorem verifyHash_cases (p : Params) (message salt h : Bytes) :
    (p.hashMaxLen < message.length ∧ verifyHash p message salt h = .error .messageTooLong) ∨
    (message.length ≤ p.hashMaxLen ∧ difference (saltedHash p message salt) h ≠ 0x00#8 ∧
      verifyHash p message salt h = .error .hashMismatch) ∨
    (message.length ≤ p.hashMaxLen ∧ difference (saltedHash p message salt) h = 0x00#8 ∧
      verifyHash p message salt h = .ok ()) := by
  unfold verifyHash
  split
  · exact .inl ⟨‹_›, rfl⟩
  · split
    · exact .inr (.inl ⟨by omega, ‹_›, rfl⟩)
    · exact .inr (.inr ⟨by omega, not_not.1 ‹_›, rfl⟩)

/-! ### What a step can do -/

/-- A step is the due move when nothing is scheduled, else the move scheduled first. -/
theorem step_cases (s : State) :
    (s.agenda = [] ∧ step s = .next (dueMove Config.params s)) ∨
    (∃ e rest, s.agenda = e :: rest ∧ step s = move e { s with agenda := rest }) := by
  cases h : s.agenda with
  | nil => exact .inl ⟨rfl, by simp [step, nextMove, h]⟩
  | cons e rest => exact .inr ⟨e, rest, rfl, by simp [step, nextMove, h]⟩

/-- Every command answers a next state, whatever the state (rule R274). -/
theorem exec_next (i : Instr) (s : State) :
    exec i s = .next (match i with
      | .clear => clearCommand s
      | .rsa => rsaCommand Config.params s
      | .mgf => mgfCommand Config.params s
      | .sign => signCommand Config.params s
      | .verify => verifyCommand Config.params s) := by
  cases i <;> rfl

/-- A decoded byte is the command's encoding (rule R101). -/
theorem encode_of_decode {op : Byte} {i : Instr} (h : decode op = .ok i) : encode i = op := by
  unfold decode at h
  repeat' split at h
  all_goals first | (cases h; symm; assumption) | cases h

/-- A write of `CMD`: a command, or an illegal byte (rules R101, R102). -/
theorem writeCmd_cases (op : Byte) (s : State) :
    (∃ i, decode op = .ok i ∧ writeCmd op s = exec i s) ∨
    (decode op = .error (.illegalCommand op) ∧ writeCmd op s = .next (illegalCommand op s)) := by
  unfold writeCmd
  cases h : decode op with
  | ok i => exact .inl ⟨i, rfl, rfl⟩
  | error e =>
    refine .inr ?_
    unfold decode at h
    repeat' split at h
    all_goals first | (cases h; exact ⟨rfl, rfl⟩) | cases h

/-- A host write: of `CMD`, or of a byte behind the busy gate (rules R65, R67). -/
theorem hostWrite_cases (a : Addr) (v : Byte) (s : State) :
    (locate Config.params a = .cmd ∧ hostWrite a v s = writeCmd v s) ∨
    (locate Config.params a ≠ .cmd ∧ hostWrite a v s = .next (gatedWrite v (locate Config.params a) s)) := by
  unfold hostWrite
  cases h : locate Config.params a <;> simp

/-- An address inside the control registers' part of the map (rule R61). -/
theorem locate_control {p : Params} {a : Addr} (h : a.toNat < 0x1000) :
    locate p a = controlMap.getD a.toNat .reserved := by simp [locate, h]

/-- An address from 0x0023 to 0x0FFF is reserved (rules R61, R66). -/
theorem locate_control_reserved {p : Params} {a : Addr} (h : 0x0023 ≤ a.toNat) (h' : a.toNat < 0x1000) :
    locate p a = .reserved := by
  rw [locate_control h', List.getD_eq_default]
  exact h

/-- The address of byte `i` of `OPM` (rule R61). -/
theorem locate_opm {p : Params} {i : Nat} (h : i < p.kLen) (hk : p.kLen ≤ 4096) :
    locate p (BitVec.ofNat 14 (opmBase + i)) = .opm i := by
  have hn : (BitVec.ofNat 14 (opmBase + i)).toNat = opmBase + i := by
    rw [BitVec.toNat_ofNat, Nat.mod_eq_of_lt]; unfold opmBase; omega
  rw [locate, hn, if_neg (by unfold opmBase; omega), if_pos (by unfold opmBase; omega), windowLoc,
    if_pos (by omega), Nat.add_sub_cancel_left]

/-- The address of byte `i` of `OPK` (rule R61). -/
theorem locate_opk {p : Params} {i : Nat} (h : i < p.kLen) (hk : p.kLen ≤ 4096) :
    locate p (BitVec.ofNat 14 (opkBase + i)) = .opk i := by
  have hn : (BitVec.ofNat 14 (opkBase + i)).toNat = opkBase + i := by
    rw [BitVec.toNat_ofNat, Nat.mod_eq_of_lt]; unfold opkBase; omega
  rw [locate, hn, if_neg (by unfold opkBase; omega), if_neg (by unfold opkBase; omega),
    if_pos (by unfold opkBase; omega), windowLoc, if_pos (by omega), Nat.add_sub_cancel_left]

/-- The address of byte `i` of `OPN` (rule R61). -/
theorem locate_opn {p : Params} {i : Nat} (h : i < p.kLen) (hk : p.kLen ≤ 4096) :
    locate p (BitVec.ofNat 14 (opnBase + i)) = .opn i := by
  have hn : (BitVec.ofNat 14 (opnBase + i)).toNat = opnBase + i := by
    rw [BitVec.toNat_ofNat, Nat.mod_eq_of_lt]; unfold opnBase; omega
  rw [locate, hn, if_neg (by unfold opnBase; omega), if_neg (by unfold opnBase; omega),
    if_neg (by unfold opnBase; omega), windowLoc, if_pos (by omega), Nat.add_sub_cancel_left]

/-- A window offset is a byte of the register, below `kLen`, or reserved. -/
theorem windowLoc_cases (p : Params) (inside : Nat → Loc) (i : Nat) :
    (i < p.kLen ∧ windowLoc p inside i = inside i) ∨ (p.kLen ≤ i ∧ windowLoc p inside i = .reserved) := by
  unfold windowLoc
  split
  · exact .inl ⟨‹_›, rfl⟩
  · exact .inr ⟨by omega, rfl⟩

/-- Only address 0x0000 is `CMD` (rule R61). -/
theorem locate_eq_cmd {p : Params} {a : Addr} : locate p a = .cmd ↔ a = 0x0000#14 := by
  constructor
  · intro h
    apply BitVec.eq_of_toNat_eq
    by_cases h1 : a.toNat < 0x1000
    · rw [locate_control h1] at h
      by_cases h2 : a.toNat < 0x23
      · have key : ∀ n < 0x23, controlMap.getD n .reserved = .cmd → n = 0 := by decide
        exact key _ h2 h
      · rw [List.getD_eq_default _ _ (Nat.le_of_not_lt h2)] at h
        cases h
    · exfalso
      unfold locate at h
      rw [if_neg h1] at h
      split at h
      · rcases windowLoc_cases p .opm (a.toNat - opmBase) with ⟨-, he⟩ | ⟨-, he⟩ <;> rw [he] at h <;> cases h
      · split at h
        · rcases windowLoc_cases p .opk (a.toNat - opkBase) with ⟨-, he⟩ | ⟨-, he⟩ <;> rw [he] at h <;> cases h
        · rcases windowLoc_cases p .opn (a.toNat - opnBase) with ⟨-, he⟩ | ⟨-, he⟩ <;> rw [he] at h <;> cases h
  · rintro rfl
    rfl

end Sys2Proof.Machine
end

