-- ==== Sys2Proof/Laws/Moves.lean ====
section
/-! SUPPORT. What a move of each agent can do: the sequencer's and the collaborators' moves, and the moves while the
block is busy. -/

namespace Sys2Proof.Machine

theorem MoveKept.refl (s : State) : MoveKept s s :=
  ⟨rfl, rfl, rfl, rfl, rfl, rfl, rfl, .inl ⟨rfl, rfl, rfl, rfl, rfl⟩⟩

theorem moveKept_endErr (k : ErrorKind) (s : State) : MoveKept s (endErr k s) :=
  ⟨rfl, rfl, rfl, rfl, rfl, rfl, rfl, .inr ⟨rfl, rfl⟩⟩

theorem moveKept_endOk (v : Bytes) (s : State) : MoveKept s (endOk v s) :=
  ⟨rfl, rfl, rfl, rfl, rfl, rfl, rfl, .inr ⟨rfl, rfl⟩⟩

/-- What a phase does: transients, phase and call alone, or the end of the command (rule R31). -/
theorem phaseStep_kept (p : Params) (s : State) : MoveKept s (phaseStep p s) := by
  unfold phaseStep
  split
  case h_3 => unfold rangePhase; split; exact moveKept_endErr ..; exact .refl s
  case h_4 => unfold expPhase; split <;> exact .refl s
  case h_5 => unfold exportPhase; dsimp only; split; exact .refl s; exact moveKept_endOk ..
  case h_6 => unfold boundPhase; split; exact moveKept_endErr ..; exact .refl s
  case h_7 => unfold loopPhase; split <;> exact .refl s
  case h_8 =>
    unfold truncPhase
    dsimp only
    split
    · exact .refl s
    · split
      · exact .refl s
      · exact moveKept_endOk ..
  case h_9 => unfold lenPhase; split; exact moveKept_endErr ..; exact .refl s
  case h_16 => unfold sizePhase; split; exact moveKept_endErr ..; exact .refl s
  case h_21 => unfold trailerPhase; split; exact moveKept_endErr ..; exact .refl s
  case h_22 => unfold leadbitPhase; split; exact moveKept_endErr ..; exact .refl s
  case h_26 => unfold padPhase; split; exact .refl s; exact moveKept_endErr ..
  case h_28 => unfold guardPhase; split; exact moveKept_endErr ..; exact .refl s
  case h_31 => unfold cmpPhase; split; exact moveKept_endErr ..; exact .refl s
  case h_32 => exact moveKept_endOk ..
  all_goals exact .refl s

/-- What an answer does: transients and phase alone (rule R34). -/
theorem completePhase_kept (bytes : Bytes) (s : State) : MoveKept s (completePhase bytes s) := by
  unfold completePhase
  split <;> exact .refl s

theorem sequencerMove_kept (p : Params) (s : State) : MoveKept s (sequencerMove p s) := by
  unfold sequencerMove
  split
  · exact .refl s
  · exact phaseStep_kept p s

theorem answerMove_kept (p : Params) (s : State) : MoveKept s (answerMove p s) := by
  unfold answerMove
  split
  · exact .refl s
  · exact completePhase_kept _ { s with pend := none }

theorem dueMove_kept (p : Params) (s : State) : MoveKept s (dueMove p s) := by
  unfold dueMove
  split
  · exact answerMove_kept p s
  · exact sequencerMove_kept p s

/-- An answer makes no port call. -/
@[simp] theorem completePhase_trace (bytes : Bytes) (s : State) : (completePhase bytes s).trace = s.trace := by
  unfold completePhase
  split <;> rfl

/-- A step with a move scheduled is that move. -/
theorem step_cons {s : State} {e : Event} {rest : List Event} (h : s.agenda = e :: rest) :
    step s = move e { s with agenda := rest } := by simp [step, nextMove, h]

/-- While busy a command is ignored (rule R67). -/
theorem exec_busy (i : Instr) {s : State} (h : s.busy = true) : exec i s = .next s := by
  rw [exec_next]
  cases i <;>
    simp [clearCommand, rsaCommand, mgfCommand, signCommand, verifyCommand, h]

/-- While busy every host write is ignored (rule R67). -/
theorem hostWrite_busy (a : Addr) (v : Byte) {s : State} (h : s.busy = true) : hostWrite a v s = .next s := by
  rcases hostWrite_cases a v s with ⟨-, hw⟩ | ⟨-, hw⟩
  · rcases writeCmd_cases v s with ⟨i, -, hc⟩ | ⟨-, hc⟩
    · rw [hw, hc, exec_busy i h]
    · rw [hw, hc]; simp [illegalCommand, h]
  · rw [hw]; simp [gatedWrite, h]

end Sys2Proof.Machine
end

