-- ==== Sys2Proof/Laws/PerInstr.lean ====
section
/-! SUPPORT. Statements made once per command: the one-byte encodings. -/

namespace Sys2Proof.Laws.Opcodes

/-- A command is well formed, and its opcode is one of the five the map gives a command (rules R100, R101). -/
def Statement (i : Instr) : Prop := i.wellFormed = true ∧ (encode i).toNat ≤ 4

theorem clear : Statement .clear := ⟨rfl, by decide⟩
theorem rsa : Statement .rsa := ⟨rfl, by decide⟩
theorem mgf : Statement .mgf := ⟨rfl, by decide⟩
theorem sign : Statement .sign := ⟨rfl, by decide⟩
theorem verify : Statement .verify := ⟨rfl, by decide⟩

end Sys2Proof.Laws.Opcodes
end

