-- ==== Sys2Proof/Tests/Slice0.lean ====
section
/-! SUPPORT. The model's own tests: the instances rule R7 refuses, the command bytes, the derived vectors of
spec/95_test_vectors.md, and a witness for the hypotheses of every statement. -/

namespace Sys2Proof.Tests

open Sys2Proof Sys2Proof.Machine

/-! ### Small instances -/

/-- `TH16` (spec/95_test_vectors.md section 2.1): the two running sums. -/
def th16 (x : Bytes) : Nat × Nat :=
  x.foldl (fun s b => ((s.1 + b.toNat) % 251, (s.2 + (s.1 + b.toNat) % 251) % 251)) (1, 0)

/-- The instance of spec/95_test_vectors.md with `K = 56`, a hash bound and the salt the random port answers. -/
def toy (bound : Nat) (salt : Bytes) (diag : Bool) : Params where
  K := 56
  hLen := 2
  hashMaxLen := bound
  diagEn := diag
  digestByte x i := if i = 0 then BitVec.ofNat 8 (th16 x).2 else BitVec.ofNat 8 (th16 x).1
  drawByte _ i := salt.getD i 0x00#8

/-- The usual one: `hashMaxLen = 2^61 - 1`, salt 5ac3, `DIAG_EN = 1`. -/
def toy56 : Params := toy (2 ^ 61 - 1) [0x5a#8, 0xc3#8] true

/-- An instance of the smallest sizes, with a hash that answers zeros, for the claims about keys. -/
def tiny : Params where
  K := 40
  hLen := 1
  hashMaxLen := 10
  diagEn := false
  digestByte _ _ := 0x00#8
  drawByte _ _ := 0x07#8

/-- A register filled with the bytes of a number. -/
def load (L base v : Nat) (s : State) : State :=
  (beBytes v L).zipIdx.foldl (fun s b => setOperandByte (base + b.2) b.1 s) s

/-- A state with the three operand registers of `L` bytes filled. -/
def operands (L m k n : Nat) : State := load L opmBase m (load L opkBase k (load L opnBase n State.reset))

/-- "abc". -/
def abc : Bytes := [0x61#8, 0x62#8, 0x63#8]

/-- `KEY56`'s modulus. -/
def n56 : Nat := 0x90ab411ac4d10d

/-- `KEY56`'s private exponent. -/
def d56 : Nat := 0x1c633e726d8701

/-- What a test looks at: `STATUS`, `ERRCODE`, `OUT` as a number with its length, the number of port calls. -/
def seen (p : Params) (s : State) : Byte × Byte × Nat × Nat × Nat :=
  (statusByte s, errcode p s, beInt s.out, s.out.length, s.trace.length)

/-! ### Rule R7: an ill-formed instance for each check is refused -/

theorem test_built : (Instance.build toy56).isSome = true ∧ (Instance.build tiny).isSome = true := by decide

theorem test_refused_K_not_multiple_of_8 : (Instance.build { toy56 with K := 57 }).isSome = false := by decide

theorem test_refused_empty_digest : (Instance.build { toy56 with hLen := 0 }).isSome = false := by decide

/-- `K = 48`, `PS_LEN = 0` (spec/95_test_vectors.md section 2.8). -/
theorem test_refused_no_padding_byte : (Instance.build { toy56 with K := 48 }).isSome = false := by decide

theorem test_refused_hash_bound_too_small : (Instance.build { toy56 with hashMaxLen := 11 }).isSome = false := by decide

theorem test_refused_operand_over_window : (Instance.build { toy56 with K := 8 * 4097 }).isSome = false := by decide

theorem test_refused_digest_over_register : (Instance.build { toy56 with hLen := 65536 }).isSome = false := by decide

theorem test_refused_hash_bound_over_64_bits :
    (Instance.build { toy56 with hashMaxLen := 2 ^ 64 }).isSome = false := by decide

/-! ### Command bytes, from the opcode map of rule R101 -/

theorem test_decode_clear : decodeTableWord 8 0b00000000 = some .clear := by decide
theorem test_decode_rsa : decodeTableWord 8 0b00000001 = some .rsa := by decide
theorem test_decode_mgf : decodeTableWord 8 0b00000010 = some .mgf := by decide
theorem test_decode_sign : decodeTableWord 8 0b00000011 = some .sign := by decide
theorem test_decode_verify : decodeTableWord 8 0b00000100 = some .verify := by decide

/-- 0x05 and 0xFF name no command (rule R102). -/
theorem test_decode_illegal : decodeTableWord 8 0b00000101 = none ∧ decodeTableWord 8 0b11111111 = none := by decide

/-- A command byte placed after reset runs as the first step. -/
theorem test_step_runs_placed_command :
    step (State.reset.withFetchWord 8 0b00000001) = exec .rsa State.reset ∧
    step (State.reset.withFetchWord 8 0b00000011) = exec .sign State.reset := ⟨rfl, rfl⟩

/-! ### The register interface (spec/95_test_vectors.md section 2.10) -/

/-- V-REG-2: `CFG_KLEN`, `CFG_HLEN`, `CFG_FLAGS`. -/
theorem test_config_registers :
    [0x0004#14, 0x0005#14, 0x0006#14, 0x0007#14, 0x0022#14].map (fun a => readByte toy56 State.reset (locate toy56 a))
      = [0x00#8, 0x07#8, 0x00#8, 0x02#8, 0x01#8] := by decide

/-- V-REG-3: a byte of `OPM`, and offset `kLen`, which is reserved. -/
theorem test_operand_window :
    let s := gatedWrite 0x55#8 (locate toy56 0x1007#14) (gatedWrite 0xaa#8 (locate toy56 0x1000#14) State.reset)
    readByte toy56 s (locate toy56 0x1000#14) = 0xaa#8 ∧ readByte toy56 s (locate toy56 0x1007#14) = 0x00#8 := by decide

/-- V-REG-5: `MASK_LEN` is big-endian. -/
theorem test_mask_len_big_endian :
    (gatedWrite 0x01#8 (locate toy56 0x0010#14) (gatedWrite 0x05#8 (locate toy56 0x0017#14) State.reset)).maskLen
      = 0x0100000000000005#64 := by decide

/-- V-REG-7 and V-REG-8: an illegal byte, then CLEAR. -/
theorem test_illegal_then_clear :
    seen toy56 (illegalCommand 0x05#8 State.reset) = (0x06#8, 0x0f#8, 0, 0, 0) ∧
    (illegalCommand 0x05#8 State.reset).curCmd = 0x05#8 ∧
    seen toy56 (clearCommand (illegalCommand 0x05#8 State.reset)) = (0x00#8, 0x00#8, 0, 0, 0) ∧
    (clearCommand (illegalCommand 0x05#8 State.reset)).curCmd = 0x00#8 := by decide

/-! ### The commands (spec/95_test_vectors.md sections 2.2 to 2.6) -/

/-- V-RSA-20 and V-RSA-25. -/
theorem test_rsa_power :
    seen toy56 (rsaCommand toy56 (operands 7 0x41 0x10001 n56)) = (0x02#8, 0x00#8, 0x16fbc6093a81c6, 7, 0) ∧
    seen toy56 (rsaCommand toy56 (operands 7 (n56 - 1) 0x10001 n56)) = (0x02#8, 0x00#8, n56 - 1, 7, 0) := by
  decide +kernel

/-- V-RSA-24 and V-RSA-27. -/
theorem test_rsa_range :
    seen toy56 (rsaCommand toy56 (operands 7 n56 0x10001 n56)) = (0x06#8, 0x01#8, 0, 0, 0) ∧
    seen toy56 (rsaCommand toy56 State.reset) = (0x06#8, 0x01#8, 0, 0, 0) := by decide +kernel

/-- V-MGF-8 and V-MGF-14. -/
theorem test_mgf_mask :
    seen toy56 (mgfCommand toy56 { State.reset with msg := [0xa1#8, 0xb2#8], maskLen := 5#64 })
      = (0x02#8, 0x00#8, 0x69596a5a6b, 5, 3) ∧
    seen (toy 12 [] true) (mgfCommand (toy 12 [] true) { State.reset with msg := beBytes 0x0102030405060708 8, maskLen := 3#64 })
      = (0x02#8, 0x00#8, 0x19251a, 3, 2) := by decide +kernel

/-- V-MGF-12 and V-MGF-15: the guard comes before the bound. -/
theorem test_mgf_errors :
    seen toy56 (mgfCommand toy56 { State.reset with msg := [0xa1#8, 0xb2#8], maskLen := 0x0000000200000001#64 })
      = (0x06#8, 0x04#8, 0, 0, 0) ∧
    seen (toy 12 [] true) (mgfCommand (toy 12 [] true) { State.reset with msg := zeros 9, maskLen := 0xffffffffffffffff#64 })
      = (0x06#8, 0x02#8, 0, 0, 0) := by decide +kernel

/-- V-SIGN-1, with its port trace, and V-SIGN-3, where step 9 clears a set bit. -/
theorem test_sign_signature :
    seen toy56 (signCommand toy56 { operands 7 0 d56 n56 with msg := abc }) = (0x02#8, 0x00#8, 0x37c8ebc5f3ba81, 7, 5) ∧
    (signCommand toy56 { operands 7 0 d56 n56 with msg := abc }).trace =
      [.hash abc, .rng 2, .hash (beBytes 0x0000000000000000572c5ac3 12), .hash (beBytes 0x72a600000000 6),
        .hash (beBytes 0x72a600000001 6)] ∧
    (signCommand (toy (2 ^ 61 - 1) [0xff#8, 0xff#8] true) { operands 7 0 d56 n56 with msg := abc }).out
      = beBytes 0x8d97b3ca5b596e 7 := by decide +kernel

/-- V-SIGN-4 and V-SIGN-6. -/
theorem test_sign_errors :
    seen toy56 (signCommand toy56 { operands 7 0 d56 0xca1 with msg := abc }) = (0x06#8, 0x01#8, 0, 0, 5) ∧
    seen (toy 12 [] true) (signCommand (toy 12 [] true) { operands 7 0 d56 n56 with msg := zeros 13 })
      = (0x06#8, 0x02#8, 0, 0, 0) := by decide +kernel

/-- V-VER-1 and V-VER-8 accept. -/
theorem test_verify_accepts :
    seen toy56 (verifyCommand toy56 { operands 7 0x37c8ebc5f3ba81 0x10001 n56 with msg := abc })
      = (0x02#8, 0x00#8, 0, 0, 4) ∧
    seen toy56 (verifyCommand toy56 { operands 7 0x244eba2175add1 0x10001 n56 with msg := abc })
      = (0x02#8, 0x00#8, 0, 0, 4) := by decide +kernel

/-- One vector for each rejection: V-VER-9, 17, 18, 6, 12, 2; and V-VER-2 with `DIAG_EN = 0`. -/
theorem test_verify_rejects :
    [n56, 0x491bd230ef1986, 0x4f68d4732a97f3, 0x27b1868a9a3829].map (fun m =>
        seen toy56 (verifyCommand toy56 { operands 7 m 0x10001 n56 with msg := abc }))
      = [(0x06#8, 0x01#8, 0, 0, 0), (0x06#8, 0x05#8, 0, 0, 0), (0x06#8, 0x06#8, 0, 0, 0), (0x06#8, 0x07#8, 0, 0, 2)] ∧
    seen (toy 12 [] true) (verifyCommand (toy 12 [] true)
        { operands 7 0x6fa70672163106 0x10001 n56 with msg := beBytes 0x303132333435363738393a3b3c 13 })
      = (0x06#8, 0x02#8, 0, 0, 2) ∧
    [true, false].map (fun diag => seen (toy (2 ^ 61 - 1) [] diag) (verifyCommand (toy (2 ^ 61 - 1) [] diag)
        { operands 7 0x37c8ebc5f3ba81 0x10001 n56 with msg := [0x61#8, 0x62#8, 0x64#8] }))
      = [(0x06#8, 0x08#8, 0, 0, 4), (0x06#8, 0x10#8, 0, 0, 4)] := by decide +kernel

/-- P5: SIGN started in the reset state, two sequencer steps on: the hash call is in flight, a write is ignored, and the
answer completes the phase. -/
theorem test_sign_phases :
    let s := sequencerMove toy56 (sequencerMove toy56 (signCommand toy56 { State.reset with level := .smallStep }))
    statusByte s = 0x01#8 ∧ s.pend = some (.hash []) ∧ gatedWrite 0xff#8 (locate toy56 0x3000#14) s = s ∧
    (answerMove toy56 s).phase = .s3Salt ∧ (answerMove toy56 s).work.mhash = [0x00#8, 0x01#8] := by decide

/-! ### States and keys the witnesses use -/

/-- Busy: a VERIFY just started. -/
def busyState : State := { verifyStart State.reset with level := .smallStep }

/-- Busy with a call in flight: MGF1's loop with the empty seed and one byte to go. -/
def waitingState : State :=
  { launch .m1Loop (beginCommand (encode .mgf) State.reset) with
    level := .smallStep, maskLen := 1#64, work := { Work.cleared with mgfLen := 1 },
    pend := some (.hash (be32 0)), trace := [.hash (be32 0)] }

theorem test_reset_inv : Inv Config.params State.reset where
  memWf := rfl
  memIn := by simp [State.reset]
  msgFits := by simp [State.reset]
  outFits := by simp [State.reset]
  busyFlags := by simp [State.reset]
  errDone := by simp [State.reset]
  errCause := by simp [State.reset]
  cause := by simp [State.reset, causeLegal]
  busyPhase := by simp [State.reset]
  pending := by simp [State.reset]
  transients := rfl

theorem test_busy_inv : Inv Config.params busyState where
  memWf := rfl
  memIn := by simp [busyState, verifyStart, State.reset]
  msgFits := by simp [busyState, verifyStart, State.reset]
  outFits := by simp [busyState, verifyStart]
  busyFlags := fun _ => ⟨rfl, rfl, rfl⟩
  errDone := by simp [busyState, verifyStart]
  errCause := by simp [busyState, verifyStart]
  cause := by simp [busyState, verifyStart, causeLegal]
  busyPhase := by simp [busyState, verifyStart]
  pending := by simp [busyState, verifyStart, State.reset]
  transients := rfl

theorem test_waiting_inv : Inv Config.params waitingState where
  memWf := rfl
  memIn := by simp [waitingState, State.reset]
  msgFits := by simp [waitingState, State.reset]
  outFits := by simp [waitingState]
  busyFlags := fun _ => ⟨rfl, rfl, rfl⟩
  errDone := by simp [waitingState]
  errCause := by simp [waitingState]
  cause := by simp [waitingState, causeLegal]
  busyPhase := by simp [waitingState]
  pending := by
    intro c hc
    cases hc
    refine ⟨rfl, rfl, ?_⟩
    have := Config.params_valid.hash_ge
    have h4 : (be32 0).length = 4 := rfl
    simp only [PortCall.inDomain, h4]
    omega
  transients := by
    have := Config.params_valid.hash_ge
    have := Config.params_valid.hLen_pos
    refine ⟨⟨?_, by decide, .inl rfl⟩, ?_, by decide, rfl⟩
    · simp [waitingState, Work.cleared]; omega
    · simp [waitingState, Work.cleared, Params.maskBound]; omega

/-! ### Keys -/

/-- A 40-bit modulus with two 20-bit primes. -/
def n40 : Bytes := beBytes (1048573 * 1048571) 5

/-- Its public exponent. -/
def e40 : Bytes := beBytes 11 5

/-- Its private exponent. -/
def d40 : Bytes := beBytes 249886623191 5

/-- The block SIGN encodes on `tiny`, for every message. -/
def em40 : Bytes := [0x00#8, 0x01#8, 0x07#8, 0x00#8, 0xbc#8]

/-- `tiny` with 32 bits, so without a padding byte: `kLen = 4 = 2 * hLen + 2`. -/
def bare : Params := { tiny with K := 32 }

/-- A 32-bit modulus with two 16-bit primes. -/
def n32 : Bytes := beBytes (65521 * 65519) 4

/-- Its public exponent. -/
def e32 : Bytes := beBytes 11 4

/-- Its private exponent. -/
def d32 : Bytes := beBytes 1560996131 4

theorem test_key40 : ValidKey tiny e40 d40 n40 := by
  refine ⟨rfl, rfl, rfl, 1048573, 1048571, by norm_num, by norm_num, by norm_num, ?_⟩
  decide +kernel

theorem test_key32 : ValidKey bare e32 d32 n32 := by
  refine ⟨rfl, rfl, rfl, 65521, 65519, by norm_num, by norm_num, by norm_num, ?_⟩
  decide +kernel

/-! ### The witnesses -/

theorem test_witness_DecodeInvertsEncode :
    Instr.rsa.wellFormed = true ∧ decode 0x04#8 = .ok .verify ∧ 5 ≤ (0x05#8 : Byte).toNat ∧ 5 ≤ (0xff#8 : Byte).toNat :=
  ⟨rfl, rfl, by decide, by decide⟩

/-- A state whose next move is a host write of `CMD`, idle or busy, at either level. -/
theorem test_witness_OpcodeMapStarts :
    (scheduleCommand 0x04#8 State.reset).agenda = .hostWrite 0x0000#14 0x04#8 :: [] ∧
    (scheduleCommand 0x04#8 State.reset).busy = false ∧ (scheduleCommand 0x04#8 busyState).busy = true ∧
    (scheduleCommand 0x04#8 { State.reset with level := .smallStep }).level = .smallStep ∧
    (scheduleCommand 0x04#8 { State.reset with level := .smallStep }).busy = false :=
  ⟨rfl, rfl, rfl, rfl, rfl⟩

theorem test_witness_StepRunsDecodedCommand :
    (scheduleCommand 0x02#8 State.reset).agenda = .hostWrite 0x0000#14 0x02#8 :: [] ∧ decode 0x02#8 = .ok .mgf ∧
    Instr.mgf.wellFormed = true ∧ decodeTableWord 8 0x02 = some .mgf := ⟨rfl, rfl, rfl, rfl⟩

theorem test_witness_IllegalByteEndsAtOnce :
    (scheduleCommand 0x05#8 State.reset).agenda = .hostWrite 0x0000#14 0x05#8 :: [] ∧
    (scheduleCommand 0x05#8 State.reset).busy = false ∧ 5 ≤ (0x05#8 : Byte).toNat ∧ 5 ≤ (0xff#8 : Byte).toNat :=
  ⟨rfl, rfl, by decide, by decide⟩

theorem test_witness_MovesThatDoNothing :
    (State.reset.agenda = [] ∧ State.reset.pend = none ∧ State.reset.phase = .idle) ∧
    ({ waitingState with agenda := [.sequencer] }.agenda = .sequencer :: [] ∧
      { waitingState with agenda := [.sequencer] }.pend = some (.hash (be32 0))) ∧
    ({ State.reset with agenda := [.answer] }.agenda = .answer :: [] ∧
      { State.reset with agenda := [.answer] }.pend = none) ∧
    ({ waitingState with agenda := [.answer] }.agenda = .answer :: [] ∧
      { waitingState with agenda := [.answer] }.pend = some (.hash (be32 0))) :=
  ⟨⟨rfl, rfl, rfl⟩, ⟨rfl, rfl⟩, ⟨rfl, rfl⟩, rfl, rfl⟩

theorem test_witness_BusyGateDropsEveryWrite :
    { busyState with agenda := [.hostWrite 0x3000#14 0xff#8] }.busy = true ∧
    { busyState with agenda := [.hostWrite 0x3000#14 0xff#8] }.agenda = .hostWrite 0x3000#14 0xff#8 :: [] ∧
    (∀ rest, { busyState with agenda := [.hostWrite 0x3000#14 0xff#8] }.agenda ≠ .reset :: rest) ∧
    step { busyState with agenda := [.hostWrite 0x3000#14 0xff#8] } = .next busyState := by
  refine ⟨rfl, rfl, by simp, ?_⟩
  rw [step_cons rfl, move, hostWrite_busy _ _ rfl]
  rfl

/-- Both ends of each range of control addresses; the first offset past a register exists whenever `kLen` is below its
bound, and 0x3FFF is then reserved too. -/
theorem test_witness_ReservedAddressesInert :
    (0x0023 ≤ (0x0023#14 : Addr).toNat ∧ (0x0023#14 : Addr).toNat ≤ 0x0fff) ∧
    (0x0023 ≤ (0x0fff#14 : Addr).toNat ∧ (0x0fff#14 : Addr).toNat ≤ 0x0fff) ∧
    (0x0004 ≤ (0x0004#14 : Addr).toNat ∧ (0x0004#14 : Addr).toNat ≤ 0x000f) ∧
    (0x0004 ≤ (0x000f#14 : Addr).toNat ∧ (0x000f#14 : Addr).toNat ≤ 0x000f) ∧
    (0x0018 ≤ (0x0018#14 : Addr).toNat ∧ (0x0018#14 : Addr).toNat ≤ 0x001f) ∧
    (0x0018 ≤ (0x001f#14 : Addr).toNat ∧ (0x001f#14 : Addr).toNat ≤ 0x001f) ∧
    (Config.params.kLen < 4096 → 0x1000 + Config.params.kLen ≤ (0x1fff#14 : Addr).toNat ∧
      0x2000 + Config.params.kLen ≤ (0x2fff#14 : Addr).toNat ∧ 0x3000 + Config.params.kLen ≤ (0x3fff#14 : Addr).toNat) ∧
    { State.reset with agenda := [.hostRead 0x0023#14] }.agenda = .hostRead 0x0023#14 :: [] := by
  refine ⟨by decide, by decide, by decide, by decide, by decide, by decide, fun h => ?_, rfl⟩
  have h1 : (0x1fff#14 : Addr).toNat = 0x1fff := rfl
  have h2 : (0x2fff#14 : Addr).toNat = 0x2fff := rfl
  have h3 : (0x3fff#14 : Addr).toNat = 0x3fff := rfl
  omega

/-- On an instance with room past its registers, the first offset past each is reserved, the last one inside is not. -/
theorem test_reserved_window_edges :
    [0x1006#14, 0x1007#14, 0x1fff#14, 0x2006#14, 0x2007#14, 0x3006#14, 0x3007#14, 0x3fff#14].map (locate toy56)
      = [.opm 6, .reserved, .reserved, .opk 6, .reserved, .opn 6, .reserved, .reserved] := by decide +kernel

theorem test_witness_ReadsReturnCurrentValues :
    Inv Config.params busyState ∧ busyState.busy = true ∧ 4 < Config.params.kLen ∧
    { State.reset with agenda := [.hostRead 0x0021#14] }.agenda = .hostRead 0x0021#14 :: [] ∧
    (0x0023 ≤ (0x0fff#14 : Addr).toNat ∧ (0x0fff#14 : Addr).toNat ≤ 0x0fff) := by
  have := Config.params_valid.kLen_ge
  have := Config.params_valid.hLen_pos
  exact ⟨test_busy_inv, rfl, by omega, rfl, by decide⟩

theorem test_witness_PopsDeliverOutInOrder :
    { State.reset with out := abc, agenda := popn 3 }.agenda = popn abc.length ++ [] := rfl

theorem test_witness_MaskLenByteWrites :
    (7 < 8 ∧ State.reset.busy = false) ∧
    { State.reset with agenda := [.hostWrite 0x0017#14 0x05#8] }.agenda = .hostWrite (BitVec.ofNat 14 (0x0010 + 7)) 0x05#8 :: [] ∧
    { State.reset with agenda := [.hostWrite 0x0010#14 0x05#8] }.agenda = .hostWrite (BitVec.ofNat 14 (0x0010 + 0)) 0x05#8 :: [] :=
  ⟨⟨by decide, rfl⟩, rfl, rfl⟩

/-- The first and the last byte of `OPN`. -/
theorem test_witness_OperandByteWrites :
    Memory.wf State.reset.mem = true ∧ 0 < Config.params.kLen ∧ Config.params.kLen - 1 < Config.params.kLen ∧
    State.reset.busy = false ∧
    { State.reset with agenda := [.hostWrite (BitVec.ofNat 14 (opnBase + (Config.params.kLen - 1))) 0x05#8] }.agenda
      = .hostWrite (BitVec.ofNat 14 (opnBase + (Config.params.kLen - 1))) 0x05#8 :: [] := by
  have := Config.params_valid.kLen_ge
  exact ⟨rfl, by omega, by omega, rfl, rfl⟩

/-- An empty buffer and a full one. -/
theorem test_witness_MessagePushAndClear :
    State.reset.busy = false ∧ State.reset.msg.length < 2 ^ 64 - 1 ∧
    { State.reset with msg := zeros (2 ^ 64 - 1) }.msg.length = 2 ^ 64 - 1 ∧
    { State.reset with agenda := [.hostWrite 0x0020#14 0x61#8] }.agenda = .hostWrite 0x0020#14 0x61#8 :: [] ∧
    { State.reset with agenda := [.hostWrite 0x0003#14 0xff#8] }.agenda = .hostWrite 0x0003#14 0xff#8 :: [] :=
  ⟨rfl, by decide, zeros_length _, rfl, rfl⟩

theorem test_witness_LoadsReachTheirRegisters :
    State.reset.busy = false ∧ Memory.wf State.reset.mem = true ∧
    (zeros Config.params.kLen).length = Config.params.kLen ∧
    { State.reset with agenda := ldop opkBase (zeros Config.params.kLen) }.agenda
      = ldop opkBase (zeros Config.params.kLen) ++ [] ∧
    abc.length ≤ 2 ^ 64 - 1 ∧ { State.reset with agenda := ldmsg abc }.agenda = ldmsg abc ++ [] ∧
    (2 ^ 64 - 1 < 2 ^ 64 ∧ { State.reset with agenda := ldlen (2 ^ 64 - 1) }.agenda = ldlen (2 ^ 64 - 1) ++ []) :=
  ⟨rfl, rfl, zeros_length _, by simp, by decide, by simp, by decide, by simp⟩

/-- The four values of `STATUS`, each in a state that satisfies what the statement assumes of it. -/
theorem test_witness_StatusReadsFourValues :
    Inv Config.params State.reset ∧ Inv Config.params busyState ∧ Inv Config.params waitingState :=
  ⟨test_reset_inv, test_busy_inv, test_waiting_inv⟩

/-- A rejected and an accepted signature (V-VER-2, V-VER-1), and an illegal byte. -/
theorem test_witness_RejectionCauseIsHidden :
    (operands 7 0 0 0).busy = false ∧ (operands 7 0 0 0).level = .bigStep ∧
    (let s := { operands 7 0x37c8ebc5f3ba81 0x10001 n56 with msg := abc }
     s.busy = false ∧ s.level = .bigStep ∧
       statusByte (finish (verdict (verify toy56 s.msg (opk toy56 s) (opn toy56 s) (opm toy56 s))) s) = 0x02#8) ∧
    (let s := { operands 7 0x37c8ebc5f3ba81 0x10001 n56 with msg := [0x61#8, 0x62#8, 0x64#8] }
     (finish (verdict (verify toy56 s.msg (opk toy56 s) (opn toy56 s) (opm toy56 s))) s).ecause = 0x08#8) ∧
    5 ≤ (0x05#8 : Byte).toNat := by decide +kernel

/-- Idle, at the big-step level: what the statements of each command assume. -/
theorem test_witness_commands : State.reset.busy = false ∧ State.reset.level = .bigStep := ⟨rfl, rfl⟩

theorem test_witness_ModexpIsPowerModN :
    0x41 < 0x0ca1 ∧ 17 < 2 ^ toy56.K ∧ beInt [0x00#8] = 0 := by decide

theorem test_witness_SquareMultiplyReachesPower :
    1 ≤ 0x0ca1 ∧ 17 < 2 ^ toy56.K ∧ 1 % 0x0ca1 = 0x41 ^ (17 / 2 ^ (15 + 1)) % 0x0ca1 ∧
    1 % 0x0ca1 = 0x41 ^ (17 / 2 ^ 16) % 0x0ca1 := by decide

theorem test_witness_OctetStringsRoundTrip :
    tiny.constructible = true ∧ n40.length = tiny.kLen ∧ e40.length = tiny.kLen ∧ 2 ^ 40 - 1 < 2 ^ tiny.K ∧
    rsaTransform tiny em40 e40 n40 = .ok (beBytes (modexp tiny (beInt em40) 11 (beInt n40)) 5) :=
  ⟨by decide, rfl, rfl, by decide, rfl⟩

/-- Operands for each row of the table: lengths, and one string for each condition. -/
theorem test_witness_RsaCornerCases :
    tiny.constructible = true ∧ (beBytes 0 5).length = tiny.kLen ∧ (beBytes (2 ^ 40 - 1) 5).length = tiny.kLen ∧
    beInt (beBytes 0 5) = 0 ∧ beInt (beBytes 1 5) = 1 ∧ beInt (beBytes 2 5) = 2 ∧
    beInt (beBytes (2 ^ 40 - 1) 5) = 2 ^ tiny.K - 1 ∧ beInt (beBytes 1048573 5) = beInt (beBytes 1048574 5) - 1 := by
  decide

theorem test_witness_KernelInvertsUnderValidKey :
    tiny.constructible = true ∧ ValidKey tiny e40 d40 n40 ∧ em40.length = tiny.kLen ∧ beInt em40 < 2 ^ (tiny.K - 1) ∧
    beInt em40 < beInt n40 ∧ beInt (beBytes (beInt n40 - 1) 5) + 1 = beInt n40 ∧ beInt n40 ≤ beInt n40 :=
  ⟨by decide, test_key40, rfl, by decide, by decide, by decide, le_refl _⟩

/-- A modulus above the message on the one instance: `OPN[0] = 1`, everything else zero. -/
theorem test_witness_RsaTakesKPlusFourPhases :
    let s := { State.reset with mem := [(0x3000, 0x01#8)], level := .smallStep }
    s.busy = false ∧ s.level = .smallStep ∧ s.pend = none ∧ s.agenda = [] ∧
    beInt (opm Config.params s) < beInt (opn Config.params s) := by
  have hk := Config.params_valid.kLen_ge
  have hK := Config.params_valid.kLen_le
  obtain ⟨k, hk1⟩ : ∃ k, Config.params.kLen = k + 1 := ⟨Config.params.kLen - 1, by omega⟩
  refine ⟨rfl, rfl, rfl, rfl, ?_⟩
  have hm : window Config.params [(0x3000, 0x01#8)] opmBase = zeros Config.params.kLen := by
    apply List.ext_getElem
    · simp
    · intro i h1 h2
      have hi : i < Config.params.kLen := by simpa using h1
      have hne : ¬ 0x3000 = opmBase + i := by unfold opmBase; omega
      simp [window, memRead, zeros, hne]
  have hn : window Config.params [(0x3000, 0x01#8)] opnBase
      = 0x01#8 :: (List.range k).map fun i => memRead [(0x3000, 0x01#8)] (opnBase + (i + 1)) := by
    rw [window, hk1, List.range_succ_eq_map, List.map_cons, List.map_map]
    rfl
  show beInt (window Config.params [(0x3000, 0x01#8)] opmBase) < beInt (window Config.params [(0x3000, 0x01#8)] opnBase)
  rw [hm, hn, beInt_zeros, beInt_cons]
  have : 0 < 256 ^ ((List.range k).map fun i => memRead [(0x3000, 0x01#8)] (opnBase + (i + 1))).length := by positivity
  have h1 : (0x01#8 : Byte).toNat = 1 := rfl
  rw [h1]
  omega

theorem test_witness_CounterBytes : 2 ^ 32 - 1 ≤ 2 ^ 32 - 1 := le_refl _

theorem test_witness_MgfPrefixOfLonger :
    toy56.constructible = true ∧ 4 < 5 ∧ 5 ≤ 2 ^ 32 * toy56.hLen ∧
    toy56.hLen = (toy 12 [] true).hLen ∧ toy56.hash = (toy 12 [] true).hash := ⟨by decide, by decide, by decide, rfl, rfl⟩

/-- A length for each row of the table, and a seed the guard turns away. -/
theorem test_witness_MgfCornerCases :
    toy56.constructible = true ∧ (1 ≤ 1 ∧ 1 < toy56.hLen) ∧ 2 = toy56.hLen ∧ 3 = toy56.hLen + 1 ∧
    2 ^ 33 = 2 ^ 32 * toy56.hLen ∧ 2 ^ 32 * toy56.hLen + 1 ≤ 2 ^ 33 + 1 ∧
    ([] : Bytes).length + 4 ≤ Config.params.hashMaxLen ∧
    { State.reset with msg := zeros Config.params.hashMaxLen }.busy = false ∧
    { State.reset with msg := zeros Config.params.hashMaxLen }.level = .bigStep ∧
    { State.reset with msg := zeros Config.params.hashMaxLen }.msg.length + 4 > Config.params.hashMaxLen := by
  have := Config.params_valid.hash_ge
  have h0 : ([] : Bytes).length = 0 := rfl
  refine ⟨by decide, by decide, rfl, rfl, rfl, by decide, by omega, rfl, rfl, ?_⟩
  simp only [zeros_length]
  omega

theorem test_witness_MgfCounterNeverWraps :
    toy56.constructible = true ∧ 2 ^ 33 ≤ 2 ^ 32 * toy56.hLen ∧ (0 < (mgfCalls toy56 [] 3).length) ∧
    Inv Config.params waitingState ∧ waitingState.phase = .m1Loop ∧
    waitingState.work.mgfAcc.length < waitingState.work.mgfLen :=
  ⟨by decide, by decide, by decide, test_waiting_inv, rfl, by decide⟩

theorem test_witness_TopBitClearBoundsBlock :
    tiny.constructible = true ∧ [0x07#8].length = tiny.hLen ∧ [0xff#8, 0xff#8, 0xff#8].length = tiny.dbSize ∧
    [0x00#8].length = tiny.hLen := by decide

theorem test_witness_SignatureOfValidKey :
    let s := { operands 5 0 (beInt d40) (beInt n40) with msg := abc }
    tiny.constructible = true ∧ s.busy = false ∧ s.level = .bigStep ∧ s.msg.length ≤ tiny.hashMaxLen ∧
    ValidKey tiny e40 (opk tiny s) (opn tiny s) := by
  have hk : opk tiny { operands 5 0 (beInt d40) (beInt n40) with msg := abc } = d40 := by decide +kernel
  have hn : opn tiny { operands 5 0 (beInt d40) (beInt n40) with msg := abc } = n40 := by decide +kernel
  refine ⟨by decide, by decide +kernel, by decide +kernel, by decide, ?_⟩
  rw [hk, hn]
  exact test_key40

theorem test_witness_FullComparisonIsEquality : [0x72#8, 0xa6#8].length = [0x79#8, 0xa8#8].length := rfl

/-- A signature whose block has a clear top bit and is accepted, and another first byte. -/
theorem test_witness_LowBitsOfBlockIgnored :
    tiny.constructible = true ∧ em40.tail.length + 1 = tiny.kLen ∧ (0x00#8 : Byte).getLsbD 7 = false ∧
    (0x7f#8 : Byte).getLsbD 7 = false ∧ ValidKey tiny e40 d40 n40 ∧
    ∃ s, rsaTransform tiny s e40 n40 = .ok (0x00#8 :: em40.tail) ∧ verify tiny abc e40 n40 s = .ok () := by
  refine ⟨by decide, rfl, rfl, rfl, test_key40, beBytes (modexp tiny (beInt em40) (beInt d40) (beInt n40)) 5, ?_, ?_⟩
  · decide +kernel
  · decide +kernel

/-- An instance without a padding byte, with a valid key and a signature made with it. -/
theorem test_witness_NoPaddingByteNoAccept :
    bare.K = 8 * bare.kLen ∧ 1 ≤ bare.hLen ∧ bare.kLen = 2 * bare.hLen + 2 ∧ bare.kLen ≤ 4096 ∧
    ValidKey bare e32 d32 n32 ∧ [0x07#8].length = bare.hLen ∧
    ∃ s, sign bare abc d32 n32 [0x07#8] = .ok s :=
  ⟨by decide, by decide, by decide, by decide, test_key32, rfl,
    beBytes (modexp bare 0x010700bc 1560996131 (65521 * 65519)) 4, by decide +kernel⟩

/-- The state before SIGN, and the state before VERIFY with the signature loaded. -/
theorem test_witness_SignThenVerifyAccepts :
    let s := { operands 5 0 (beInt d40) (beInt n40) with msg := abc }
    let u := { operands 5 (beInt (signCommand tiny s).out) (beInt e40) (beInt n40) with msg := abc }
    tiny.constructible = true ∧ s.busy = false ∧ s.level = .bigStep ∧ u.busy = false ∧ u.level = .bigStep ∧
    s.msg.length ≤ tiny.hashMaxLen ∧ ValidKey tiny e40 (opk tiny s) (opn tiny s) ∧ u.msg = s.msg ∧
    opk tiny u = e40 ∧ opn tiny u = opn tiny s ∧ opm tiny u = (signCommand tiny s).out := by
  have hk : opk tiny { operands 5 0 (beInt d40) (beInt n40) with msg := abc } = d40 := by decide +kernel
  have hn : opn tiny { operands 5 0 (beInt d40) (beInt n40) with msg := abc } = n40 := by decide +kernel
  refine ⟨by decide, by decide +kernel, by decide +kernel, by decide +kernel, by decide +kernel, by decide, ?_, rfl,
    by decide +kernel, by decide +kernel, by decide +kernel⟩
  rw [hk, hn]
  exact test_key40

/-- The branches of `MgfEnds` and `SignEnds` on the one instance: a seed or message over the hash bound, a length over
the mask bound, and in the reset state none of these. -/
theorem test_witness_bounds :
    { State.reset with msg := zeros (Config.params.hashMaxLen + 1) }.msg.length > Config.params.hashMaxLen ∧
    { State.reset with maskLen := 0xffffffffffffffff#64 }.maskLen.toNat > 2 ^ 32 * Config.params.hLen ∧
    State.reset.msg.length + 4 ≤ Config.params.hashMaxLen ∧ State.reset.maskLen.toNat ≤ 2 ^ 32 * Config.params.hLen := by
  have := Config.params_valid.hash_ge
  have := Config.params_valid.hLen_pos
  have := Config.params_valid.hLen_le
  have h1 : (0xffffffffffffffff#64).toNat = 2 ^ 64 - 1 := rfl
  have h2 : State.reset.msg.length = 0 := rfl
  have h3 : State.reset.maskLen.toNat = 0 := rfl
  refine ⟨?_, ?_, ?_, ?_⟩
  · simp only [zeros_length]; omega
  · show (0xffffffffffffffff#64).toNat > _; omega
  · omega
  · omega

theorem test_witness_steps :
    (∃ t, Inv Config.params State.reset ∧ step State.reset = .next t) ∧
    ({ waitingState with agenda := [.reset] }.agenda = .reset :: []) ∧
    ({ waitingState with agenda := [.reset, .answer] }.agenda = .reset :: [.answer]) ∧
    (State.reset.busy = false ∧ State.reset.pend = none ∧ State.reset.agenda = []) ∧
    (∀ a v rest, State.reset.agenda ≠ .hostWrite a v :: rest) ∧ (∀ rest, State.reset.agenda ≠ .reset :: rest) :=
  ⟨⟨_, test_reset_inv, rfl⟩, rfl, rfl, ⟨rfl, rfl, rfl⟩, by simp [State.reset], by simp [State.reset]⟩

/-- A step that begins and ends busy: VERIFY enters the kernel. -/
theorem test_witness_CommandHasTwoVisibleInstants :
    busyState.busy = true ∧ ∃ t, step busyState = .next t ∧ t.busy = true := ⟨rfl, _, rfl, rfl⟩

theorem test_witness_EveryCommandEnds :
    Inv Config.params busyState ∧ busyState.busy = true ∧ busyState.agenda = [] := ⟨test_busy_inv, rfl, rfl⟩

/-- A state at a phase, the sequencer's move next. -/
def sequencerAt (ph : Phase) (op : Byte) (w : Work) : State :=
  { State.reset with agenda := [.sequencer], phase := ph, curCmd := op, work := w }

/-- A state at a phase, the answer to a call next. -/
def answerAt (ph : Phase) (c : PortCall) : State :=
  { State.reset with agenda := [.answer], phase := ph, pend := some c }

/-- What the phase statements have in common, at every phase and under every opcode. -/
theorem test_witness_phases (ph : Phase) (op : Byte) (w : Work) (c : PortCall) :
    ((sequencerAt ph op w).agenda = .sequencer :: [] ∧ (sequencerAt ph op w).pend = none ∧
      (sequencerAt ph op w).phase = ph ∧ (sequencerAt ph op w).curCmd = op ∧ (sequencerAt ph op w).work = w) ∧
    ((answerAt ph c).agenda = .answer :: [] ∧ (answerAt ph c).pend = some c ∧ (answerAt ph c).phase = ph) :=
  ⟨⟨rfl, rfl, rfl, rfl, rfl⟩, rfl, rfl, rfl⟩

/-- Both sides of the kernel's and of MGF1's conditions: the range check at and below its boundary, the last exponent
bit and none left, the mask bound at and above its boundary, enough accumulated and one byte short. -/
theorem test_witness_KernelPhases_MgfPhases :
    { Work.cleared with rsaM := 5, rsaN := 5 }.rsaN ≤ { Work.cleared with rsaM := 5, rsaN := 5 }.rsaM ∧
    { Work.cleared with rsaM := 4, rsaN := 5 }.rsaM < { Work.cleared with rsaM := 4, rsaN := 5 }.rsaN ∧
    Work.cleared.rsaI = 0 ∧ { Work.cleared with rsaI := 1 }.rsaI = 0 + 1 ∧
    { Work.cleared with mgfLen := 2 ^ 32 * Config.params.hLen }.mgfLen ≤ 2 ^ 32 * Config.params.hLen ∧
    { Work.cleared with mgfLen := 2 ^ 32 * Config.params.hLen + 1 }.mgfLen > 2 ^ 32 * Config.params.hLen ∧
    Work.cleared.mgfLen ≤ Work.cleared.mgfAcc.length ∧
    { Work.cleared with mgfLen := 1 }.mgfAcc.length < { Work.cleared with mgfLen := 1 }.mgfLen :=
  ⟨by decide, by decide, rfl, rfl, le_refl _, Nat.lt_succ_self _, le_refl _, by decide⟩

/-- The conditions of the phases of SIGN and VERIFY: a message at the bound and one above it, two strings of one length. -/
theorem test_witness_SignPhases_VerifyPhases :
    { State.reset with msg := List.replicate Config.params.hashMaxLen 0x00#8 }.msg.length ≤ Config.params.hashMaxLen ∧
    { State.reset with msg := List.replicate (Config.params.hashMaxLen + 1) 0x00#8 }.msg.length >
      Config.params.hashMaxLen ∧
    { Work.cleared with h2 := [0x01#8], hb := [0x02#8] }.h2.length =
      { Work.cleared with h2 := [0x01#8], hb := [0x02#8] }.hb.length := by
  refine ⟨?_, ?_, rfl⟩ <;> simp

end Sys2Proof.Tests
end

section
/-! SUPPORT. The state after reset (rule R37): what the reads of the block return where nothing has been written, and the
obligation made of them. -/

namespace Sys2Proof.Machine

/-- Where no address is listed, every byte of an operand register is 0x00 (rules R21 to R23, R37). -/
@[simp] theorem window_nil (p : Params) (base : Nat) : window p [] base = List.replicate p.kLen 0x00#8 := by
  have hread : ∀ a, memRead [] a = 0x00#8 := fun _ => rfl
  simp [window, hread]

@[simp] theorem beBytes_zero (L : Nat) : beBytes 0 L = zeros L := by
  induction L with
  | zero => rfl
  | succ L ih => rw [beBytes, Nat.zero_div, ih, zeros, zeros, List.replicate_succ']

/-- Every byte of a register that holds 0 reads 0x00 (rule R63). -/
@[simp] theorem regByte_zero (L i : Nat) : regByte 0 L i = 0x00#8 := by
  rw [regByte, beBytes_zero, zeros]
  by_cases hi : i < L
  · exact List.getD_replicate 0x00#8 hi
  · exact List.getD_eq_default _ _ (by simpa using hi)

@[simp] theorem flagAt_false (i : Nat) : flagAt false i = 0x00#8 := rfl

/-- With the three flags 0 the register `STATUS` reads 0x00 (rule R103). -/
theorem statusByte_of_flags_clear {s : State} (hb : s.busy = false) (hd : s.done = false) (he : s.err = false) :
    statusByte s = 0x00#8 := by
  simp [statusByte, hb, hd, he]

/-- With no error recorded `ERRCODE` reads 0x00, whatever `DIAG_EN` and the last command: the filter hides error codes
alone (rules R29, R254). -/
theorem errcode_of_ecause_eq_zero (p : Params) {s : State} (h : s.ecause = 0x00#8) : errcode p s = 0x00#8 := by
  rw [errcode, if_neg (fun hfilter => hfilter.2.2 h), h]

/-- `CFG_FLAGS` shows `DIAG_EN` in bit 0 and nothing else (rule R30). -/
theorem cfgFlags_eq (p : Params) : cfgFlags p = if p.diagEn then 0x01#8 else 0x00#8 := rfl

/-- Settles O46: the fields are those `State.reset` lists; the operand registers, the length registers, `STATUS`,
`ERRCODE` and `CFG_FLAGS` follow by the rules of their reads. -/
theorem resetValues : Obligations.ResetValues := by
  unfold Obligations.ResetValues
  intro P r
  have hstatus : statusByte r = 0x00#8 := statusByte_of_flags_clear rfl rfl rfl
  have herr : errcode P r = 0x00#8 := errcode_of_ecause_eq_zero P rfl
  have hcfg : ∀ i < 2, readByte P r (.cfgKlen i) = (beBytes P.kLen 2).getD i 0x00#8 ∧
      readByte P r (.cfgHlen i) = (beBytes P.hLen 2).getD i 0x00#8 := fun _ _ => ⟨rfl, rfl⟩
  have hlen : ∀ i < 8, readByte P r (.msgLen i) = 0x00#8 ∧ readByte P r (.outLen i) = 0x00#8 :=
    fun i _ => ⟨regByte_zero 8 i, regByte_zero 8 i⟩
  refine ⟨window_nil P opmBase, window_nil P opkBase, window_nil P opnBase, fun _ => rfl, ?_⟩
  -- the buffers, latch, flags and `ECAUSE`
  refine ⟨rfl, rfl, rfl, rfl, rfl, rfl, rfl, hstatus, rfl, herr, ?_⟩
  -- the sequencer, the call in flight, the wires
  refine ⟨rfl, rfl, rfl, rfl, rfl, ?_⟩
  -- what the host reads
  exact ⟨hcfg, cfgFlags_eq P, rfl, rfl, hlen⟩

end Sys2Proof.Machine
end

section
/-! SUPPORT. The host bus (rules R60 to R67): where the address map sends each address, what a read and an ignored write
do in a step, and what the moves of a busy block leave as they were. The obligations on the bus are made of these. -/

namespace Sys2Proof.Machine

/-! ### The address map (rule R61) -/

/-- The addresses the map gives no register: past the control registers, and past each operand (rules R61, R66). -/
def ReservedAddr (p : Params) (a : Addr) : Prop :=
  (0x0023 ≤ a.toNat ∧ a.toNat ≤ 0x0FFF) ∨ (0x1000 + p.kLen ≤ a.toNat ∧ a.toNat ≤ 0x1FFF) ∨
    (0x2000 + p.kLen ≤ a.toNat ∧ a.toNat ≤ 0x2FFF) ∨ 0x3000 + p.kLen ≤ a.toNat

theorem windowLoc_reserved {p : Params} (inside : Nat → Loc) {i : Nat} (h : p.kLen ≤ i) :
    windowLoc p inside i = .reserved := if_neg (by omega)

theorem locate_reserved {p : Params} {a : Addr} (h : ReservedAddr p a) : locate p a = .reserved := by
  rcases h with ⟨hlo, hhi⟩ | ⟨hlo, hhi⟩ | ⟨hlo, hhi⟩ | hlo
  · exact locate_control_reserved hlo (by omega)
  · rw [locate, if_neg (by omega), if_pos (by omega), windowLoc_reserved _ (by unfold opmBase; omega)]
  · rw [locate, if_neg (by omega), if_neg (by omega), if_pos (by omega),
      windowLoc_reserved _ (by unfold opkBase; omega)]
  · rw [locate, if_neg (by omega), if_neg (by omega), if_neg (by omega),
      windowLoc_reserved _ (by unfold opnBase; omega)]

/-- A control register of `L` bytes stands at its base address where the control map lists its bytes there. -/
theorem locate_control_register (p : Params) {base L : Nat} {byte : Nat → Loc} (hfits : base + L ≤ 0x1000)
    (hmap : ∀ i < L, controlMap.getD (base + i) .reserved = byte i) {i : Nat} (h : i < L) :
    locate p (BitVec.ofNat 14 (base + i)) = byte i := by
  have hn : (BitVec.ofNat 14 (base + i)).toNat = base + i := by
    rw [BitVec.toNat_ofNat, Nat.mod_eq_of_lt (by omega)]
  rw [locate_control (by omega), hn, hmap i h]

theorem locate_cfgKlen (p : Params) {i : Nat} (h : i < 2) : locate p (BitVec.ofNat 14 (0x0004 + i)) = .cfgKlen i :=
  locate_control_register p (by decide) (by decide) h

theorem locate_cfgHlen (p : Params) {i : Nat} (h : i < 2) : locate p (BitVec.ofNat 14 (0x0006 + i)) = .cfgHlen i :=
  locate_control_register p (by decide) (by decide) h

theorem locate_msgLen (p : Params) {i : Nat} (h : i < 8) : locate p (BitVec.ofNat 14 (0x0008 + i)) = .msgLen i :=
  locate_control_register p (by decide) (by decide) h

theorem locate_maskLen (p : Params) {i : Nat} (h : i < 8) : locate p (BitVec.ofNat 14 (0x0010 + i)) = .maskLen i :=
  locate_control_register p (by decide) (by decide) h

theorem locate_outLen (p : Params) {i : Nat} (h : i < 8) : locate p (BitVec.ofNat 14 (0x0018 + i)) = .outLen i :=
  locate_control_register p (by decide) (by decide) h

/-! ### Writes that are ignored (rule R66) -/

/-- What takes no write, busy or idle: the read-only registers and the reserved addresses (rules R61, R66). -/
def Loc.readOnly : Loc → Bool
  | .status | .errcode | .cfgKlen _ | .cfgHlen _ | .msgLen _ | .outLen _ | .outPop | .cfgFlags | .reserved => true
  | .cmd | .msgClr | .maskLen _ | .msgPush | .opm _ | .opk _ | .opn _ => false

theorem writeByte_readOnly {l : Loc} (h : l.readOnly = true) (v : Byte) (s : State) : writeByte v s l = s := by
  cases l <;> simp [Loc.readOnly, writeByte] at h ⊢

theorem gatedWrite_readOnly {l : Loc} (h : l.readOnly = true) (v : Byte) (s : State) : gatedWrite v l s = s := by
  rw [gatedWrite, writeByte_readOnly h, ite_self]

/-- The addresses of the read-only registers (rule R61). -/
theorem locate_readOnly (p : Params) {a : Addr}
    (h : a = 0x0001#14 ∨ a = 0x0002#14 ∨ (0x0004 ≤ a.toNat ∧ a.toNat ≤ 0x000F) ∨
      (0x0018 ≤ a.toNat ∧ a.toNat ≤ 0x001F) ∨ a = 0x0021#14 ∨ a = 0x0022#14) : (locate p a).readOnly = true := by
  have hranges : ∀ n < 0x0020, (0x0004 ≤ n ∧ n ≤ 0x000F) ∨ (0x0018 ≤ n ∧ n ≤ 0x001F) →
      (controlMap.getD n .reserved).readOnly = true := by decide
  rcases h with rfl | rfl | hcfg | hout | rfl | rfl
  · rfl
  · rfl
  · rw [locate_control (by omega)]; exact hranges _ (by omega) (.inl hcfg)
  · rw [locate_control (by omega)]; exact hranges _ (by omega) (.inr hout)
  · rfl
  · rfl

/-- A host write where nothing takes one leaves the block as it was, busy or idle (rule R66). -/
theorem step_hostWrite_readOnly {s : State} {a : Addr} {v : Byte} {rest : List Event}
    (hl : (locate Config.params a).readOnly = true) (h : s.agenda = .hostWrite a v :: rest) :
    step s = .next { s with agenda := rest } := by
  rw [step_cons h, move]
  rcases hostWrite_cases a v { s with agenda := rest } with ⟨hcmd, -⟩ | ⟨-, hw⟩
  · rw [hcmd] at hl; cases hl
  · rw [hw, gatedWrite_readOnly hl]

/-! ### Reads (rule R64) -/

theorem hostRead_of_ne_outPop {p : Params} {a : Addr} (h : locate p a ≠ .outPop) (s : State) :
    hostRead p a s = { s with reads := s.reads ++ [(a, readByte p s (locate p a))] } := if_neg h

theorem hostRead_outPop {p : Params} {a : Addr} (h : locate p a = .outPop) (s : State) :
    hostRead p a s = { s with reads := s.reads ++ [(a, s.out.headD 0x00#8)], out := s.out.tail } := by
  rw [hostRead, h]; rfl

/-- What a read returns depends on the block alone, not on what is scheduled. -/
@[simp] theorem readByte_agenda (p : Params) (s : State) (rest : List Event) (l : Loc) :
    readByte p { s with agenda := rest } l = readByte p s l := by cases l <;> rfl

/-- A read of address `a` returns `b` and has no effect. -/
def ReadsAs (s : State) (a : Addr) (b : Byte) : Prop :=
  ∀ rest, s.agenda = .hostRead a :: rest → step s = .next { s with agenda := rest, reads := s.reads ++ [(a, b)] }

/-- Every read but that of `OUT_POP` returns the current value and changes nothing. -/
theorem readsAs_readByte (s : State) {a : Addr} {l : Loc} (hl : locate Config.params a = l) (hne : l ≠ .outPop) :
    ReadsAs s a (readByte Config.params s l) := by
  subst hl
  intro rest h
  rw [step_cons h, move, hostRead_of_ne_outPop hne, readByte_agenda]

theorem readsAs_reserved (s : State) {a : Addr} (h : ReservedAddr Config.params a) : ReadsAs s a 0x00#8 :=
  readsAs_readByte s (locate_reserved h) nofun

theorem step_hostRead_outPop {s : State} {rest : List Event} (h : s.agenda = .hostRead 0x0021#14 :: rest) :
    step s = .next { s with
      agenda := rest, reads := s.reads ++ [(0x0021#14, s.out.headD 0x00#8)], out := s.out.tail } := by
  rw [step_cons h, move, hostRead_outPop rfl]

/-- With `OUT` empty a read of `OUT_POP` returns 0x00 and has no effect. -/
theorem readsAs_outPop_of_out_eq_nil {s : State} (h : s.out = []) : ReadsAs s 0x0021#14 0x00#8 := by
  intro rest hr
  rw [step_hostRead_outPop hr, h]
  rfl

/-- Byte `i` of an operand register is the byte at its base plus `i` (rule R61). -/
theorem window_getD {p : Params} (mem : List Host.Cell) (base : Nat) {i : Nat} (h : i < p.kLen) :
    (window p mem base).getD i 0x00#8 = memRead mem (base + i) := by
  simp [window, h]

/-- A read inside an operand's window returns that byte of the register. -/
theorem readsAs_window (s : State) {base i : Nat} {l : Loc} (h : i < Config.params.kLen)
    (hl : locate Config.params (BitVec.ofNat 14 (base + i)) = l) (hne : l ≠ .outPop)
    (hread : readByte Config.params s l = memRead s.mem (base + i)) :
    ReadsAs s (BitVec.ofNat 14 (base + i)) ((window Config.params s.mem base).getD i 0x00#8) := by
  rw [window_getD _ _ h, ← hread]
  exact readsAs_readByte s hl hne

theorem readsAs_outLen (s : State) {i : Nat} (h : i < 8) :
    ReadsAs s (BitVec.ofNat 14 (0x0018 + i)) (regByte s.out.length 8 i) :=
  readsAs_readByte s (locate_outLen _ h) nofun

/-! ### The moves of a busy block (rule R67) -/

/-- From `s`, a busy state, to `t` the command has gone on or has ended of itself, with its inputs and the latched
command as they were. -/
def CommandGoesOn (s t : State) : Prop :=
  t.mem = s.mem ∧ t.msg = s.msg ∧ t.maskLen = s.maskLen ∧ t.curCmd = s.curCmd ∧ (t.busy = true ∨ t.done = true)

theorem MoveKept.commandGoesOn {s t : State} (h : MoveKept s t) (hb : s.busy = true) : CommandGoesOn s t := by
  obtain ⟨hmem, hmsg, hmask, hcmd, -, -, -, ⟨hbusy, -⟩ | ⟨-, hdone⟩⟩ := h
  · exact ⟨hmem, hmsg, hmask, hcmd, .inl (hbusy.trans hb)⟩
  · exact ⟨hmem, hmsg, hmask, hcmd, .inr hdone⟩

theorem hostRead_commandGoesOn (p : Params) (a : Addr) {s : State} (hb : s.busy = true) :
    CommandGoesOn s (hostRead p a s) := by
  by_cases h : locate p a = .outPop
  · rw [hostRead_outPop h]; exact ⟨rfl, rfl, rfl, rfl, .inl hb⟩
  · rw [hostRead_of_ne_outPop h]; exact ⟨rfl, rfl, rfl, rfl, .inl hb⟩

theorem hostWait_commandGoesOn {s : State} (hb : s.busy = true) : CommandGoesOn s (hostWait s) := by
  rw [hostWait, if_pos hb]; exact ⟨rfl, rfl, rfl, rfl, .inl hb⟩

/-- Only reset aborts a command: every other move lets it go on or is its own end (rules R67, R69). -/
theorem move_commandGoesOn {e : Event} {s t : State} (hb : s.busy = true) (he : e ≠ .reset)
    (h : move e s = .next t) : CommandGoesOn s t := by
  cases e with
  | hostWrite a v =>
    rw [move, hostWrite_busy a v hb] at h
    cases h
    exact (MoveKept.refl s).commandGoesOn hb
  | hostRead a => cases h; exact hostRead_commandGoesOn _ a hb
  | hostWait => cases h; exact hostWait_commandGoesOn hb
  | sequencer => cases h; exact (sequencerMove_kept _ s).commandGoesOn hb
  | answer => cases h; exact (answerMove_kept _ s).commandGoesOn hb
  | reset => exact absurd rfl he

/-! ### The obligations on the bus -/

/-- Settles O8, move by move: the busy gate for the first clause, for the second what each move keeps. -/
theorem busyGateDropsEveryWrite : Obligations.BusyGateDropsEveryWrite := by
  unfold Obligations.BusyGateDropsEveryWrite
  refine ⟨fun s a v rest hb h => ?_, fun s t hb hstep hreset => ?_⟩
  · rw [step_cons h, move, hostWrite_busy a v (s := { s with agenda := rest }) hb]
  · rcases step_cases s with ⟨-, hdue⟩ | ⟨e, rest, hagenda, hmove⟩
    · rw [hdue] at hstep
      cases hstep
      exact (dueMove_kept _ s).commandGoesOn hb
    · have he : e ≠ .reset := fun h => hreset rest (h ▸ hagenda)
      exact move_commandGoesOn (s := { s with agenda := rest }) hb he (hmove ▸ hstep)

/-- Settles O9: the map sends the reserved ranges to `.reserved`, a read there or of a write-only register returns 0x00,
and no read-only place takes a write. -/
theorem reservedAddressesInert : Obligations.ReservedAddressesInert := by
  unfold Obligations.ReservedAddressesInert
  refine ⟨fun s a rest h ha => ?_, fun s a v rest h ha => ?_⟩
  · rcases ha with hres | rfl | rfl
    · exact readsAs_reserved s hres rest h
    · exact readsAs_readByte s (l := .msgClr) rfl nofun rest h
    · exact readsAs_readByte s (l := .msgPush) rfl nofun rest h
  · rcases ha with hres | hro
    · exact step_hostWrite_readOnly (by rw [locate_reserved hres]; rfl) h
    · exact step_hostWrite_readOnly (locate_readOnly _ hro) h

/-- Settles O10, address by address; while busy the invariant has `OUT` empty. -/
theorem readsReturnCurrentValues : Obligations.ReadsReturnCurrentValues := by
  unfold Obligations.ReadsReturnCurrentValues
  refine ⟨fun s rest h => step_hostRead_outPop h, fun s => ?_, fun s hinv hb => ?_⟩
  · have hk := Config.params_valid.kLen_le
    -- the one-byte registers
    refine ⟨readsAs_readByte s (l := .cmd) rfl nofun, readsAs_readByte s (l := .status) rfl nofun,
      readsAs_readByte s (l := .errcode) rfl nofun, readsAs_readByte s (l := .msgClr) rfl nofun,
      readsAs_readByte s (l := .msgPush) rfl nofun, readsAs_readByte s (l := .cfgFlags) rfl nofun, ?_⟩
    -- the big-endian registers
    refine ⟨fun i hi => readsAs_readByte s (locate_cfgKlen _ hi) nofun,
      fun i hi => readsAs_readByte s (locate_cfgHlen _ hi) nofun,
      fun i hi => readsAs_readByte s (locate_msgLen _ hi) nofun,
      fun i hi => readsAs_readByte s (locate_maskLen _ hi) nofun, fun i hi => readsAs_outLen s hi, ?_⟩
    -- the operand registers, the reserved addresses
    exact ⟨fun i hi => readsAs_window s hi (locate_opm hi hk) nofun rfl,
      fun i hi => readsAs_window s hi (locate_opk hi hk) nofun rfl,
      fun i hi => readsAs_window s hi (locate_opn hi hk) nofun rfl,
      fun a hlo hhi => readsAs_reserved s (.inl ⟨hlo, hhi⟩), fun a ha => readsAs_reserved s (.inr ha)⟩
  · obtain ⟨-, -, hout⟩ := hinv.busyFlags hb
    refine ⟨readsAs_outPop_of_out_eq_nil hout, fun i hi => ?_⟩
    have hread := readsAs_outLen s hi
    rw [hout, List.length_nil, regByte_zero] at hread
    exact hread

end Sys2Proof.Machine
end

section
/-! SUPPORT. Integers and octet strings as values (rules R105, R106, R144): the weighted sum, the four counter bytes, and
the range of the kernel's results. -/

namespace Sys2Proof.Machine

/-! ### The weighted sum -/

/-- What byte `i` adds to the integer a byte string carries (rule R105). -/
def byteWeight (x : Bytes) (i : Nat) : Nat := (x.getD i 0x00#8).toNat * 256 ^ (x.length - 1 - i)

theorem byteWeight_cons_zero (b : Byte) (x : Bytes) : byteWeight (b :: x) 0 = b.toNat * 256 ^ x.length := rfl

/-- A byte put in front shifts the others and changes none of their weights. -/
theorem byteWeight_cons_succ (b : Byte) (x : Bytes) (i : Nat) : byteWeight (b :: x) (i + 1) = byteWeight x i := by
  have hexp : (b :: x).length - 1 - (i + 1) = x.length - 1 - i := by rw [List.length_cons]; omega
  rw [byteWeight, List.getD_cons_succ, hexp, byteWeight]

theorem beInt_eq_sum_byteWeight (x : Bytes) : beInt x = ((List.range x.length).map (byteWeight x)).sum := by
  induction x with
  | nil => rfl
  | cons b x ih =>
    have htail : byteWeight (b :: x) ∘ Nat.succ = byteWeight x := funext (byteWeight_cons_succ b x)
    rw [beInt_cons, ih, List.length_cons, List.range_succ_eq_map, List.map_cons, List.map_map, List.sum_cons, htail,
      byteWeight_cons_zero]

/-! ### Strings of one length and the values below `2^K` -/

/-- Two strings of one length that carry one value are equal: exporting the value gives each back (rule R105). -/
theorem eq_of_beInt_eq {x y : Bytes} (hlen : x.length = y.length) (h : beInt x = beInt y) : x = y := by
  rw [← beBytes_beInt x, h, hlen, beBytes_beInt]

/-- A register content is below `2^K` (rule R105). -/
theorem beInt_lt_two_pow_K {p : Params} (hp : p.Valid) {x : Bytes} (hx : x.length = p.kLen) :
    beInt x < 2 ^ p.K := by
  rw [hp.two_pow_K, ← hx]
  exact beInt_lt x

/-- A value below `2^K` is imported again from its `kLen` bytes (rules R105, R145). -/
theorem beInt_beBytes_kLen {p : Params} (hp : p.Valid) {v : Nat} (hv : v < 2 ^ p.K) :
    beInt (beBytes v p.kLen) = v :=
  beInt_beBytes (hp.two_pow_K ▸ hv)

/-! ### The range of the kernel's results -/

/-- Every intermediate value is below the modulus (rule R144). -/
theorem expRound_lt {N : Nat} (hN : 1 ≤ N) (M E i R : Nat) : expRound M E N i R < N := by
  unfold expRound
  dsimp only
  split
  · exact Nat.mod_lt _ hN
  · exact Nat.mod_lt _ hN

theorem expLoop_lt {N : Nat} (hN : 1 ≤ N) (M E i : Nat) {R : Nat} (hR : R < N) : expLoop M E N i R < N := by
  induction i generalizing R with
  | zero => exact hR
  | succ i ih => exact ih (expRound_lt hN M E i R)

theorem modexp_lt (p : Params) {N : Nat} (hN : 1 ≤ N) (M E : Nat) : modexp p M E N < N :=
  expLoop_lt hN M E p.K (Nat.mod_lt 1 hN)

/-- A result of `rsa_transform` has `kLen` bytes (rule R145). -/
theorem rsaTransform_ok_length {p : Params} {m k n r : Bytes} (h : rsaTransform p m k n = .ok r) :
    r.length = p.kLen := by
  rcases rsaTransform_cases p m k n with ⟨-, he⟩ | ⟨-, he⟩
  · rw [he] at h; cases h
  · rw [he] at h; cases h
    exact beBytes_length ..

/-- A result of `rsa_transform` carries a value below the modulus, which its `kLen` bytes can hold (rules R143, R145). -/
theorem rsaTransform_ok_lt {p : Params} (hp : p.Valid) {m k n r : Bytes} (hn : n.length = p.kLen)
    (h : rsaTransform p m k n = .ok r) : beInt r < beInt n := by
  rcases rsaTransform_cases p m k n with ⟨-, he⟩ | ⟨hmn, he⟩
  · rw [he] at h; cases h
  · rw [he] at h; cases h
    have hlt : modexp p (beInt m) (beInt k) (beInt n) < beInt n := modexp_lt p (by omega) _ _
    rw [beInt_beBytes_kLen hp (hlt.trans (beInt_lt_two_pow_K hp hn))]
    exact hlt

/-- Settles O22: the sum by induction over the string; distinctness because exporting the imported value gives the
string back; a result's bound because every running power is a remainder by the modulus. -/
theorem octetStringsRoundTrip : Obligations.OctetStringsRoundTrip := by
  unfold Obligations.OctetStringsRoundTrip
  refine ⟨beInt_eq_sum_byteWeight, fun p hc x y hx hy => ?_, fun p hc v hv => ?_, fun p hc m k n _ _ hn r hr => ?_⟩
  · exact ⟨beInt_lt_two_pow_K (Params.valid_of_constructible hc) hx, eq_of_beInt_eq (hx.trans hy.symm),
      hx ▸ beBytes_beInt x⟩
  · exact ⟨beBytes_length .., beInt_beBytes_kLen (Params.valid_of_constructible hc) hv⟩
  · exact ⟨rsaTransform_ok_length hr, rsaTransform_ok_lt (Params.valid_of_constructible hc) hn hr⟩

/-! ### The counter bytes -/

/-- The counter is exported by three divisions by 256, the last byte first (rule R9). -/
theorem be32_eq (c : Nat) : be32 c = [BitVec.ofNat 8 (c / 256 / 256 / 256), BitVec.ofNat 8 (c / 256 / 256),
    BitVec.ofNat 8 (c / 256), BitVec.ofNat 8 c] := rfl

theorem ofNat_mod_256 (v : Nat) : BitVec.ofNat 8 (v % 256) = BitVec.ofNat 8 v :=
  BitVec.eq_of_toNat_eq (by simp)

/-- Settles O28: the successive divisions are the rule's divisions by powers of 256, and a byte takes its value mod 256. -/
theorem counterBytes : Obligations.CounterBytes := by
  unfold Obligations.CounterBytes
  refine ⟨fun c _ => ?_, rfl, rfl, rfl, rfl⟩
  have h24 : c / 256 / 256 / 256 = c / 2 ^ 24 := by omega
  have h16 : c / 256 / 256 = c / 2 ^ 16 := by omega
  have h8 : c / 256 = c / 2 ^ 8 := rfl
  rw [be32_eq, ofNat_mod_256, ofNat_mod_256, ofNat_mod_256, h24, h16, h8]

end Sys2Proof.Machine
end

section
/-! SUPPORT. `STATUS` (rule R103): its bits, its value from the flags, and which flags can stand together (rule R28). -/

namespace Sys2Proof.Machine

/-- A flag's byte has the flag at its own bit and 0 at every other. -/
theorem getLsbD_flagAt (f : Bool) {i : Nat} (hi : i < 8) (j : Nat) :
    (flagAt f i).getLsbD j = (f && decide (i = j)) := by
  cases f with
  | false => simp
  | true =>
    rw [flagAt, if_pos rfl, BitVec.getLsbD_ofNat, Nat.testBit_two_pow, Bool.true_and]
    by_cases hij : i = j
    · simp [← hij, hi]
    · simp [hij]

theorem getLsbD_statusByte (s : State) (j : Nat) :
    (statusByte s).getLsbD j =
      (s.busy && decide (0 = j) || s.done && decide (1 = j) || s.err && decide (2 = j)) := by
  rw [statusByte, BitVec.getLsbD_or, BitVec.getLsbD_or, getLsbD_flagAt _ (by decide), getLsbD_flagAt _ (by decide),
    getLsbD_flagAt _ (by decide)]

/-- The flags that can stand together: idle with nothing to report, busy, done, done with an error (rule R28). -/
theorem Inv.flags_cases {p : Params} {s : State} (h : Inv p s) :
    (s.busy = false ∧ s.done = false ∧ s.err = false) ∨ (s.busy = true ∧ s.done = false ∧ s.err = false) ∨
    (s.busy = false ∧ s.done = true ∧ s.err = false) ∨ (s.busy = false ∧ s.done = true ∧ s.err = true) := by
  cases hb : s.busy with
  | true =>
    obtain ⟨hd, he, -⟩ := h.busyFlags hb
    exact .inr (.inl ⟨rfl, hd, he⟩)
  | false =>
    cases he : s.err with
    | true => exact .inr (.inr (.inr ⟨rfl, h.errDone he, rfl⟩))
    | false =>
      cases s.done with
      | false => exact .inl ⟨rfl, rfl, rfl⟩
      | true => exact .inr (.inr (.inl ⟨rfl, rfl, rfl⟩))

theorem statusByte_of_flags {s : State} {b d e : Bool} (hb : s.busy = b) (hd : s.done = d) (he : s.err = e) :
    statusByte s = flagAt b 0 ||| flagAt d 1 ||| flagAt e 2 := by
  rw [statusByte, hb, hd, he]

/-- Settles O16: the bits are those of the three flags' bytes, and of the flags' eight combinations the invariant leaves
the four the rule lists. -/
theorem statusReadsFourValues : Obligations.StatusReadsFourValues := by
  unfold Obligations.StatusReadsFourValues
  refine ⟨fun s => ⟨?_, ?_, ?_, fun i hi => ?_⟩, fun s hinv => ?_⟩
  · rw [getLsbD_statusByte]; simp
  · rw [getLsbD_statusByte]; simp
  · rw [getLsbD_statusByte]; simp
  · have h0 : ¬ 0 = i := by omega
    have h1 : ¬ 1 = i := by omega
    have h2 : ¬ 2 = i := by omega
    rw [getLsbD_statusByte]
    simp [h0, h1, h2]
  · rcases hinv.flags_cases with ⟨hb, hd, he⟩ | ⟨hb, hd, he⟩ | ⟨hb, hd, he⟩ | ⟨hb, hd, he⟩
    · exact .inl ⟨hb, hd, he, statusByte_of_flags hb hd he⟩
    · exact .inr (.inl ⟨hb, hd, he, statusByte_of_flags hb hd he⟩)
    · exact .inr (.inr (.inl ⟨hb, hd, he, statusByte_of_flags hb hd he⟩))
    · exact .inr (.inr (.inr ⟨hb, hd, he, statusByte_of_flags hb hd he⟩))

end Sys2Proof.Machine
end

section
/-! SUPPORT. The write of `CMD` (rules R100 to R102): which bytes name a command, and what an idle block starts for each
at the small-step level (rule R15). -/

namespace Sys2Proof.Machine

/-! ### The write and its byte -/

/-- A step whose move is the write of `CMD` is that write. -/
theorem step_writeCmd {s : State} {op : Byte} {rest : List Event} (h : s.agenda = .hostWrite 0x0000#14 op :: rest) :
    step s = writeCmd op { s with agenda := rest } := by
  rw [step_cons h, move, hostWrite, locate_eq_cmd.2 rfl]

theorem writeCmd_of_decode {op : Byte} {i : Instr} (h : decode op = .ok i) (s : State) : writeCmd op s = exec i s := by
  rw [writeCmd, h]

/-- The encodings end at 0x04, so every byte above names no command (rule R102). -/
theorem decode_of_five_le {op : Byte} (h : 5 ≤ op.toNat) : decode op = .error (.illegalCommand op) := by
  have hne : ∀ c : Byte, c.toNat < 5 → op ≠ c := fun c hc hop => by rw [hop] at h; omega
  simp [decode, hne]

theorem writeCmd_of_five_le {op : Byte} (h : 5 ≤ op.toNat) (s : State) :
    writeCmd op s = .next (illegalCommand op s) := by
  rw [writeCmd, decode_of_five_le h]

/-! ### What an idle block does with it -/

/-- An illegal byte, while idle: the common part, and the error end that touches neither phase nor transients (rule
R102). -/
theorem illegalCommand_idle (op : Byte) {s : State} (hb : s.busy = false) :
    illegalCommand op s = { beginCommand op s with ecause := 0x0F#8, done := true, err := true } := by
  rw [illegalCommand, hb]
  rfl

theorem exec_clear_idle {s : State} (hb : s.busy = false) : exec .clear s = .next (beginCommand 0x00#8 s) := by
  rw [exec_next]
  simp [clearCommand, hb, encode]

theorem exec_rsa_smallStep {s : State} (hb : s.busy = false) (hl : s.level = .smallStep) :
    exec .rsa s = .next (launch .r0Import (beginCommand 0x01#8 s)) := by
  rw [exec_next]
  exact congrArg _ (command_smallStep hb hl)

theorem exec_mgf_smallStep {s : State} (hb : s.busy = false) (hl : s.level = .smallStep) :
    exec .mgf s = .next
      (if s.msg.length + 4 > Config.params.hashMaxLen then endErr .messageTooLong (beginCommand 0x02#8 s)
       else enterMgf s.msg s.maskLen.toNat (launch .m0Bound (beginCommand 0x02#8 s))) := by
  rw [exec_next]
  simp only [mgfCommand, command_smallStep hb hl, mgfStart, seedTooLong, decide_eq_true_eq, encode]

theorem exec_sign_smallStep {s : State} (hb : s.busy = false) (hl : s.level = .smallStep) :
    exec .sign s = .next (launch .s1Len (beginCommand 0x03#8 s)) := by
  rw [exec_next]
  exact congrArg _ (command_smallStep hb hl)

theorem exec_verify_smallStep {s : State} (hb : s.busy = false) (hl : s.level = .smallStep) :
    exec .verify s = .next (launch .v1Rsa (beginCommand 0x04#8 s)) := by
  rw [exec_next]
  exact congrArg _ (command_smallStep hb hl)

/-! ### The obligations on the write of `CMD` -/

/-- Settles O6: the byte names no command, and an illegal byte's end writes just the fields listed. -/
theorem illegalByteEndsAtOnce : Obligations.IllegalByteEndsAtOnce := by
  unfold Obligations.IllegalByteEndsAtOnce
  intro s op rest h hb hop
  rw [step_writeCmd h, writeCmd_of_five_le hop, illegalCommand_idle op (s := { s with agenda := rest }) hb]
  rfl

/-- Settles O5, opcode by opcode: the busy gate, the illegal bytes (O6), CLEAR at either level and the four starts. -/
theorem opcodeMapStarts : Obligations.OpcodeMapStarts := by
  unfold Obligations.OpcodeMapStarts
  intro s op rest h
  refine ⟨fun hb => ?_, fun hb => ?_⟩
  · rw [step_cons h, move, hostWrite_busy _ _ (s := { s with agenda := rest }) hb]
  intro s0
  let u : State := { s with agenda := rest }
  have hrun : ∀ i, decode op = .ok i → step s = exec i u := fun i hi => by
    rw [step_writeCmd h, writeCmd_of_decode hi]
  refine ⟨?_, fun hop => illegalByteEndsAtOnce s op rest h hb hop, fun hl => ⟨?_, ?_, ?_, ?_⟩⟩
  · rintro rfl
    rw [hrun .clear rfl, exec_clear_idle (s := u) hb]
    rfl
  · rintro rfl
    rw [hrun .rsa rfl, exec_rsa_smallStep (s := u) hb hl]
    rfl
  · rintro rfl
    rw [hrun .mgf rfl, exec_mgf_smallStep (s := u) hb hl]
    rfl
  · rintro rfl
    rw [hrun .sign rfl, exec_sign_smallStep (s := u) hb hl]
    rfl
  · rintro rfl
    rw [hrun .verify rfl, exec_verify_smallStep (s := u) hb hl]
    rfl

end Sys2Proof.Machine
end

section
/-! SUPPORT. Square and multiply (rule R144): what one round makes of the running power, the power the remaining rounds
reach, and the power of a whole run. -/

namespace Sys2Proof.Machine

theorem expRound_eq_ite (M E N i R : Nat) :
    expRound M E N i R = if E.testBit i then R * R % N * M % N else R * R % N := rfl

/-- A round is one product, reduced: the square times the base to the exponent's bit. It holds for `N = 0` too. -/
theorem expRound_eq_mod (M E N i R : Nat) : expRound M E N i R = R * R * M ^ (E / 2 ^ i % 2) % N := by
  rw [expRound_eq_ite, Nat.testBit_eq_decide_div_mod_eq]
  rcases Nat.mod_two_eq_zero_or_one (E / 2 ^ i) with hbit | hbit
  · simp [hbit]
  · simp [hbit, Nat.mod_mul_mod]

/-- The next bit doubles the exponent read so far and adds itself. -/
theorem div_two_pow_eq (E i : Nat) : E / 2 ^ i = E / 2 ^ (i + 1) + E / 2 ^ (i + 1) + E / 2 ^ i % 2 := by
  have hnext : E / 2 ^ (i + 1) = E / 2 ^ i / 2 := by rw [pow_succ, Nat.div_div_eq_div_mul]
  omega

/-- The loop invariant: before the round of bit `i` the running power is `M^(E div 2^(i+1))`, after it
`M^(E div 2^i)` (rule R144). -/
theorem expRound_of_eq_pow_mod {M E N i R : Nat} (hR : R = M ^ (E / 2 ^ (i + 1)) % N) :
    expRound M E N i R = M ^ (E / 2 ^ i) % N := by
  have hsq : R ≡ M ^ (E / 2 ^ (i + 1)) [MOD N] := hR ▸ Nat.mod_modEq ..
  have hpow : M ^ (E / 2 ^ i) = M ^ (E / 2 ^ (i + 1)) * M ^ (E / 2 ^ (i + 1)) * M ^ (E / 2 ^ i % 2) := by
    rw [← pow_add, ← pow_add, ← div_two_pow_eq]
  rw [expRound_eq_mod, hpow]
  exact (hsq.mul hsq).mul_right _

theorem expLoop_of_eq_pow_mod {M E N i R : Nat} (hR : R = M ^ (E / 2 ^ i) % N) : expLoop M E N i R = M ^ E % N := by
  induction i generalizing R with
  | zero => simpa [expLoop] using hR
  | succ i ih => exact ih (expRound_of_eq_pow_mod hR)

/-- The `K` rounds compute the value of rule R143: above bit `K - 1` the exponent has no bit, and the loop starts from
`M^0`. -/
theorem modexp_eq_pow_mod (p : Params) (M N : Nat) {E : Nat} (hE : E < 2 ^ p.K) : modexp p M E N = M ^ E % N :=
  expLoop_of_eq_pow_mod (by rw [Nat.div_eq_of_lt hE, pow_zero])

/-- Settles O21: the first three clauses are the definitions' equations, the rest the loop invariant and the bound. -/
theorem squareMultiplyReachesPower : Obligations.SquareMultiplyReachesPower := by
  unfold Obligations.SquareMultiplyReachesPower
  exact ⟨fun _ _ _ _ => rfl, fun _ _ _ _ _ => rfl, expRound_eq_ite, fun _ _ _ _ _ => expRound_of_eq_pow_mod,
    fun _ _ _ _ _ => expLoop_of_eq_pow_mod, fun M E N i R hN => expRound_lt hN M E i R,
    fun p M _ N _ hE => modexp_eq_pow_mod p M N hE⟩

end Sys2Proof.Machine
end

section
/-! SUPPORT. `rsa_transform` and command RSA (rules R140 to R147): the range check, the value, and the command's end. -/

namespace Sys2Proof.Machine

/-! ### `rsa_transform` -/

/-- The range check fails (rule R142). -/
theorem rsaTransform_of_le (p : Params) {m n : Bytes} (k : Bytes) (h : beInt n ≤ beInt m) :
    rsaTransform p m k n = .error .messageOutOfRange := if_pos h

/-- The range check passes: the power, exported (rules R143, R145). -/
theorem rsaTransform_of_lt {p : Params} (hp : p.Valid) {m k n : Bytes} (hk : k.length = p.kLen)
    (h : beInt m < beInt n) : rsaTransform p m k n = .ok (beBytes (beInt m ^ beInt k % beInt n) p.kLen) := by
  rw [rsaTransform, if_neg (by omega), modexp_eq_pow_mod p _ _ (beInt_lt_two_pow_K hp hk)]

/-! ### Command RSA (rule R140) -/

theorem exec_rsa_bigStep {s : State} (hb : s.busy = false) (hl : s.level = .bigStep) :
    exec .rsa s = .next (finish (rsaTransform Config.params (opm Config.params s) (opk Config.params s)
      (opn Config.params s)) (beginCommand 0x01#8 s)) := by
  rw [exec_next]
  exact congrArg _ (command_bigStep hb hl)

/-- RSA writes no operand register, in any state and at either level (rule R147, last row). -/
theorem exec_rsa_mem {s t : State} (h : exec .rsa s = .next t) : t.mem = s.mem := by
  obtain rfl : command (rsaWhole Config.params) rsaStart s = t := by
    rw [exec_next] at h
    exact Host.Outcome.next.inj h
  rcases command_cases (rsaWhole Config.params) rsaStart s with ⟨-, he⟩ | ⟨-, -, he⟩ | ⟨-, -, he⟩
  · rw [he]
  · rw [he, rsaWhole, finish_mem, beginCommand_mem]
  · rw [he, rsaStart, launch_mem, beginCommand_mem]

theorem inputsKept_finish_beginCommand (r : Except ErrorKind Bytes) (op : Byte) (s : State) :
    InputsKept s (finish r (beginCommand op s)) := by
  simp [InputsKept]

theorem scheduleKept_finish_beginCommand (r : Except ErrorKind Bytes) (op : Byte) (s : State) :
    ScheduleKept s (finish r (beginCommand op s)) := by
  simp [ScheduleKept]

theorem endedErr_endErr_beginCommand (k : ErrorKind) (op : Byte) (s : State) :
    EndedErr op (errorCode k) (endErr k (beginCommand op s)) :=
  ⟨rfl, rfl, rfl, rfl, rfl, rfl, rfl, rfl, rfl⟩

theorem endedOk_endOk_beginCommand (v : Bytes) (op : Byte) (s : State) : EndedOk op v (endOk v (beginCommand op s)) :=
  ⟨rfl, rfl, rfl, rfl, rfl, rfl, rfl, rfl, rfl⟩

/-- Settles O23: the start by the start's equation; the end by the two sides of the range check. -/
theorem rsaEnds : Obligations.RsaEnds := by
  unfold Obligations.RsaEnds
  refine ⟨rfl, fun s hb hl => exec_rsa_smallStep hb hl, fun s hb hl => ?_⟩
  refine ⟨_, exec_rsa_bigStep hb hl, inputsKept_finish_beginCommand .., scheduleKept_finish_beginCommand ..,
    finish_trace .., ?_⟩
  split
  next hle =>
    rw [rsaTransform_of_le _ _ hle, finish_error]
    exact endedErr_endErr_beginCommand .messageOutOfRange 0x01#8 s
  next hlt =>
    rw [rsaTransform_of_lt Config.params_valid (opk_length ..) (by omega), finish_ok]
    exact endedOk_endOk_beginCommand _ 0x01#8 s

/-! ### The corner cases (rule R147) -/

/-- `N - 1` is `-1` mod `N`: its odd powers are itself, its even powers 1. -/
theorem pred_pow_mod {N : Nat} (hN : 2 ≤ N) (E : Nat) : (N - 1) ^ E % N = if E % 2 = 1 then N - 1 else 1 := by
  have hsq : (N - 1) ^ 2 ≡ 1 [MOD N] := by
    obtain ⟨t, rfl⟩ : ∃ t, N = t + 2 := ⟨N - 2, by omega⟩
    have hmul : (t + 2 - 1) ^ 2 = 1 + (t + 2) * t := by rw [Nat.add_sub_assoc (by decide)]; ring
    rw [hmul]
    exact Nat.add_mul_mod_self_left ..
  have hpow : (N - 1) ^ E ≡ (N - 1) ^ (E % 2) [MOD N] := by
    have heven := (hsq.pow (E / 2)).mul_right ((N - 1) ^ (E % 2))
    rwa [← pow_mul, ← pow_add, Nat.div_add_mod, one_pow, one_mul] at heven
  rw [hpow]
  split
  next hodd => rw [hodd, pow_one, Nat.mod_eq_of_lt (by omega)]
  next heven => rw [Nat.mod_two_ne_one.1 heven, pow_zero, Nat.mod_eq_of_lt (by omega)]

/-- Settles O24: a failing row by the range check, every other row by the value of its power mod `N`. -/
theorem rsaCornerCases : Obligations.RsaCornerCases := by
  unfold Obligations.RsaCornerCases
  refine ⟨?_, fun s t => exec_rsa_mem⟩
  intro p hc m k n _ hk _ ok err
  have fails : beInt n ≤ beInt m → err := rsaTransform_of_le p k
  have power : beInt m < beInt n → ok (beInt m ^ beInt k % beInt n) :=
    rsaTransform_of_lt (Params.valid_of_constructible hc) hk
  have value : ∀ v, beInt m < beInt n → beInt m ^ beInt k % beInt n = v → ok v :=
    fun v hlt hv => hv ▸ power hlt
  refine ⟨fun h => fails (by omega), fun h1 h0 => value 0 (by omega) (by rw [h1, Nat.mod_one]),
    fun h1 h => fails (by omega), fun h => fails h.ge, fun h2 hpred => value _ (by omega) ?_,
    fun h => fails h.le, fun h0 h2 hlt => value 1 hlt ?_, fun h1 hlt => value _ hlt ?_,
    fun h0 h1 hn1 => value 0 (by omega) ?_, fun h1 h2 => value 1 (by omega) ?_,
    fun hlt _ => power hlt, power, fun hmn _ => fails (hmn ▸ le_refl _)⟩
  · rw [hpred, pred_pow_mod h2]
  · rw [h0, pow_zero, Nat.mod_eq_of_lt h2]
  · rw [h1, pow_one, Nat.mod_eq_of_lt hlt]
  · rw [h0, zero_pow (by omega), Nat.zero_mod]
  · rw [h1, one_pow, Nat.mod_eq_of_lt h2]

end Sys2Proof.Machine
end

section
/-! SUPPORT. The kernel under a valid key (rules R130, R139, R151): mod the modulus the two exponents undo each
other. -/

namespace Sys2Proof.Machine

/-- Fermat's little theorem for a base that may be a multiple of the prime: an exponent that is 1 mod `P - 1` gives the
base back. -/
theorem pow_modEq_self_of_prime {P : Nat} (hP : P.Prime) {t : Nat} (ht : P - 1 ∣ t) (x : Nat) :
    x ^ (t + 1) ≡ x [MOD P] := by
  have : Fact P.Prime := ⟨hP⟩
  obtain ⟨q, rfl⟩ := ht
  rw [← ZMod.natCast_eq_natCast_iff, Nat.cast_pow, pow_succ, pow_mul]
  by_cases hx : (x : ZMod P) = 0
  · rw [hx, mul_zero]
  · rw [ZMod.pow_card_sub_one_eq_one hx, one_pow, one_mul]

/-- With two distinct primes the exponent only has to be 1 mod `lcm(P - 1, Q - 1)`. -/
theorem pow_modEq_self_of_mod_lcm {P Q : Nat} (hP : P.Prime) (hQ : Q.Prime) (hne : P ≠ Q) {t : Nat}
    (ht : t % Nat.lcm (P - 1) (Q - 1) = 1) (x : Nat) : x ^ t ≡ x [MOD P * Q] := by
  have hdvd : Nat.lcm (P - 1) (Q - 1) ∣ t - 1 := by
    have hrem := Nat.dvd_sub_mod (n := Nat.lcm (P - 1) (Q - 1)) t
    rwa [ht] at hrem
  have hpos : t ≠ 0 := by rintro rfl; simp at ht
  have hsucc : t = (t - 1) + 1 := by omega
  rw [hsucc]
  exact (Nat.modEq_and_modEq_iff_modEq_mul ((Nat.coprime_primes hP hQ).2 hne)).1
    ⟨pow_modEq_self_of_prime hP ((Nat.dvd_lcm_left ..).trans hdvd) x,
      pow_modEq_self_of_prime hQ ((Nat.dvd_lcm_right ..).trans hdvd) x⟩

/-- Under a valid key both exponents, one after the other, are the identity mod the modulus, on multiples of a prime
factor too (rules R130, R151). -/
theorem ValidKey.pow_mul_modEq {p : Params} {e d n : Bytes} (h : ValidKey p e d n) (x : Nat) :
    x ^ (beInt e * beInt d) ≡ x [MOD beInt n] := by
  obtain ⟨-, -, -, P, Q, hP, hQ, hne, -, -, -, -, hn, -, -, -, hed⟩ := h
  rw [hn]
  exact pow_modEq_self_of_mod_lcm hP hQ hne hed x

/-- The modulus has its top bit set (rule R139). -/
theorem ValidKey.two_pow_le {p : Params} {e d n : Bytes} (h : ValidKey p e d n) : 2 ^ (p.K - 1) ≤ beInt n := by
  obtain ⟨-, -, -, P, Q, -, -, -, -, -, -, -, -, hn, -⟩ := h
  exact hn

/-- The kernel with exponent `a` is undone by the kernel with exponent `b` where `x^(a b)` is `x` mod the modulus. -/
theorem rsaTransform_inverts {p : Params} (hp : p.Valid) {a b n x : Bytes} (ha : a.length = p.kLen)
    (hb : b.length = p.kLen) (hn : n.length = p.kLen) (hx : x.length = p.kLen) (hlt : beInt x < beInt n)
    (hab : beInt x ^ (beInt a * beInt b) ≡ beInt x [MOD beInt n]) :
    ∃ y, rsaTransform p x a n = .ok y ∧ rsaTransform p y b n = .ok x := by
  have hfirst := rsaTransform_of_lt hp ha hlt
  have hmod : beInt x ^ beInt a % beInt n < beInt n := Nat.mod_lt _ (by omega)
  have himport := beInt_beBytes_kLen hp (hmod.trans (beInt_lt_two_pow_K hp hn))
  have hback : (beInt x ^ beInt a % beInt n) ^ beInt b % beInt n = beInt x := by
    rw [← Nat.pow_mod, ← pow_mul, hab, Nat.mod_eq_of_lt hlt]
  refine ⟨_, hfirst, ?_⟩
  rw [rsaTransform_of_lt hp hb (himport.symm ▸ hmod), himport, hback, ← hx, beBytes_beInt]

/-- Settles O25: the domain check at its boundary; the modulus' top bit; and Fermat's little theorem for both primes. -/
theorem kernelInvertsUnderValidKey : Obligations.KernelInvertsUnderValidKey := by
  unfold Obligations.KernelInvertsUnderValidKey
  refine ⟨fun p m k n => ⟨rsaTransform_of_le p k, fun h => rsaTransform_of_le p k (h ▸ le_refl _), fun h => ?_⟩,
    fun p e d n x hc hkey hx => ⟨fun hsmall => hsmall.trans_le hkey.two_pow_le, fun hlt => ?_⟩⟩
  · exact ⟨_, if_neg (by omega)⟩
  · have hp := Params.valid_of_constructible hc
    have hpow := hkey.pow_mul_modEq (beInt x)
    obtain ⟨he, hd, hn, -⟩ := hkey
    exact ⟨rsaTransform_inverts hp hd he hn hx hlt (by rwa [mul_comm]),
      rsaTransform_inverts hp he hd hn hx hlt hpow⟩

end Sys2Proof.Machine
end

section
/-! SUPPORT. The sequencer's steps in the kernel's phases (rule R150). -/

namespace Sys2Proof.Machine

/-- A sequencer step with no call in flight is what the phase does (rules R31, R34). -/
theorem step_sequencer {s : State} {rest : List Event} (h : s.agenda = .sequencer :: rest) (hp : s.pend = none) :
    step s = .next (phaseStep Config.params { s with agenda := rest }) := by
  rw [step_cons h, move, sequencerMove]
  simp only [hp]

section Phases

variable (p : Params) {s : State}

theorem phaseStep_r0Import (h : s.phase = .r0Import) : phaseStep p s = importPhase p s := by rw [phaseStep, h]

theorem phaseStep_r1Range (h : s.phase = .r1Range) : phaseStep p s = rangePhase p s := by rw [phaseStep, h]

theorem phaseStep_r2Exp (h : s.phase = .r2Exp) : phaseStep p s = expPhase s := by rw [phaseStep, h]

theorem phaseStep_r3Export (h : s.phase = .r3Export) : phaseStep p s = exportPhase p s := by rw [phaseStep, h]

/-- Under SIGN the message representative is the encoded message (rule R150). -/
theorem importPhase_sign (h : s.curCmd = 0x03#8) :
    importPhase p s = goto .r1Range { s with work := { s.work with
      rsaM := beInt s.work.em, rsaK := beInt (opk p s), rsaN := beInt (opn p s) } } := by
  rw [importPhase, encode, if_pos h]

theorem importPhase_of_ne_sign (h : s.curCmd ≠ 0x03#8) :
    importPhase p s = goto .r1Range { s with work := { s.work with
      rsaM := beInt (opm p s), rsaK := beInt (opk p s), rsaN := beInt (opn p s) } } := by
  rw [importPhase, encode, if_neg h]

theorem rangePhase_of_le (h : s.work.rsaN ≤ s.work.rsaM) : rangePhase p s = endErr .messageOutOfRange s := if_pos h

theorem rangePhase_of_lt (h : s.work.rsaM < s.work.rsaN) :
    rangePhase p s = goto .r2Exp { s with work := { s.work with rsaR := 1 % s.work.rsaN, rsaI := p.K } } :=
  if_neg (by omega)

theorem expPhase_zero (h : s.work.rsaI = 0) : expPhase s = goto .r3Export s := if_pos h

/-- With `i + 1` bits left the step is the round of bit `i` (rules R144, R150). -/
theorem expPhase_succ {i : Nat} (h : s.work.rsaI = i + 1) :
    expPhase s = { s with work := { s.work with
      rsaI := i, rsaR := expRound s.work.rsaM s.work.rsaK s.work.rsaN i s.work.rsaR } } := by
  rw [expPhase, if_neg (by omega), h, Nat.add_sub_cancel]

theorem exportPhase_verify (h : s.curCmd = 0x04#8) :
    exportPhase p s = goto .v2Trailer { s with work := { s.work with
      res := beBytes s.work.rsaR p.kLen, em := beBytes s.work.rsaR p.kLen } } := if_pos h

/-- Every command but VERIFY ends with the result (rule R150). -/
theorem exportPhase_of_ne_verify (h : s.curCmd ≠ 0x04#8) :
    exportPhase p s = endOk (beBytes s.work.rsaR p.kLen) s := if_neg h

end Phases

/-- Settles O26, phase by phase and, within a phase, by its condition. -/
theorem kernelPhases : Obligations.KernelPhases := by
  unfold Obligations.KernelPhases
  intro P s rest h hpend u res ended
  have run : ∀ {t t' : State}, phaseStep P u = t → t = t' → step s = .next t' := by
    rintro _ _ hphase rfl
    rw [← hphase]
    exact step_sequencer h hpend
  refine ⟨fun hph => ⟨fun hcmd => ?_, fun hcmd => ?_⟩, fun hph => ⟨fun hle => ?_, fun hlt => ?_⟩,
    fun hph => ⟨fun h0 => ?_, fun i hi => ?_⟩, fun hph => ⟨fun hcmd => ?_, fun hcmd => ?_⟩⟩
  -- `R0_IMPORT`
  · have hne : u.curCmd ≠ 0x03#8 := hcmd.elim (·.trans_ne (by decide)) (·.trans_ne (by decide))
    exact run (phaseStep_r0Import P hph) (importPhase_of_ne_sign P hne)
  · exact run (phaseStep_r0Import P hph) (importPhase_sign P hcmd)
  -- `R1_RANGE`
  · exact run (phaseStep_r1Range P hph) (rangePhase_of_le P hle)
  · exact run (phaseStep_r1Range P hph) (rangePhase_of_lt P hlt)
  -- `R2_EXP`
  · exact run (phaseStep_r2Exp P hph) (expPhase_zero h0)
  · have hround := expPhase_succ (s := u) hi
    rw [expRound_eq_ite, ← sq] at hround
    exact run (phaseStep_r2Exp P hph) hround
  -- `R3_EXPORT`
  · have hne : u.curCmd ≠ 0x04#8 := hcmd.elim (·.trans_ne (by decide)) (·.trans_ne (by decide))
    exact run (phaseStep_r3Export P hph) (exportPhase_of_ne_verify P hne)
  · exact run (phaseStep_r3Export P hph) (exportPhase_verify P hcmd)

end Sys2Proof.Machine
end

section
/-! SUPPORT. MGF1 as a function (rules R161 to R167): how many digests a mask takes, its result and its port calls on
either side of the bound, and how a longer mask begins. -/

namespace Sys2Proof.Machine

/-! ### The number of hash calls (rule R163) -/

/-- `q` digests are enough exactly when they have as many bytes as the mask: the count is the quotient, rounded up. -/
theorem mgfCount_le_iff {p : Params} (hp : p.Valid) {L q : Nat} : mgfCount p L ≤ q ↔ L ≤ q * p.hLen := by
  rw [mgfCount, ← Nat.ceilDiv_eq_add_pred_div, ceilDiv_le_iff_le_mul hp.hLen_pos, mul_comm]

theorem mgfCount_eq_succ {p : Params} (hp : p.Valid) {L q : Nat} (hlt : q * p.hLen < L) (hle : L ≤ (q + 1) * p.hLen) :
    mgfCount p L = q + 1 := by
  have hupper : mgfCount p L ≤ q + 1 := (mgfCount_le_iff hp).2 hle
  have hlower : ¬ mgfCount p L ≤ q := fun h => absurd ((mgfCount_le_iff hp).1 h) (by omega)
  omega

theorem mgfCount_zero {p : Params} (hp : p.Valid) : mgfCount p 0 = 0 :=
  Nat.le_zero.1 ((mgfCount_le_iff hp).2 (Nat.zero_le _))

/-- The longest mask takes `2^32` digests (rules R162, R166). -/
theorem mgfCount_maskBound {p : Params} (hp : p.Valid) : mgfCount p p.maskBound = 2 ^ 32 := by
  have hpos := hp.hLen_pos
  have hbound : p.maskBound = 2 ^ 32 * p.hLen := rfl
  exact mgfCount_eq_succ hp (L := p.maskBound) (q := 2 ^ 32 - 1) (by omega) (by omega)

theorem mgfCount_mono {p : Params} (hp : p.Valid) {L L' : Nat} (h : L ≤ L') : mgfCount p L ≤ mgfCount p L' :=
  (mgfCount_le_iff hp).2 (h.trans (le_mgfCount_mul p hp.hLen_pos L'))

/-! ### The result and the port calls (rules R162 to R164) -/

theorem mgf_of_lt {p : Params} {L : Nat} (seed : Bytes) (h : p.maskBound < L) :
    mgf p seed L = .error .maskTooLong := if_pos h

theorem mgf_of_le {p : Params} {L : Nat} (seed : Bytes) (h : L ≤ p.maskBound) :
    mgf p seed L = .ok ((mgfBlocks p seed (mgfCount p L)).take L) := if_neg (by omega)

theorem mgfCalls_of_lt {p : Params} {L : Nat} (seed : Bytes) (h : p.maskBound < L) : mgfCalls p seed L = [] := if_pos h

theorem mgfCalls_of_le {p : Params} {L : Nat} (seed : Bytes) (h : L ≤ p.maskBound) :
    mgfCalls p seed L = (List.range (mgfCount p L)).map fun c => .hash (seed ++ be32 c) := if_neg (by omega)

/-- With `q` digests for the mask, the result and the calls of counters 0 to `q - 1`. -/
theorem mgf_of_mgfCount {p : Params} {L q : Nat} (seed : Bytes) (h : L ≤ p.maskBound) (hq : mgfCount p L = q) :
    mgf p seed L = .ok ((mgfBlocks p seed q).take L) ∧
      mgfCalls p seed L = (List.range q).map fun c => .hash (seed ++ be32 c) := by
  subst hq
  exact ⟨mgf_of_le seed h, mgfCalls_of_le seed h⟩

theorem mgfBlocks_one (p : Params) (seed : Bytes) : mgfBlocks p seed 1 = p.hash (seed ++ be32 0) := by
  rw [mgfBlocks_succ, mgfBlocks_zero, List.nil_append, mgfInput]

theorem mgfBlocks_two (p : Params) (seed : Bytes) :
    mgfBlocks p seed 2 = p.hash (seed ++ be32 0) ++ p.hash (seed ++ be32 1) := by
  rw [mgfBlocks_succ, mgfBlocks_one, mgfInput]

/-- A mask of up to `hLen` bytes takes one digest (rule R167). -/
theorem mgf_of_le_hLen {p : Params} (hp : p.Valid) {L : Nat} (seed : Bytes) (h1 : 1 ≤ L) (h : L ≤ p.hLen) :
    mgf p seed L = .ok ((p.hash (seed ++ be32 0)).take L) ∧ mgfCalls p seed L = [.hash (seed ++ be32 0)] := by
  have hbound : p.maskBound = 2 ^ 32 * p.hLen := rfl
  have hrow := mgf_of_mgfCount seed (by omega) (mgfCount_eq_succ hp (L := L) (q := 0) (by omega) (by omega))
  rwa [mgfBlocks_one] at hrow

/-- One byte more takes the first byte of a second digest (rule R167). -/
theorem mgf_hLen_add_one {p : Params} (hp : p.Valid) (seed : Bytes) :
    mgf p seed (p.hLen + 1) = .ok (p.hash (seed ++ be32 0) ++ (p.hash (seed ++ be32 1)).take 1) ∧
      mgfCalls p seed (p.hLen + 1) = [.hash (seed ++ be32 0), .hash (seed ++ be32 1)] := by
  have hpos := hp.hLen_pos
  have hbound : p.maskBound = 2 ^ 32 * p.hLen := rfl
  have hrow := mgf_of_mgfCount seed (by omega)
    (mgfCount_eq_succ hp (L := p.hLen + 1) (q := 1) (by omega) (by omega))
  have htake : (mgfBlocks p seed 2).take (p.hLen + 1) =
      p.hash (seed ++ be32 0) ++ (p.hash (seed ++ be32 1)).take 1 := by
    rw [mgfBlocks_two, ← hash_length p (seed ++ be32 0), List.take_length_add_append]
  rwa [htake] at hrow

/-! ### Determinism, and how a longer mask begins (rule R165) -/

theorem mgf_congr {p p' : Params} (seed : Bytes) (L : Nat) (hlen : p.hLen = p'.hLen) (hhash : p.hash = p'.hash) :
    mgf p seed L = mgf p' seed L := by
  unfold mgf Params.maskBound mgfCount mgfBlocks
  rw [hlen, hhash]

theorem mgfBlocks_prefix (p : Params) (seed : Bytes) {q q' : Nat} (h : q ≤ q') :
    mgfBlocks p seed q <+: mgfBlocks p seed q' := by
  induction q', h using Nat.le_induction with
  | base => exact List.prefix_refl _
  | succ q' _ ih => rw [mgfBlocks_succ]; exact ih.trans (List.prefix_append ..)

/-- The digests of a mask at least as long begin with the mask. -/
theorem mgf_ok_prefix_mgfBlocks {p : Params} (hp : p.Valid) {seed T : Bytes} {L L' : Nat} (hL : L ≤ L')
    (h : mgf p seed L = .ok T) : T <+: mgfBlocks p seed (mgfCount p L') := by
  rcases mgf_cases p seed L with ⟨-, he⟩ | ⟨-, he⟩
  · rw [he] at h; cases h
  · rw [he] at h; cases h
    exact (List.take_prefix ..).trans (mgfBlocks_prefix p seed (mgfCount_mono hp hL))

/-- The longer one's digests begin with either mask, so the longer mask begins with the shorter. -/
theorem mgf_ok_prefix {p : Params} (hp : p.Valid) {seed T T' : Bytes} {L L' : Nat} (hL : L ≤ L')
    (h : mgf p seed L = .ok T) (h' : mgf p seed L' = .ok T') : T <+: T' := by
  refine List.prefix_of_prefix_length_le (mgf_ok_prefix_mgfBlocks hp hL h)
    (mgf_ok_prefix_mgfBlocks hp (le_refl L') h') ?_
  rw [mgf_ok_length hp.hLen_pos h, mgf_ok_length hp.hLen_pos h']
  exact hL

/-- Settles O30: the definition uses the two parameters alone; one string of digests begins with both masks, and their
lengths are the lengths asked for. -/
theorem mgfPrefixOfLonger : Obligations.MgfPrefixOfLonger := by
  unfold Obligations.MgfPrefixOfLonger
  refine ⟨fun p p' seed L => mgf_congr seed L, fun p seed L L' hc hlt hbound => ?_⟩
  have hp := Params.valid_of_constructible hc
  have h : mgf p seed L = .ok _ := mgf_of_le seed (hlt.le.trans hbound)
  have h' : mgf p seed L' = .ok _ := mgf_of_le seed hbound
  refine ⟨_, _, h, h', mgf_ok_prefix hp hlt.le h h', ?_⟩
  rw [mgf_ok_length hp.hLen_pos h, mgf_ok_length hp.hLen_pos h']
  exact hlt

end Sys2Proof.Machine
end

section
/-! SUPPORT. Command MGF at the big-step level (rules R160, R167, R169): its three ends, in the order of its checks. -/

namespace Sys2Proof.Machine

theorem exec_mgf_bigStep {s : State} (hb : s.busy = false) (hl : s.level = .bigStep) :
    exec .mgf s = .next
      (if s.msg.length + 4 > Config.params.hashMaxLen then endErr .messageTooLong (beginCommand 0x02#8 s)
       else finish (mgf Config.params s.msg s.maskLen.toNat)
         (record (mgfCalls Config.params s.msg s.maskLen.toNat) (beginCommand 0x02#8 s))) := by
  rw [exec_next]
  simp only [mgfCommand, command_bigStep hb hl, mgfWhole, seedTooLong, decide_eq_true_eq, encode]

section Ends

variable {s : State} (hb : s.busy = false) (hl : s.level = .bigStep)
include hb hl

/-- The seed guard comes first, whatever `MASK_LEN` is (rules R160, R242). -/
theorem exec_mgf_messageTooLong (h : s.msg.length + 4 > Config.params.hashMaxLen) :
    exec .mgf s = .next (endErr .messageTooLong (beginCommand 0x02#8 s)) := by
  rw [exec_mgf_bigStep hb hl, if_pos h]

/-- Beyond the bound no call is made (rules R162, R169). -/
theorem exec_mgf_maskTooLong (h : s.msg.length + 4 ≤ Config.params.hashMaxLen)
    (hlt : Config.params.maskBound < s.maskLen.toNat) :
    exec .mgf s = .next (endErr .maskTooLong (beginCommand 0x02#8 s)) := by
  rw [exec_mgf_bigStep hb hl, if_neg (by omega), mgf_of_lt _ hlt, mgfCalls_of_lt _ hlt, finish_error, record,
    List.append_nil]

theorem exec_mgf_ok (h : s.msg.length + 4 ≤ Config.params.hashMaxLen)
    (hle : s.maskLen.toNat ≤ Config.params.maskBound) :
    exec .mgf s = .next (endOk
      ((mgfBlocks Config.params s.msg (mgfCount Config.params s.maskLen.toNat)).take s.maskLen.toNat)
      (record (mgfCalls Config.params s.msg s.maskLen.toNat) (beginCommand 0x02#8 s))) := by
  rw [exec_mgf_bigStep hb hl, if_neg (by omega), mgf_of_le _ hle, finish_ok]

end Ends

theorem inputsKept_endOk_record_beginCommand (v : Bytes) (calls : List PortCall) (op : Byte) (s : State) :
    InputsKept s (endOk v (record calls (beginCommand op s))) := ⟨rfl, fun _ => rfl, rfl, rfl⟩

theorem scheduleKept_endOk_record_beginCommand (v : Bytes) (calls : List PortCall) (op : Byte) (s : State) :
    ScheduleKept s (endOk v (record calls (beginCommand op s))) := ⟨rfl, rfl, rfl⟩

theorem endedOk_endOk_record_beginCommand (v : Bytes) (calls : List PortCall) (op : Byte) (s : State) :
    EndedOk op v (endOk v (record calls (beginCommand op s))) := ⟨rfl, rfl, rfl, rfl, rfl, rfl, rfl, rfl, rfl⟩

theorem statusByte_endOk (v : Bytes) (s : State) : statusByte (endOk v s) = 0x02#8 :=
  statusByte_of_flags (b := false) (d := true) (e := false) rfl rfl rfl

/-- Settles O29, end by end: the seed guard, the bound, the mask. -/
theorem mgfEnds : Obligations.MgfEnds := by
  unfold Obligations.MgfEnds
  refine ⟨rfl, ?_⟩
  intro s hb hl L q T
  by_cases hseed : s.msg.length + 4 > Config.params.hashMaxLen
  · refine ⟨_, exec_mgf_messageTooLong hb hl hseed, inputsKept_finish_beginCommand (.error .messageTooLong) ..,
      scheduleKept_finish_beginCommand (.error .messageTooLong) .., ?_⟩
    rw [if_pos hseed]
    exact ⟨endedErr_endErr_beginCommand .messageTooLong .., rfl⟩
  by_cases hbound : L > 2 ^ 32 * Config.params.hLen
  · refine ⟨_, exec_mgf_maskTooLong hb hl (by omega) hbound, inputsKept_finish_beginCommand (.error .maskTooLong) ..,
      scheduleKept_finish_beginCommand (.error .maskTooLong) .., ?_⟩
    rw [if_neg hseed, if_pos hbound]
    exact ⟨endedErr_endErr_beginCommand .maskTooLong .., rfl⟩
  · have hle : L ≤ Config.params.maskBound := Nat.le_of_not_lt hbound
    refine ⟨_, exec_mgf_ok hb hl (by omega) hle, inputsKept_endOk_record_beginCommand ..,
      scheduleKept_endOk_record_beginCommand .., ?_⟩
    rw [if_neg hseed, if_neg hbound]
    exact ⟨endedOk_endOk_record_beginCommand .., mgf_ok_length Config.params_valid.hLen_pos (mgf_of_le s.msg hle),
      congrArg (s.trace ++ ·) (mgfCalls_of_le s.msg hle)⟩

/-- `MASK_LEN = 0` passes the bound and makes no call (rule R167). -/
theorem exec_mgf_maskLen_zero {s : State} (hb : s.busy = false) (hl : s.level = .bigStep)
    (h : s.msg.length + 4 ≤ Config.params.hashMaxLen) (h0 : s.maskLen = 0#64) :
    exec .mgf s = .next (endOk [] (record [] (beginCommand 0x02#8 s))) := by
  have hlen : s.maskLen.toNat = 0 := by rw [h0]; rfl
  have hcalls : mgfCalls Config.params s.msg 0 = [] :=
    (mgf_of_mgfCount s.msg (Nat.zero_le _) (mgfCount_zero Config.params_valid)).2
  rw [exec_mgf_ok hb hl h (by omega), hlen, List.take_zero, hcalls]

/-- Settles O31: a row is the number of digests it takes and what is left of them; the rows of the command are two of
its ends. -/
theorem mgfCornerCases : Obligations.MgfCornerCases := by
  unfold Obligations.MgfCornerCases
  refine ⟨fun p seed L hc => ?_, fun s hb hl => ⟨fun hseed => ?_, fun hseed h0 => ?_⟩⟩
  · have hp := Params.valid_of_constructible hc
    refine ⟨?_, fun h1 hlt => mgf_of_le_hLen hp seed h1 hlt.le, ?_, fun h => h ▸ mgf_hLen_add_one hp seed, ?_,
      fun h => ⟨mgf_of_lt seed h, mgfCalls_of_lt seed h⟩, ?_, fun L' T T' hlt => mgf_ok_prefix hp hlt.le, ?_⟩
    · rintro rfl
      exact mgf_of_mgfCount seed (Nat.zero_le _) (mgfCount_zero hp)
    · rintro rfl
      have hrow := mgf_of_le_hLen hp seed hp.hLen_pos (le_refl _)
      rwa [List.take_of_length_le (hash_length ..).le] at hrow
    -- the bound, the empty seed
    · rintro rfl
      obtain ⟨hmask, hcalls⟩ := mgf_of_mgfCount seed (le_refl _) (mgfCount_maskBound hp)
      exact ⟨⟨_, hmask⟩, hcalls⟩
    · rintro rfl
      split
      next hlt => exact mgfCalls_of_lt [] hlt
      next hle => exact mgfCalls_of_le [] (Nat.le_of_not_lt hle)
    -- which lengths can occur
    · have hhLen := hp.hLen_le
      have hdb := hp.dbSize_eq
      exact ⟨by omega, by omega, hp.kLen_le, hp.dbSize_le_maskBound⟩
  · exact ⟨_, exec_mgf_messageTooLong hb hl hseed, endedErr_endErr_beginCommand .messageTooLong .., rfl⟩
  · exact ⟨_, exec_mgf_maskLen_zero hb hl hseed h0, statusByte_endOk .., rfl, List.append_nil _⟩

end Sys2Proof.Machine
end

section
/-! SUPPORT. The MGF1 counter (rule R166). -/

namespace Sys2Proof.Machine

/-- What the invariant says in `M1_LOOP`: the bound has been checked, and the accumulator holds the digests of the
counters below `MGF_CTR`. -/
theorem Inv.m1Loop {p : Params} {s : State} (h : Inv p s) (hph : s.phase = .m1Loop) :
    s.work.mgfLen ≤ p.maskBound ∧ s.work.mgfCtr ≤ 2 ^ 32 ∧
      s.work.mgfAcc = mgfBlocks p s.work.mgfSeed s.work.mgfCtr := by
  have hlive := h.transients
  rw [live, hph] at hlive
  exact hlive.2

/-- Settles O32: the number of calls is at most `2^32` because the mask is within the bound; in `M1_LOOP` the digests
accumulated are shorter than the mask, so they are fewer than `2^32`. -/
theorem mgfCounterNeverWraps : Obligations.MgfCounterNeverWraps := by
  unfold Obligations.MgfCounterNeverWraps
  refine ⟨fun p seed L hc hle => ?_, fun s hinv hph => ?_⟩
  · have hcount : mgfCount p L ≤ 2 ^ 32 := (mgfCount_le_iff (Params.valid_of_constructible hc)).2 hle
    have hlen : (mgfCalls p seed L).length = mgfCount p L := by
      rw [mgfCalls_of_le seed hle, List.length_map, List.length_range]
    refine ⟨hlen, hlen ▸ hcount, fun j hj => ⟨?_, by omega⟩⟩
    rw [mgfCalls_of_le seed hle, List.getElem?_map, List.getElem?_range (hlen ▸ hj), Option.map_some]
  · obtain ⟨hbound, hctr, hacc⟩ := hinv.m1Loop hph
    refine ⟨hctr, fun hshort => ?_⟩
    rw [hacc, mgfBlocks_length] at hshort
    have hlt : s.work.mgfCtr < 2 ^ 32 := Nat.lt_of_mul_lt_mul_right (hshort.trans_le hbound)
    omega

end Sys2Proof.Machine
end

section
/-! SUPPORT. The steps in the phases of MGF1: the sequencer's (rule R168) and the answer to a call (rule R34). -/

namespace Sys2Proof.Machine

/-- The answer to the call in flight completes the phase that made it (rule R34). -/
theorem step_answer {s : State} {rest : List Event} {call : PortCall} (h : s.agenda = .answer :: rest)
    (hp : s.pend = some call) :
    step s = .next (completePhase (answerOf Config.params { s with agenda := rest } call)
      { s with agenda := rest, pend := none }) := by
  rw [step_cons h, move, answerMove]
  simp only [hp]

section Phases

variable (p : Params) {s : State}

theorem phaseStep_m0Bound (h : s.phase = .m0Bound) : phaseStep p s = boundPhase p s := by rw [phaseStep, h]

theorem phaseStep_m1Loop (h : s.phase = .m1Loop) : phaseStep p s = loopPhase s := by rw [phaseStep, h]

theorem phaseStep_m2Trunc (h : s.phase = .m2Trunc) : phaseStep p s = truncPhase s := by rw [phaseStep, h]

theorem completePhase_m1Loop (bytes : Bytes) (h : s.phase = .m1Loop) :
    completePhase bytes s = loopAnswered bytes s := by rw [completePhase, h]

theorem boundPhase_of_lt (h : p.maskBound < s.work.mgfLen) : boundPhase p s = endErr .maskTooLong s := if_pos h

theorem boundPhase_of_le (h : s.work.mgfLen ≤ p.maskBound) :
    boundPhase p s = goto .m1Loop { s with work := { s.work with mgfAcc := [], mgfCtr := 0 } } := if_neg (by omega)

theorem loopPhase_of_le (h : s.work.mgfLen ≤ s.work.mgfAcc.length) : loopPhase s = goto .m2Trunc s := if_pos h

theorem loopPhase_of_lt (h : s.work.mgfAcc.length < s.work.mgfLen) :
    loopPhase s = ask (.hash (s.work.mgfSeed ++ be32 s.work.mgfCtr)) s := if_neg (by omega)

theorem truncPhase_mgf (h : s.curCmd = 0x02#8) : truncPhase s = endOk (s.work.mgfAcc.take s.work.mgfLen) s := by
  simp [truncPhase, h, encode]

theorem truncPhase_sign (h : s.curCmd = 0x03#8) :
    truncPhase s = goto .s6Xor { s with work := { s.work with dbmask := s.work.mgfAcc.take s.work.mgfLen } } :=
  if_pos h

theorem truncPhase_verify (h : s.curCmd = 0x04#8) :
    truncPhase s = goto .v5Xor { s with work := { s.work with dbmask := s.work.mgfAcc.take s.work.mgfLen } } := by
  simp [truncPhase, h, encode]

end Phases

/-- Settles O33, phase by phase and, within a phase, by its condition; then the answer. -/
theorem mgfPhases : Obligations.MgfPhases := by
  unfold Obligations.MgfPhases
  intro P
  refine ⟨?_, fun s rest x h hpend hph => ?_⟩
  · intro s rest h hpend u t call ended
    have run : ∀ {v v' : State}, phaseStep P u = v → v = v' → step s = .next v' := by
      rintro _ _ hphase rfl
      rw [← hphase]
      exact step_sequencer h hpend
    refine ⟨fun hph => ⟨fun hlt => ?_, fun hle => ?_⟩, fun hph => ⟨fun hle => ?_, fun hlt => ?_⟩,
      fun hph => ⟨fun hcmd => ?_, fun hcmd => ?_, fun hcmd => ?_⟩⟩
    -- `M0_BOUND`
    · exact run (phaseStep_m0Bound P hph) (boundPhase_of_lt P hlt)
    · exact run (phaseStep_m0Bound P hph) (boundPhase_of_le P hle)
    -- `M1_LOOP`
    · exact run (phaseStep_m1Loop P hph) (loopPhase_of_le hle)
    · exact run (phaseStep_m1Loop P hph) (loopPhase_of_lt hlt)
    -- `M2_TRUNC`
    · exact run (phaseStep_m2Trunc P hph) (truncPhase_mgf hcmd)
    · exact run (phaseStep_m2Trunc P hph) (truncPhase_sign hcmd)
    · exact run (phaseStep_m2Trunc P hph) (truncPhase_verify hcmd)
  · rw [step_answer h hpend]
    exact congrArg _ (completePhase_m1Loop (P.hash x) (s := { s with agenda := rest, pend := none }) hph)

end Sys2Proof.Machine
end

section
/-! SUPPORT. The block SIGN hands to the kernel (rules R107, R188, R189): its layout byte by byte, and its bound. -/

namespace Sys2Proof.Machine

/-! ### Clearing the top bit (rule R189) -/

theorem clearTopBit_getD_zero (x : Bytes) : (clearTopBit x).getD 0 0x00#8 = x.getD 0 0x00#8 &&& 0x7F#8 := by
  cases x <;> rfl

theorem clearTopBit_getD_of_pos (x : Bytes) {i : Nat} (h : 1 ≤ i) :
    (clearTopBit x).getD i 0x00#8 = x.getD i 0x00#8 := by
  obtain ⟨j, rfl⟩ := Nat.exists_eq_add_of_le' h
  cases x <;> rfl

theorem clearTopBit_drop (x : Bytes) {k : Nat} (h : 1 ≤ k) : (clearTopBit x).drop k = x.drop k := by
  obtain ⟨j, rfl⟩ := Nat.exists_eq_add_of_le' h
  cases x <;> rfl

theorem clearTopBit_eq_set (x : Bytes) : clearTopBit x = x.set 0 (x.getD 0 0x00#8 &&& 0x7F#8) := by
  cases x <;> rfl

theorem clearTopBit_getLsbD_seven (x : Bytes) : ((clearTopBit x).getD 0 0x00#8).getLsbD 7 = false := by
  rw [clearTopBit_getD_zero, BitVec.getLsbD_and, show (0x7F#8 : Byte).getLsbD 7 = false from rfl, Bool.and_false]

/-- Without bit 7 the first byte is at most 127, so the block is below half of `2^K`. -/
theorem beInt_clearTopBit_lt {p : Params} (hp : p.Valid) {x : Bytes} (hx : x.length = p.kLen) :
    beInt (clearTopBit x) < 2 ^ (p.K - 1) := by
  cases x with
  | nil => simp [clearTopBit]
  | cons b y =>
    have hexp : p.K - 1 = 8 * y.length + 7 := by
      have hK := hp.K_eq
      rw [← hx, List.length_cons] at hK
      omega
    have hpow : 2 ^ (p.K - 1) = 128 * 256 ^ y.length := by rw [hexp, pow_add, pow_mul]; ring
    have hhead : (b &&& 0x7F#8).toNat ≤ 127 := by rw [BitVec.toNat_and]; exact Nat.and_le_right
    rw [hpow]
    calc beInt (clearTopBit (b :: y)) = (b &&& 0x7F#8).toNat * 256 ^ y.length + beInt y := beInt_cons ..
      _ < 127 * 256 ^ y.length + 256 ^ y.length :=
        Nat.add_lt_add_of_le_of_lt (Nat.mul_le_mul_right _ hhead) (beInt_lt y)
      _ = 128 * 256 ^ y.length := by ring

/-! ### The block after step 9 -/

/-- `EM` after step 9, what SIGN hands the kernel: the masked data block, `H`, the trailer, the top bit cleared. -/
def signedBlock (p : Params) (salt dbMask h : Bytes) : Bytes :=
  clearTopBit (encodedMessage (xorBytes (dataBlock p salt) dbMask) h)

theorem xorBytes_getD {x y : Bytes} (h : x.length = y.length) (i : Nat) :
    (xorBytes x y).getD i 0x00#8 = x.getD i 0x00#8 ^^^ y.getD i 0x00#8 := by
  by_cases hi : i < x.length
  · have hxor : i < (xorBytes x y).length := by rw [xorBytes_length]; omega
    rw [List.getD_eq_getElem _ _ hxor, List.getD_eq_getElem _ _ hi, List.getD_eq_getElem _ _ (h ▸ hi)]
    exact List.getElem_zipWith
  · have hxor : (xorBytes x y).length ≤ i := by rw [xorBytes_length]; omega
    rw [List.getD_eq_default _ _ hxor, List.getD_eq_default _ _ (by omega), List.getD_eq_default _ _ (by omega)]
    rfl

theorem encodedMessage_getD_of_lt {m : Bytes} (h : Bytes) {i : Nat} (hi : i < m.length) :
    (encodedMessage m h).getD i 0x00#8 = m.getD i 0x00#8 := by
  rw [encodedMessage, List.append_assoc, List.getD_append _ _ _ _ hi]

/-- With a padding byte the data block begins with 0x00 (rules R108, R185). -/
theorem dataBlock_getD_zero {p : Params} (hp : p.Valid) (salt : Bytes) : (dataBlock p salt).getD 0 0x00#8 = 0x00#8 := by
  obtain ⟨j, hj⟩ := Nat.exists_eq_add_of_le' hp.psLen_pos
  rw [dataBlock, hj]
  rfl

section Layout

variable {p : Params} (hp : p.Valid) {salt dbMask h : Bytes} (hsalt : salt.length = p.hLen)
  (hmask : dbMask.length = p.dbSize) (hh : h.length = p.hLen)

include hp hsalt in
theorem dataBlock_length_eq_dbSize : (dataBlock p salt).length = p.dbSize := by
  have hps := hp.psLen_eq
  rw [dataBlock_length]
  omega

include hp hsalt hmask

theorem maskedDb_length : (xorBytes (dataBlock p salt) dbMask).length = p.dbSize := by
  rw [xorBytes_length, dataBlock_length_eq_dbSize hp hsalt, hmask, min_self]

/-- A byte of the masked data block stands at its own index before step 9. -/
theorem encodedMessage_masked_getD {i : Nat} (hi : i < p.dbSize) :
    (encodedMessage (xorBytes (dataBlock p salt) dbMask) h).getD i 0x00#8 =
      (dataBlock p salt).getD i 0x00#8 ^^^ dbMask.getD i 0x00#8 := by
  rw [encodedMessage_getD_of_lt h (by rwa [maskedDb_length hp hsalt hmask]),
    xorBytes_getD (by rw [dataBlock_length_eq_dbSize hp hsalt, hmask])]

theorem signedBlock_getD_zero :
    (signedBlock p salt dbMask h).getD 0 0x00#8 =
      ((dataBlock p salt).getD 0 0x00#8 ^^^ dbMask.getD 0 0x00#8) &&& 0x7F#8 := by
  have hps := hp.psLen_eq
  rw [signedBlock, clearTopBit_getD_zero, encodedMessage_masked_getD hp hsalt hmask (by omega)]

theorem signedBlock_getD_of_lt {i : Nat} (h1 : 1 ≤ i) (hi : i < p.dbSize) :
    (signedBlock p salt dbMask h).getD i 0x00#8 = (dataBlock p salt).getD i 0x00#8 ^^^ dbMask.getD i 0x00#8 := by
  rw [signedBlock, clearTopBit_getD_of_pos _ h1, encodedMessage_masked_getD hp hsalt hmask hi]

include hh

theorem encodedMessage_masked_length : (encodedMessage (xorBytes (dataBlock p salt) dbMask) h).length = p.kLen := by
  rw [encodedMessage_length, maskedDb_length hp hsalt hmask, hh, hp.dbSize_eq]

theorem signedBlock_length : (signedBlock p salt dbMask h).length = p.kLen := by
  rw [signedBlock, clearTopBit_length, encodedMessage_masked_length hp hsalt hmask hh]

theorem beInt_signedBlock_lt : beInt (signedBlock p salt dbMask h) < 2 ^ (p.K - 1) :=
  beInt_clearTopBit_lt hp (encodedMessage_masked_length hp hsalt hmask hh)

/-- What follows the masked data block is `H` and the trailer. -/
theorem signedBlock_drop_dbSize : (signedBlock p salt dbMask h).drop p.dbSize = h ++ [trailer] := by
  have hps := hp.psLen_eq
  rw [signedBlock, clearTopBit_drop _ (by omega), encodedMessage, List.append_assoc,
    List.drop_left' (maskedDb_length hp hsalt hmask)]

theorem hashOf_signedBlock : hashOf p (signedBlock p salt dbMask h) = h := by
  rw [hashOf, signedBlock_drop_dbSize hp hsalt hmask hh, List.take_left' hh]

theorem trailerOf_signedBlock : trailerOf p (signedBlock p salt dbMask h) = trailer := by
  have hlast : p.kLen - 1 = p.dbSize + p.hLen := by have hdb := hp.dbSize_eq; omega
  have hdrop := congrArg (·.getD p.hLen 0x00#8) (signedBlock_drop_dbSize hp hsalt hmask hh)
  simp only [List.getD_eq_getElem?_getD, List.getElem?_drop] at hdrop
  rw [trailerOf, hlast, List.getD_eq_getElem?_getD, hdrop, ← hh, List.getElem?_concat_length, Option.getD_some]

end Layout

/-- Settles O34: the bound because the first byte is below 128; that byte is the mask's because the data block
begins with a padding byte. -/
theorem topBitClearBoundsBlock : Obligations.TopBitClearBoundsBlock := by
  unfold Obligations.TopBitClearBoundsBlock
  intro p salt dbMask h hc hsalt hmask hh before em
  have hp := Params.valid_of_constructible hc
  refine ⟨signedBlock_length hp hsalt hmask hh, beInt_signedBlock_lt hp hsalt hmask hh, clearTopBit_getD_zero before,
    ?_, fun i => clearTopBit_getD_of_pos before⟩
  have hzero := signedBlock_getD_zero hp hsalt hmask (h := h)
  rwa [dataBlock_getD_zero hp, BitVec.zero_xor] at hzero

end Sys2Proof.Machine
end

section
/-! SUPPORT. Command SIGN at the big-step level (rules R180, R191, R192, R194, R196): its result and its port calls on
either side of the message bound, its ends, and the signature of a valid key. -/

namespace Sys2Proof.Machine

/-! ### `sign` and its port calls -/

/-- `dbMask` of step 6: `mgf(H, DB_SIZE)` (rule R186). -/
def signMask (p : Params) (message salt : Bytes) : Bytes :=
  (mgfBlocks p (saltedHash p message salt) (mgfCount p p.dbSize)).take p.dbSize

/-- Under rule R7 step 6 cannot fail (rules R186, R244). -/
theorem mgf_saltedHash {p : Params} (hp : p.Valid) (message salt : Bytes) :
    mgf p (saltedHash p message salt) p.dbSize = .ok (signMask p message salt) :=
  mgf_of_le _ hp.dbSize_le_maskBound

theorem signMask_length {p : Params} (hp : p.Valid) (message salt : Bytes) :
    (signMask p message salt).length = p.dbSize :=
  mgf_ok_length hp.hLen_pos (mgf_saltedHash hp message salt)

/-- Under rule R7 step 7 never fails (rule R187). -/
theorem encodingTooLong_eq_false {p : Params} (hp : p.Valid) : encodingTooLong p = false := by
  have hdb := hp.dbSize_eq
  rw [encodingTooLong, decide_eq_false_iff_not]
  omega

/-- The block SIGN makes of a message and a salt (rules R181 to R189). -/
def messageBlock (p : Params) (message salt : Bytes) : Bytes :=
  signedBlock p salt (signMask p message salt) (saltedHash p message salt)

section Message

variable {p : Params} {message : Bytes} (salt : Bytes)

theorem sign_of_lt (d n : Bytes) (h : p.hashMaxLen < message.length) :
    sign p message d n salt = .error .messageTooLong := if_pos h

/-- Within the message bound only the kernel of step 10 can fail (rule R192). -/
theorem sign_of_le (hp : p.Valid) (d n : Bytes) (h : message.length ≤ p.hashMaxLen) :
    sign p message d n salt = rsaTransform p (messageBlock p message salt) d n := by
  rw [sign, if_neg (by omega)]
  simp only [mgf_saltedHash hp, encodingTooLong_eq_false hp]
  rfl

theorem signCalls_of_lt (h : p.hashMaxLen < message.length) : signCalls p message salt = [] := if_pos h

/-- The port trace of rule R194. -/
theorem signCalls_of_le (hp : p.Valid) (h : message.length ≤ p.hashMaxLen) :
    signCalls p message salt = [.hash message, .rng p.hLen, .hash (mPrime (p.hash message) salt)] ++
      (List.range (mgfCount p p.dbSize)).map fun c => .hash (saltedHash p message salt ++ be32 c) := by
  rw [signCalls, if_neg (by omega), mgfCalls_of_le _ hp.dbSize_le_maskBound]

end Message

/-! ### The command's end -/

theorem signCommand_bigStep (p : Params) {s : State} (hb : s.busy = false) (hl : s.level = .bigStep) :
    signCommand p s = finish (sign p s.msg (opk p s) (opn p s) (nextSalt p s))
      (record (signCalls p s.msg (nextSalt p s)) (beginCommand 0x03#8 s)) :=
  command_bigStep hb hl

theorem exec_sign_bigStep {s : State} (hb : s.busy = false) (hl : s.level = .bigStep) :
    exec .sign s = .next (finish (sign Config.params s.msg (opk Config.params s) (opn Config.params s)
        (nextSalt Config.params s))
      (record (signCalls Config.params s.msg (nextSalt Config.params s)) (beginCommand 0x03#8 s))) := by
  rw [exec_next]
  exact congrArg _ (signCommand_bigStep _ hb hl)

theorem inputsKept_finish_record_beginCommand (r : Except ErrorKind Bytes) (calls : List PortCall) (op : Byte)
    (s : State) : InputsKept s (finish r (record calls (beginCommand op s))) := by
  simp [InputsKept]

theorem scheduleKept_finish_record_beginCommand (r : Except ErrorKind Bytes) (calls : List PortCall) (op : Byte)
    (s : State) : ScheduleKept s (finish r (record calls (beginCommand op s))) := by
  simp [ScheduleKept]

theorem endedErr_endErr_record_beginCommand (k : ErrorKind) (calls : List PortCall) (op : Byte) (s : State) :
    EndedErr op (errorCode k) (endErr k (record calls (beginCommand op s))) :=
  ⟨rfl, rfl, rfl, rfl, rfl, rfl, rfl, rfl, rfl⟩

/-- Only after VERIFY is the error code filtered (rules R29, R254). -/
theorem errcode_of_curCmd_ne_verify (p : Params) {s : State} (h : s.curCmd ≠ 0x04#8) : errcode p s = s.ecause :=
  if_neg fun hfilter => h hfilter.2.1

/-- Settles O35: beyond the message bound no call is made; within it the trace is fixed before step 10, whose range check
splits the two ends. -/
theorem signEnds : Obligations.SignEnds := by
  unfold Obligations.SignEnds
  refine ⟨rfl, ?_⟩
  intro s hb hl salt m' h q dbMask db em
  refine ⟨draw_length .., _, exec_sign_bigStep hb hl, inputsKept_finish_record_beginCommand ..,
    scheduleKept_finish_record_beginCommand .., errcode_of_curCmd_ne_verify _ (by simp), ?_⟩
  split
  next hlong =>
    rw [sign_of_lt _ _ _ hlong, signCalls_of_lt _ hlong, finish_error]
    exact ⟨endedErr_endErr_record_beginCommand .messageTooLong .., List.append_nil _⟩
  next hshort =>
    have hle : s.msg.length ≤ Config.params.hashMaxLen := Nat.le_of_not_lt hshort
    have hem : messageBlock Config.params s.msg (nextSalt Config.params s) = em := rfl
    rw [sign_of_le _ Config.params_valid _ _ hle, signCalls_of_le _ Config.params_valid hle, hem]
    refine ⟨by rw [finish_trace, record_trace, ← List.append_assoc]; rfl, ?_⟩
    split
    next hrange =>
      rw [rsaTransform_of_le _ _ hrange, finish_error]
      exact endedErr_endErr_record_beginCommand .messageOutOfRange ..
    next hrange =>
      rw [rsaTransform_of_lt Config.params_valid (opk_length ..) (by omega), finish_ok]
      exact endedOk_endOk_record_beginCommand ..

/-! ### The signature of a valid key (rule R196) -/

/-- Under a valid key the block is below the modulus, whose top bit is set, so step 10 succeeds (rules R139, R190). -/
theorem sign_of_validKey {p : Params} (hp : p.Valid) {message e d n salt : Bytes} (hkey : ValidKey p e d n)
    (hmsg : message.length ≤ p.hashMaxLen) (hsalt : salt.length = p.hLen) :
    sign p message d n salt = .ok (beBytes (beInt (messageBlock p message salt) ^ beInt d % beInt n) p.kLen) := by
  have hsmall : beInt (messageBlock p message salt) < 2 ^ (p.K - 1) :=
    beInt_signedBlock_lt hp hsalt (signMask_length hp message salt) (hash_length ..)
  have hlt := hsmall.trans_le hkey.two_pow_le
  obtain ⟨-, hd, -⟩ := hkey
  rw [sign_of_le salt hp d n hmsg, rsaTransform_of_lt hp hd hlt]

/-- Settles O37: the result by the range check that a valid key passes, the bytes of `EM` by the block's layout. -/
theorem signatureOfValidKey : Obligations.SignatureOfValidKey := by
  unfold Obligations.SignatureOfValidKey
  intro p s e hc hb hl hmsg hkey salt h db
  have hp := Params.valid_of_constructible hc
  have hsalt : (nextSalt p s).length = p.hLen := draw_length ..
  have hh : h.length = p.hLen := hash_length ..
  have hmask := signMask_length hp s.msg salt
  have hend := signCommand_bigStep p hb hl
  rw [sign_of_validKey hp hkey hmsg hsalt, finish_ok] at hend
  refine ⟨messageBlock p s.msg salt, signMask p s.msg salt, signedBlock_length hp hsalt hmask hh,
    mgf_saltedHash hp s.msg salt, hmask, ?_, ?_, clearTopBit_getLsbD_seven _,
    trailerOf_signedBlock hp hsalt hmask hh, hashOf_signedBlock hp hsalt hmask hh,
    fun i => signedBlock_getD_of_lt hp hsalt hmask, signedBlock_getD_zero hp hsalt hmask⟩
  · rw [hend]; rfl
  · rw [hend, statusByte_endOk]

end Sys2Proof.Machine
end

section
/-! SUPPORT. The steps in the phases of SIGN: the sequencer's (rule R193) and the answers to its calls (rule R34). -/

namespace Sys2Proof.Machine

section Phases

variable (p : Params) {s : State}

theorem phaseStep_s1Len (h : s.phase = .s1Len) : phaseStep p s = lenPhase p s := by rw [phaseStep, h]

theorem phaseStep_s2Mhash (h : s.phase = .s2Mhash) : phaseStep p s = mhashPhase s := by rw [phaseStep, h]

theorem phaseStep_s3Salt (h : s.phase = .s3Salt) : phaseStep p s = saltPhase p s := by rw [phaseStep, h]

theorem phaseStep_s4H (h : s.phase = .s4H) : phaseStep p s = hPhase s := by rw [phaseStep, h]

theorem phaseStep_s5Db (h : s.phase = .s5Db) : phaseStep p s = dbPhase p s := by rw [phaseStep, h]

theorem phaseStep_s6Mask (h : s.phase = .s6Mask) : phaseStep p s = maskPhase p s := by rw [phaseStep, h]

theorem phaseStep_s6Xor (h : s.phase = .s6Xor) : phaseStep p s = xorPhase s := by rw [phaseStep, h]

theorem phaseStep_s7Size (h : s.phase = .s7Size) : phaseStep p s = sizePhase p s := by rw [phaseStep, h]

theorem phaseStep_s8Em (h : s.phase = .s8Em) : phaseStep p s = emPhase s := by rw [phaseStep, h]

theorem phaseStep_s9Topbit (h : s.phase = .s9Topbit) : phaseStep p s = topbitPhase s := by rw [phaseStep, h]

theorem phaseStep_s10Rsa (h : s.phase = .s10Rsa) : phaseStep p s = signRsaPhase s := by rw [phaseStep, h]

theorem lenPhase_of_lt (h : p.hashMaxLen < s.msg.length) : lenPhase p s = endErr .messageTooLong s := if_pos h

theorem lenPhase_of_le (h : s.msg.length ≤ p.hashMaxLen) : lenPhase p s = goto .s2Mhash s := if_neg (by omega)

/-- Under rule R7 the size check passes (rule R187). -/
theorem sizePhase_of_valid (hp : p.Valid) : sizePhase p s = goto .s8Em s := by
  rw [sizePhase, encodingTooLong_eq_false hp]
  rfl

theorem topbitPhase_eq_set : topbitPhase s = goto .s10Rsa { s with work := { s.work with
    em := s.work.em.set 0 (s.work.em.getD 0 0x00#8 &&& 0x7F#8) } } := by
  rw [topbitPhase, clearTopBit_eq_set]

variable (bytes : Bytes)

theorem completePhase_s2Mhash (h : s.phase = .s2Mhash) : completePhase bytes s = mhashAnswered bytes s := by
  rw [completePhase, h]

theorem completePhase_s3Salt (h : s.phase = .s3Salt) : completePhase bytes s = saltAnswered bytes s := by
  rw [completePhase, h]

theorem completePhase_s4H (h : s.phase = .s4H) : completePhase bytes s = hAnswered bytes s := by
  rw [completePhase, h]

end Phases

/-- Settles O36, phase by phase and, in the length check, by its condition; then the three answers. -/
theorem signPhases : Obligations.SignPhases := by
  unfold Obligations.SignPhases
  intro P
  refine ⟨?_, fun s rest h => ?_⟩
  · intro s rest h hpend u asks
    have run : ∀ {v v' : State}, phaseStep P u = v → v = v' → step s = .next v' := by
      rintro _ _ hphase rfl
      rw [← hphase]
      exact step_sequencer h hpend
    exact ⟨fun hph => ⟨fun hlt => run (phaseStep_s1Len P hph) (lenPhase_of_lt P hlt),
        fun hle => run (phaseStep_s1Len P hph) (lenPhase_of_le P hle)⟩,
      fun hph => run (phaseStep_s2Mhash P hph) rfl,
      fun hph => run (phaseStep_s3Salt P hph) rfl,
      fun hph => run (phaseStep_s4H P hph) rfl,
      fun hph => run (phaseStep_s5Db P hph) rfl,
      fun hph => run (phaseStep_s6Mask P hph) rfl,
      fun hph => run (phaseStep_s6Xor P hph) rfl,
      fun hph => run (phaseStep_s7Size P hph) (sizePhase_of_valid P Config.params_valid),
      fun hph => run (phaseStep_s8Em P hph) rfl,
      fun hph => run (phaseStep_s9Topbit P hph) topbitPhase_eq_set,
      fun hph => run (phaseStep_s10Rsa P hph) rfl⟩
  · have answered : ∀ {call v v'}, s.pend = some call → completePhase (answerOf P { s with agenda := rest } call)
        { s with agenda := rest, pend := none } = v → v = v' → step s = .next v' := by
      rintro _ _ _ hpend hphase rfl
      rw [← hphase]
      exact step_answer h hpend
    exact ⟨fun x hpend hph => answered hpend (completePhase_s2Mhash _ hph) rfl,
      fun j hpend hph => ⟨_, draw_length .., answered hpend (completePhase_s3Salt _ hph) rfl⟩,
      fun x hpend hph => answered hpend (completePhase_s4H _ hph) rfl⟩

end Sys2Proof.Machine
end

section
/-! SUPPORT. The checks of the decoder on strings (rules R212 to R216, R224): the flag and the forced byte in terms of
bits and list updates, the padding byte by byte, and the full-length comparison. -/

namespace Sys2Proof.Machine

/-! ### The top bit and the first byte (rules R213, R215, R230) -/

theorem topBitSet_eq_getLsbD (em : Bytes) : topBitSet em = (em.getD 0 0x00#8).getLsbD 7 := by
  have hmask : (0x80#8 : Byte) = BitVec.twoPow 8 7 := rfl
  rw [topBitSet, hmask, BitVec.and_twoPow]
  cases (em.getD 0 0x00#8).getLsbD 7 <;> rfl

theorem forceFirst_eq_set (x : Bytes) : forceFirst x = x.set 0 0x00#8 := by
  cases x <;> rfl

/-- A clear top bit is left as it is. -/
theorem clearTopBit_cons_of_getLsbD {b : Byte} (h : b.getLsbD 7 = false) (rest : Bytes) :
    clearTopBit (b :: rest) = b :: rest := by
  have hsmall : b.toNat < 2 ^ 7 := by
    have htwice := BitVec.msb_eq_false_iff_two_mul_lt.1 ((BitVec.msb_eq_getLsbD_last b).trans h)
    omega
  have hkeep : b &&& 0x7F#8 = b := BitVec.eq_of_toNat_eq (Nat.and_two_pow_sub_one_of_lt_two_pow hsmall)
  rw [clearTopBit, hkeep]

/-! ### The padding check (rule R216) -/

theorem paddingOk_eq_false_iff (p : Params) (db : Bytes) :
    paddingOk p db = false ↔ db.getD p.psLen 0x00#8 ≠ 0x01#8 ∨ ¬ ∀ b ∈ db.take p.psLen, b = 0x00#8 := by
  rw [← Bool.not_eq_true, ← not_and_or]
  simp [paddingOk]

theorem forall_mem_take_eq_zero_iff (db : Bytes) (n : Nat) :
    (∀ b ∈ db.take n, b = 0x00#8) ↔ ∀ i < n, db.getD i 0x00#8 = 0x00#8 := by
  induction db generalizing n with
  | nil => simp
  | cons b db ih =>
    cases n with
    | zero => simp
    | succ n => rw [List.take_succ_cons, List.forall_mem_cons, ih, Nat.forall_lt_succ_left']; rfl

/-- The forced first byte passes, so the check starts with byte 1 (rules R215, R216). -/
theorem paddingOk_forceFirst_eq_false_iff (p : Params) (x : Bytes) :
    paddingOk p (forceFirst x) = false ↔ (forceFirst x).getD p.psLen 0x00#8 ≠ 0x01#8 ∨
      ¬ ∀ i < p.psLen, 1 ≤ i → (forceFirst x).getD i 0x00#8 = 0x00#8 := by
  have hzero : (forceFirst x).getD 0 0x00#8 = 0x00#8 := by cases x <;> rfl
  rw [paddingOk_eq_false_iff, forall_mem_take_eq_zero_iff]
  refine or_congr_right (not_congr ⟨fun h i hi _ => h i hi, fun h i hi => ?_⟩)
  rcases Nat.eq_zero_or_pos i with rfl | hpos
  · exact hzero
  · exact h i hi hpos

/-! ### The full-length comparison (rule R224) -/

theorem foldl_or_eq_zero_iff (ds : Bytes) (acc : Byte) :
    ds.foldl (fun diff d => diff ||| d) acc = 0x00#8 ↔ acc = 0x00#8 ∧ ∀ d ∈ ds, d = 0x00#8 := by
  induction ds generalizing acc with
  | nil => simp
  | cons d ds ih => simp [ih, BitVec.or_eq_zero_iff, and_assoc]

theorem xorBytes_eq_zero_iff {x y : Bytes} (h : x.length = y.length) :
    (∀ d ∈ xorBytes x y, d = 0x00#8) ↔ x = y := by
  induction x generalizing y with
  | nil => simp [xorBytes, List.eq_nil_of_length_eq_zero h.symm]
  | cons a x ih =>
    cases y with
    | nil => cases h
    | cons b y =>
      have htail := ih (Nat.succ.inj h)
      simp only [xorBytes] at htail
      simp [xorBytes, htail, BitVec.xor_eq_zero_iff]

/-- The or of all byte differences is 0 exactly when no pair differs. -/
theorem difference_eq_zero_iff {x y : Bytes} (h : x.length = y.length) : difference x y = 0x00#8 ↔ x = y := by
  rw [difference, foldl_or_eq_zero_iff, ← xorBytes_eq_zero_iff h]
  exact and_iff_right rfl

/-- Settles O40: an or is 0 exactly when every operand is, and an exclusive-or exactly when its operands are equal. -/
theorem fullComparisonIsEquality : Obligations.FullComparisonIsEquality := by
  unfold Obligations.FullComparisonIsEquality
  intro h' h hlen
  exact ⟨(difference_eq_zero_iff hlen).not, fun i _ hzero => by rw [(difference_eq_zero_iff hlen).1 hzero]⟩

end Sys2Proof.Machine
end

section
/-! SUPPORT. `verify` and its port calls (rules R211 to R226, R233), check by check, and the bits of the block the decoder
ignores (rule R230). -/

namespace Sys2Proof.Machine

/-! ### The decoder on the block, check by check -/

/-- `dbMask` of step 5: `mgf(H, DB_SIZE)` with the `H` of the block (rule R215). -/
def verifyMask (p : Params) (em : Bytes) : Bytes :=
  (mgfBlocks p (hashOf p em) (mgfCount p p.dbSize)).take p.dbSize

/-- `DB` after step 5 (rule R215). -/
def recoveredDb (p : Params) (em : Bytes) : Bytes := unmask (maskedDbOf p em) (verifyMask p em)

/-- The salt of step 7 (rule R217). -/
def recoveredSalt (p : Params) (em : Bytes) : Bytes := saltOf p (recoveredDb p em)

section Block

variable {p : Params} (message : Bytes) {em : Bytes}

theorem verifyBlock_of_trailer (h : trailerOf p em ≠ trailer) :
    verifyBlock p message em = .error .invalidTrailer ∧ blockCalls p message em = [] := ⟨if_pos h, if_pos h⟩

variable (htrailer : trailerOf p em = trailer)
include htrailer

theorem verifyBlock_of_topBitSet (h : topBitSet em = true) :
    verifyBlock p message em = .error .invalidLeadingBit ∧ blockCalls p message em = [] := by
  simp [verifyBlock, blockCalls, htrailer, h]

variable (htop : topBitSet em = false) (hbound : p.dbSize ≤ p.maskBound)
include htop hbound

/-- Past steps 2 and 3 the mask is made, and the padding check decides whether steps 8 and 9 are reached. -/
theorem verifyBlock_of_topBit_clear :
    verifyBlock p message em =
      (if paddingOk p (recoveredDb p em) then verifyHash p message (recoveredSalt p em) (hashOf p em)
       else .error .invalidPadding) ∧
    blockCalls p message em = mgfCalls p (hashOf p em) p.dbSize ++
      (if paddingOk p (recoveredDb p em) then verifyHashCalls p message (recoveredSalt p em) else []) := by
  have hmask : mgf p (hashOf p em) p.dbSize = .ok (verifyMask p em) := mgf_of_le _ hbound
  rw [verifyBlock, blockCalls, if_neg (not_not.2 htrailer), if_neg (not_not.2 htrailer), htop, hmask]
  exact ⟨rfl, rfl⟩

theorem verifyBlock_of_padding (h : paddingOk p (recoveredDb p em) = false) :
    verifyBlock p message em = .error .invalidPadding ∧
      blockCalls p message em = mgfCalls p (hashOf p em) p.dbSize := by
  have hblock := verifyBlock_of_topBit_clear message htrailer htop hbound
  simpa [h] using hblock

variable (hpad : paddingOk p (recoveredDb p em) = true)
include hpad

theorem verifyBlock_of_messageTooLong (h : p.hashMaxLen < message.length) :
    verifyBlock p message em = .error .messageTooLong ∧
      blockCalls p message em = mgfCalls p (hashOf p em) p.dbSize := by
  have hblock := verifyBlock_of_topBit_clear message htrailer htop hbound
  simpa [hpad, verifyHash, verifyHashCalls, h] using hblock

/-- Within the message bound both hashes are asked for, and the verdict is their comparison (rules R219, R224). -/
theorem verifyBlock_of_message_le (h : message.length ≤ p.hashMaxLen) (hlen : (hashOf p em).length = p.hLen) :
    verifyBlock p message em =
      (if saltedHash p message (recoveredSalt p em) = hashOf p em then .ok () else .error .hashMismatch) ∧
    blockCalls p message em = mgfCalls p (hashOf p em) p.dbSize ++
      [.hash message, .hash (mPrime (p.hash message) (recoveredSalt p em))] := by
  have hblock := verifyBlock_of_topBit_clear message htrailer htop hbound
  have hcmp : difference (saltedHash p message (recoveredSalt p em)) (hashOf p em) = 0x00#8 ↔ _ :=
    difference_eq_zero_iff ((hash_length ..).trans hlen.symm)
  simpa [hpad, verifyHash, verifyHashCalls, Nat.not_lt.2 h, hcmp] using hblock

end Block

/-- The `H` of a block of `kLen` bytes has `hLen` bytes (rule R214). -/
theorem hashOf_length {p : Params} (hp : p.Valid) {em : Bytes} (h : em.length = p.kLen) :
    (hashOf p em).length = p.hLen := by
  have hdb := hp.dbSize_eq
  rw [hashOf, List.length_take, List.length_drop]
  omega

/-! ### Step 1 (rule R211) -/

theorem verify_of_le (p : Params) (message e : Bytes) {n sig : Bytes} (h : beInt n ≤ beInt sig) :
    verify p message e n sig = .error .messageOutOfRange ∧ verifyCalls p message e n sig = [] := by
  rw [verify, verifyCalls, rsaTransform_of_le p e h]
  exact ⟨rfl, rfl⟩

/-- Past step 1 the verdict and the calls are the decoder's on the recovered block. -/
theorem verify_of_rsaTransform {p : Params} (message : Bytes) {e n sig em : Bytes}
    (h : rsaTransform p sig e n = .ok em) :
    verify p message e n sig = verifyBlock p message em ∧ verifyCalls p message e n sig = blockCalls p message em := by
  rw [verify, verifyCalls, h]
  exact ⟨rfl, rfl⟩

/-! ### The bits the decoder ignores (rule R230) -/

/-- Forcing the first byte forgets it, whether or not the mask reaches it. -/
theorem unmask_cons (b b' : Byte) (x mask : Bytes) : unmask (b :: x) mask = unmask (b' :: x) mask := by
  cases mask <;> rfl

/-- Of byte 0 the decoder looks at bit 7 alone: the trailer and `H` lie behind it, and in `DB` it is forced. -/
theorem verifyBlock_cons {p : Params} (hp : p.Valid) (message : Bytes) {b b' : Byte} (rest : Bytes)
    (hb : b.getLsbD 7 = false) (hb' : b'.getLsbD 7 = false) :
    verifyBlock p message (b :: rest) = verifyBlock p message (b' :: rest) := by
  obtain ⟨l, hlast⟩ : ∃ l, p.kLen - 1 = l + 1 := ⟨p.kLen - 2, by have hk := hp.kLen_ge; omega⟩
  obtain ⟨k, hsize⟩ : ∃ k, p.dbSize = k + 1 := ⟨p.dbSize - 1, by have hps := hp.psLen_eq; omega⟩
  have htrailer : trailerOf p (b :: rest) = trailerOf p (b' :: rest) := by
    rw [trailerOf, trailerOf, hlast, List.getD_cons_succ, List.getD_cons_succ]
  have htop : topBitSet (b :: rest) = topBitSet (b' :: rest) := by
    rw [topBitSet_eq_getLsbD, topBitSet_eq_getLsbD, List.getD_cons_zero, List.getD_cons_zero, hb, hb']
  have hhash : hashOf p (b :: rest) = hashOf p (b' :: rest) := by
    rw [hashOf, hashOf, hsize, List.drop_succ_cons, List.drop_succ_cons]
  have hunmask : ∀ mask, unmask (maskedDbOf p (b :: rest)) mask = unmask (maskedDbOf p (b' :: rest)) mask := by
    intro mask
    rw [maskedDbOf, maskedDbOf, hsize, List.take_succ_cons, List.take_succ_cons]
    exact unmask_cons ..
  unfold verifyBlock
  simp only [htrailer, htop, hhash, hunmask]

/-- Under a valid key every block with a clear top bit is below the modulus, so it has a signature (rules R139, R230). -/
theorem exists_rsaTransform_of_topBit_clear {p : Params} (hp : p.Valid) {e d n : Bytes} (hkey : ValidKey p e d n)
    {b : Byte} {rest : Bytes} (hrest : rest.length + 1 = p.kLen) (hb : b.getLsbD 7 = false) :
    ∃ sig, rsaTransform p (b :: rest) d n = .ok sig ∧ rsaTransform p sig e n = .ok (b :: rest) := by
  have hlt : beInt (b :: rest) < beInt n := by
    rw [← clearTopBit_cons_of_getLsbD hb rest]
    exact (beInt_clearTopBit_lt hp (x := b :: rest) hrest).trans_le hkey.two_pow_le
  have hpow := hkey.pow_mul_modEq (beInt (b :: rest))
  obtain ⟨he, hd, hn, -⟩ := hkey
  exact rsaTransform_inverts hp hd he hn hrest hlt (by rwa [mul_comm])

/-- Settles O41: the verdict because no check reads bits 6 to 0 of byte 0; the altered block's signature is its power to
the exponent `d`. -/
theorem lowBitsOfBlockIgnored : Obligations.LowBitsOfBlockIgnored := by
  unfold Obligations.LowBitsOfBlockIgnored
  intro p message b b' rest hc hrest hb hb'
  have hp := Params.valid_of_constructible hc
  have hsame := verifyBlock_cons hp message rest hb hb'
  refine ⟨hsame, fun e d n s hkey hs haccept => ?_⟩
  obtain ⟨s', hsig, hback⟩ := exists_rsaTransform_of_topBit_clear hp hkey hrest hb'
  refine ⟨s', hsig, ?_⟩
  calc verify p message e n s' = verifyBlock p message (b' :: rest) := (verify_of_rsaTransform message hback).1
    _ = verifyBlock p message (b :: rest) := hsame.symm
    _ = verify p message e n s := (verify_of_rsaTransform message hs).1.symm
    _ = .ok () := haccept

end Sys2Proof.Machine
end

section
/-! SUPPORT. Command VERIFY at the big-step level (rules R210, R227, R233): its end in terms of the verdict, then the checks
in their order. -/

namespace Sys2Proof.Machine

theorem verifyCommand_bigStep (p : Params) {s : State} (hb : s.busy = false) (hl : s.level = .bigStep) :
    verifyCommand p s = verifyWhole p s := command_bigStep hb hl

theorem exec_verify_bigStep {s : State} (hb : s.busy = false) (hl : s.level = .bigStep) :
    exec .verify s = .next (verifyWhole Config.params s) := by
  rw [exec_next]
  exact congrArg _ (verifyCommand_bigStep _ hb hl)

section Ends

variable (p : Params) (s : State)

theorem inputsKept_verifyWhole : InputsKept s (verifyWhole p s) := inputsKept_finish_record_beginCommand ..

theorem scheduleKept_verifyWhole : ScheduleKept s (verifyWhole p s) := scheduleKept_finish_record_beginCommand ..

theorem verifyWhole_trace :
    (verifyWhole p s).trace = s.trace ++ verifyCalls p s.msg (opk p s) (opn p s) (opm p s) := by
  rw [verifyWhole, finish_trace, record_trace, beginCommand_trace]

/-- `OUT` is empty after either verdict (rule R210). -/
theorem verifyWhole_out : (verifyWhole p s).out = [] := by
  unfold verifyWhole
  cases verify p s.msg (opk p s) (opn p s) (opm p s) <;> rfl

/-- Every rejection is filtered when `DIAG_EN = 0` (rules R29, R254). -/
theorem errcode_verifyWhole : errcode p (verifyWhole p s) =
    if (verifyWhole p s).err = true ∧ p.diagEn = false then 0x10#8 else (verifyWhole p s).ecause := by
  have hcmd : (verifyWhole p s).curCmd = 0x04#8 := by rw [verifyWhole, finish_curCmd]; rfl
  have herr : (verifyWhole p s).err = true ↔ (verifyWhole p s).ecause ≠ 0x00#8 := by
    unfold verifyWhole
    cases verify p s.msg (opk p s) (opn p s) (opm p s) with
    | ok => simp [verdict]
    | error k => simp [verdict, errorCode_ne_zero]
  simp only [errcode, signatureRejected, hcmd, herr, true_and, and_comm]

variable {p s}

theorem endedOk_verifyWhole (h : verify p s.msg (opk p s) (opn p s) (opm p s) = .ok ()) :
    EndedOk 0x04#8 [] (verifyWhole p s) := by
  rw [verifyWhole, h]
  exact endedOk_endOk_record_beginCommand ..

theorem endedErr_verifyWhole {k : ErrorKind} (h : verify p s.msg (opk p s) (opn p s) (opm p s) = .error k) :
    EndedErr 0x04#8 (errorCode k) (verifyWhole p s) := by
  rw [verifyWhole, h]
  exact endedErr_endErr_record_beginCommand ..

end Ends

/-- Settles O38: the frame holds after every verdict; then the checks one after the other, each that fails ending the chain
with its code and the calls made so far. -/
theorem verifyEnds : Obligations.VerifyEnds := by
  unfold Obligations.VerifyEnds
  intro P
  refine ⟨rfl, ?_⟩
  intro s hb hl em h q dbMask db salt m' maskCalls
  refine ⟨_, exec_verify_bigStep hb hl, inputsKept_verifyWhole .., scheduleKept_verifyWhole .., verifyWhole_out ..,
    errcode_verifyWhole .., ?_⟩
  rw [verifyWhole_trace]
  split
  -- Step 1
  next hrange =>
    obtain ⟨hverdict, hcalls⟩ := verify_of_le P s.msg (opk P s) hrange
    exact ⟨endedErr_verifyWhole hverdict, by rw [hcalls, List.append_nil]⟩
  next hrange =>
  have hp : P.Valid := Config.params_valid
  obtain ⟨hverify, hcalls⟩ := verify_of_rsaTransform s.msg
    (rsaTransform_of_lt hp (opk_length P s) (Nat.lt_of_not_le hrange))
  rw [hcalls]
  have rejects : ∀ {k calls}, verifyBlock P s.msg em = .error k ∧ blockCalls P s.msg em = calls →
      EndedErr 0x04#8 (errorCode k) (verifyWhole P s) ∧ s.trace ++ blockCalls P s.msg em = s.trace ++ calls :=
    fun hend => ⟨endedErr_verifyWhole (hverify.trans hend.1), by rw [hend.2]⟩
  -- Steps 2 and 3
  split
  next htrailer =>
    exact (rejects (verifyBlock_of_trailer s.msg htrailer)).imp_right (·.trans (List.append_nil _))
  next htrailer =>
  replace htrailer : trailerOf P em = trailer := not_not.1 htrailer
  rw [← topBitSet_eq_getLsbD em]
  split
  next htop =>
    exact (rejects (verifyBlock_of_topBitSet s.msg htrailer htop)).imp_right (·.trans (List.append_nil _))
  next htop =>
  replace htop : topBitSet em = false := Bool.eq_false_of_not_eq_true htop
  have hbound := hp.dbSize_le_maskBound
  have hmask : mgfCalls P (hashOf P em) P.dbSize = maskCalls := mgfCalls_of_le _ hbound
  have hdb : recoveredDb P em = db := forceFirst_eq_set _
  have hsalt : recoveredSalt P em = salt := congrArg (saltOf P) hdb
  have hpadding := paddingOk_forceFirst_eq_false_iff P (xorBytes (maskedDbOf P em) (verifyMask P em))
  rw [← hmask, ← hdb]
  -- Steps 6, 8 and 9
  split
  next hpad =>
    exact rejects (verifyBlock_of_padding s.msg htrailer htop hbound (hpadding.2 hpad))
  next hpad =>
  replace hpad : paddingOk P (recoveredDb P em) = true := Bool.eq_true_of_not_eq_false (mt hpadding.1 hpad)
  split
  next hlong => exact rejects (verifyBlock_of_messageTooLong s.msg htrailer htop hbound hpad hlong)
  next hshort =>
  obtain ⟨hverdict, hhashes⟩ := verifyBlock_of_message_le s.msg htrailer htop hbound hpad (Nat.le_of_not_lt hshort)
    (hashOf_length hp (beBytes_length ..))
  rw [hsalt] at hverdict hhashes
  refine ⟨by rw [hhashes, ← List.append_assoc]; rfl, ?_⟩
  split
  next heq => exact endedOk_verifyWhole (hverify.trans (hverdict.trans (if_pos heq)))
  next hne => exact endedErr_verifyWhole (hverify.trans (hverdict.trans (if_neg hne)))

end Sys2Proof.Machine
end

section
/-! SUPPORT. The steps in the phases of VERIFY: the sequencer's (rule R232) and the answers to its calls (rule R34). -/

namespace Sys2Proof.Machine

section Phases

variable (p : Params) {s : State}

theorem phaseStep_v1Rsa (h : s.phase = .v1Rsa) : phaseStep p s = verifyRsaPhase s := by rw [phaseStep, h]

theorem phaseStep_v2Trailer (h : s.phase = .v2Trailer) : phaseStep p s = trailerPhase p s := by rw [phaseStep, h]

theorem phaseStep_v3Leadbit (h : s.phase = .v3Leadbit) : phaseStep p s = leadbitPhase s := by rw [phaseStep, h]

theorem phaseStep_v4Split (h : s.phase = .v4Split) : phaseStep p s = splitPhase p s := by rw [phaseStep, h]

theorem phaseStep_v5Mask (h : s.phase = .v5Mask) : phaseStep p s = unmaskPhase p s := by rw [phaseStep, h]

theorem phaseStep_v5Xor (h : s.phase = .v5Xor) : phaseStep p s = unxorPhase s := by rw [phaseStep, h]

theorem phaseStep_v6Pad (h : s.phase = .v6Pad) : phaseStep p s = padPhase p s := by rw [phaseStep, h]

theorem phaseStep_v7Salt (h : s.phase = .v7Salt) : phaseStep p s = recoverSaltPhase p s := by rw [phaseStep, h]

theorem phaseStep_v8Len (h : s.phase = .v8Len) : phaseStep p s = guardPhase p s := by rw [phaseStep, h]

theorem phaseStep_v8Mhash (h : s.phase = .v8Mhash) : phaseStep p s = verifyMhashPhase s := by rw [phaseStep, h]

theorem phaseStep_v8H2 (h : s.phase = .v8H2) : phaseStep p s = h2Phase s := by rw [phaseStep, h]

theorem phaseStep_v9Cmp (h : s.phase = .v9Cmp) : phaseStep p s = cmpPhase s := by rw [phaseStep, h]

theorem phaseStep_v10Accept (h : s.phase = .v10Accept) : phaseStep p s = acceptPhase s := by rw [phaseStep, h]

theorem leadbitPhase_eq_ite : leadbitPhase s =
    if (s.work.em.getD 0 0x00#8).getLsbD 7 then endErr .invalidLeadingBit s else goto .v4Split s := by
  rw [leadbitPhase, topBitSet_eq_getLsbD]

theorem unxorPhase_eq_set : unxorPhase s = goto .v6Pad { s with work := { s.work with
    db := (xorBytes s.work.mdb s.work.dbmask).set 0 0x00#8 } } := by
  rw [unxorPhase, unmask, forceFirst_eq_set]

theorem padPhase_eq_ite : padPhase p s =
    if s.work.db.getD p.psLen 0x00#8 ≠ 0x01#8 ∨ ¬ (∀ b ∈ s.work.db.take p.psLen, b = 0x00#8)
    then endErr .invalidPadding s else goto .v7Salt s := by
  rw [padPhase, ← ite_not]
  exact if_congr ((Bool.not_eq_true _).to_iff.trans (paddingOk_eq_false_iff p s.work.db)) rfl rfl

/-- On two strings of one length the comparison is that of the strings (rule R224). -/
theorem cmpPhase_eq_ite (h : s.work.h2.length = s.work.hb.length) : cmpPhase s =
    if s.work.h2 ≠ s.work.hb then endErr .hashMismatch s else goto .v10Accept s :=
  if_congr (difference_eq_zero_iff h).not rfl rfl

variable (bytes : Bytes)

theorem completePhase_v8Mhash (h : s.phase = .v8Mhash) :
    completePhase bytes s = verifyMhashAnswered bytes s := by rw [completePhase, h]

theorem completePhase_v8H2 (h : s.phase = .v8H2) : completePhase bytes s = h2Answered bytes s := by
  rw [completePhase, h]

end Phases

/-- Settles O39, phase by phase, each check in the form the rule gives it; then the two answers. -/
theorem verifyPhases : Obligations.VerifyPhases := by
  unfold Obligations.VerifyPhases
  intro P
  refine ⟨?_, fun s rest x h hpend => ?_⟩
  · intro s rest h hpend u asks rejects
    have run : ∀ {v v' : State}, phaseStep P u = v → v = v' → step s = .next v' := by
      rintro _ _ hphase rfl
      rw [← hphase]
      exact step_sequencer h hpend
    exact ⟨fun hph => run (phaseStep_v1Rsa P hph) rfl,
      fun hph => run (phaseStep_v2Trailer P hph) rfl,
      fun hph => run (phaseStep_v3Leadbit P hph) leadbitPhase_eq_ite,
      fun hph => run (phaseStep_v4Split P hph) rfl,
      fun hph => run (phaseStep_v5Mask P hph) rfl,
      fun hph => run (phaseStep_v5Xor P hph) unxorPhase_eq_set,
      fun hph => run (phaseStep_v6Pad P hph) (padPhase_eq_ite P),
      fun hph => run (phaseStep_v7Salt P hph) rfl,
      fun hph => run (phaseStep_v8Len P hph) rfl,
      fun hph => run (phaseStep_v8Mhash P hph) rfl,
      fun hph => run (phaseStep_v8H2 P hph) rfl,
      fun hph hlen => run (phaseStep_v9Cmp P hph) (cmpPhase_eq_ite hlen),
      fun hph => run (phaseStep_v10Accept P hph) rfl⟩
  · have answered : ∀ {v v'}, completePhase (P.hash x) { s with agenda := rest, pend := none } = v → v = v' →
        step s = .next v' := by
      rintro _ _ hphase rfl
      rw [← hphase]
      exact step_answer h hpend
    exact ⟨fun hph => answered (completePhase_v8Mhash _ hph) rfl,
      fun hph => answered (completePhase_v8H2 _ hph) rfl⟩

end Sys2Proof.Machine
end

section
/-! SUPPORT. The invariant of a run (rules R28, R31 to R34, R72) under the moves of the sequencer and of the collaborators:
how a state that goes on or ends satisfies it, then the phases unit by unit, then the answers. -/

namespace Sys2Proof.Machine

/-! ### The two shapes of a state -/

/-- What the invariant says of the host-owned inputs. -/
def InputsWf (p : Params) (mem : List Host.Cell) (msg : Bytes) : Prop :=
  Memory.wf mem = true ∧ (∀ c ∈ mem, inWindow p c.1) ∧ msg.length ≤ 2 ^ 64 - 1

theorem Inv.inputsWf {p : Params} {s : State} (h : Inv p s) : InputsWf p s.mem s.msg := ⟨h.memWf, h.memIn, h.msgFits⟩

/-- What the invariant says of the call in flight. -/
def PendWf (p : Params) (s : State) : Prop :=
  ∀ c, s.pend = some c → callOf p s = some c ∧ s.trace.getLast? = some c ∧ c.inDomain p

theorem pendWf_of_none {p : Params} {s : State} (h : s.pend = none) : PendWf p s := by
  intro c hc
  rw [h] at hc
  cases hc

theorem causeLegal_errorCode (k : ErrorKind) : causeLegal (errorCode k) := by
  cases k <;> simp [causeLegal, errorCode]

section Shapes

variable {p : Params} {s : State}

/-- A busy state: the flags and `OUT` are clear, a phase runs with its transients in place. -/
theorem inv_of_busy (hin : InputsWf p s.mem s.msg) (hbusy : s.busy = true)
    (hclear : s.done = false ∧ s.err = false ∧ s.out = [] ∧ s.ecause = 0x00#8) (hphase : s.phase ≠ .idle)
    (hpend : PendWf p s) (hlive : live p s) : Inv p s := by
  obtain ⟨hwf, hwin, hmsg⟩ := hin
  obtain ⟨hdone, herr, hout, hcause⟩ := hclear
  exact ⟨hwf, hwin, hmsg, by simp [hout], fun _ => ⟨hdone, herr, hout⟩, by simp [herr], by simp [herr, hcause],
    by simp [causeLegal, hcause], by simp [hbusy, hphase], hpend, hlive⟩

/-- An idle state: what is left of a command is its flags, its code and `OUT`. -/
theorem inv_of_idle (hin : InputsWf p s.mem s.msg) (hbusy : s.busy = false) (hout : s.out.length ≤ 2 ^ 64 - 1)
    (herr : s.err = true → s.done = true) (hcause : s.err = true ↔ s.ecause ≠ 0x00#8) (hlegal : causeLegal s.ecause)
    (hphase : s.phase = .idle) (hpend : s.pend = none) (hwork : s.work = Work.cleared) : Inv p s := by
  obtain ⟨hwf, hwin, hmsg⟩ := hin
  exact ⟨hwf, hwin, hmsg, hout, by simp [hbusy], herr, hcause, hlegal, by simp [hbusy, hphase], pendWf_of_none hpend,
    by simpa [live, hphase] using hwork⟩

/-- Idle, no call is in flight: only a phase makes one. -/
theorem Inv.pend_eq_none_of_idle (h : Inv p s) (hph : s.phase = .idle) : s.pend = none := by
  cases hp : s.pend with
  | none => rfl
  | some c =>
    obtain ⟨hcall, -⟩ := h.pending c hp
    simp [callOf, hph] at hcall

theorem Inv.phase_eq_idle (h : Inv p s) (hb : s.busy = false) : s.phase = .idle := by
  by_contra hph
  rw [h.busyPhase.2 hph] at hb
  cases hb

theorem Inv.busyClear (h : Inv p s) (hb : s.busy = true) :
    s.done = false ∧ s.err = false ∧ s.out = [] ∧ s.ecause = 0x00#8 := by
  obtain ⟨hdone, herr, hout⟩ := h.busyFlags hb
  exact ⟨hdone, herr, hout, by simpa [herr] using h.errCause⟩

theorem inv_endOk (hin : InputsWf p s.mem s.msg) {v : Bytes} (hv : v.length ≤ 2 ^ 64 - 1) : Inv p (endOk v s) :=
  inv_of_idle hin rfl hv (by simp) (by simp) (.inl (by simp)) rfl rfl rfl

theorem inv_endErr (hin : InputsWf p s.mem s.msg) (k : ErrorKind) : Inv p (endErr k s) :=
  inv_of_idle hin rfl (by simp) (by simp) (by simp [errorCode_ne_zero]) (causeLegal_errorCode k) rfl rfl rfl

theorem inv_finish (hin : InputsWf p s.mem s.msg) {r : Except ErrorKind Bytes}
    (hr : ∀ v, r = .ok v → v.length ≤ 2 ^ 64 - 1) : Inv p (finish r s) := by
  rcases finish_cases r s with ⟨v, hv, he⟩ | ⟨k, -, he⟩
  · rw [he]; exact inv_endOk hin (hr v hv)
  · rw [he]; exact inv_endErr hin k

/-- What the transients hold, at the phase the state is known to be in. -/
theorem Inv.live_at {ph : Phase} (h : Inv p s) (hph : s.phase = ph) : live p { s with phase := ph } := by
  subst hph
  exact h.transients

/-- A running command goes on to phase `ph'` with the transients `w`. -/
theorem Inv.goesOn {ph ph' : Phase} {w : Work} (h : Inv p s) (hph : s.phase = ph) (hpend : s.pend = none)
    (hlive : live p { s with phase := ph', work := w }) (hne : ph ≠ .idle := by decide)
    (hne' : ph' ≠ .idle := by decide) : Inv p { s with phase := ph', work := w } :=
  have hb : s.busy = true := h.busyPhase.2 (hph ▸ hne)
  inv_of_busy h.inputsWf hb (h.busyClear hb) hne' (pendWf_of_none hpend) hlive

/-- A running phase presents its call (rule R34). -/
theorem Inv.asks {ph : Phase} {c : PortCall} (h : Inv p s) (hph : s.phase = ph) (hcall : callOf p s = some c)
    (hdom : c.inDomain p) (hne : ph ≠ .idle := by decide) : Inv p (ask c s) := by
  have hb : s.busy = true := h.busyPhase.2 (hph ▸ hne)
  refine inv_of_busy h.inputsWf hb (h.busyClear hb) (hph ▸ hne) ?_ h.transients
  intro c' hc'
  obtain rfl : c = c' := Option.some.inj hc'
  exact ⟨hcall, List.getLast?_concat, hdom⟩

/-- With the call in flight answered the invariant still holds: no transient speaks of it. -/
theorem Inv.pendCleared (h : Inv p s) : Inv p { s with pend := none } :=
  ⟨h.memWf, h.memIn, h.msgFits, h.outFits, h.busyFlags, h.errDone, h.errCause, h.cause, h.busyPhase,
    pendWf_of_none rfl, h.transients⟩

end Shapes

end Sys2Proof.Machine
end

section
/-! SUPPORT. Each phase of the sequencer keeps the invariant: the buffers it writes have their sizes (rules
R31 to R33), and the two loops keep what they have computed so far (rules R144, R163, R166). -/

namespace Sys2Proof.Machine

/-! ### Sizes -/

/-- Every operand register is below `2^K` (rule R105). -/
theorem window_lt_two_pow_K {p : Params} (hp : p.Valid) (mem : List Host.Cell) (base : Nat) :
    beInt (window p mem base) < 2 ^ p.K :=
  beInt_lt_two_pow_K hp (window_length ..)

/-- A string of `kLen` bytes fits `OUT`. -/
theorem kLen_fits_out {p : Params} (hp : p.Valid) {v : Bytes} (hv : v.length = p.kLen) : v.length ≤ 2 ^ 64 - 1 := by
  have hk := hp.kLen_le
  omega

/-- A seed of `hLen` bytes leaves room for the counter, and `DB_SIZE` fits `MASK_LEN`'s 64 bits. -/
theorem seed_and_mask_fit {p : Params} (hp : p.Valid) {seed : Bytes} (hseed : seed.length = p.hLen) :
    seed.length + 4 ≤ p.hashMaxLen ∧ p.dbSize ≤ 2 ^ 64 - 1 := by
  have hge := hp.hash_ge
  have hdb := hp.dbSize_eq
  have hk := hp.kLen_le
  omega

section Phases

variable {p : Params} {s : State} (h : Inv p s)
include h

/-! ### The phases that make a call (rules R34, R72) -/

theorem inv_mhashPhase (hph : s.phase = .s2Mhash) : Inv p (mhashPhase s) := by
  obtain ⟨-, hle⟩ : s.curCmd = encode .sign ∧ s.msg.length ≤ p.hashMaxLen := h.live_at hph
  exact h.asks hph (by simp [callOf, hph]) hle

theorem inv_saltPhase (hp : p.Valid) (hph : s.phase = .s3Salt) : Inv p (saltPhase p s) :=
  h.asks hph (by simp [callOf, hph]) hp.hLen_pos

/-- `M'` is in the hash function's domain, under SIGN and under VERIFY (rules R7, R109). -/
theorem inv_ask_mPrime (hp : p.Valid) {ph : Phase} (hph : s.phase = ph) (hmh : s.work.mhash.length = p.hLen)
    (hsalt : s.work.salt.length = p.hLen) (hcall : ph = .s4H ∨ ph = .v8H2) :
    Inv p (ask (.hash (mPrime s.work.mhash s.work.salt)) s) := by
  have hdom : (mPrime s.work.mhash s.work.salt).length ≤ p.hashMaxLen := by
    have hge := hp.hash_ge
    rw [mPrime_length, hmh, hsalt]
    omega
  rcases hcall with rfl | rfl
  · exact h.asks hph (by simp [callOf, hph]) hdom
  · exact h.asks hph (by simp [callOf, hph]) hdom

theorem inv_hPhase (hp : p.Valid) (hph : s.phase = .s4H) : Inv p (hPhase s) := by
  obtain ⟨-, hmh, hsalt⟩ : s.curCmd = encode .sign ∧ s.work.mhash.length = p.hLen ∧ s.work.salt.length = p.hLen :=
    h.live_at hph
  exact inv_ask_mPrime h hp hph hmh hsalt (.inl rfl)

theorem inv_verifyMhashPhase (hph : s.phase = .v8Mhash) : Inv p (verifyMhashPhase s) := by
  obtain ⟨-, -, -, hle⟩ : s.curCmd = encode .verify ∧ s.work.hb.length = p.hLen ∧ s.work.salt.length = p.hLen ∧
      s.msg.length ≤ p.hashMaxLen := h.live_at hph
  exact h.asks hph (by simp [callOf, hph]) hle

theorem inv_h2Phase (hp : p.Valid) (hph : s.phase = .v8H2) : Inv p (h2Phase s) := by
  obtain ⟨-, -, hsalt, hmh⟩ : s.curCmd = encode .verify ∧ s.work.hb.length = p.hLen ∧ s.work.salt.length = p.hLen ∧
      s.work.mhash.length = p.hLen := h.live_at hph
  exact inv_ask_mPrime h hp hph hmh hsalt (.inr rfl)

variable (hpend : s.pend = none)
include hpend

/-! ### The kernel (rule R150) -/

theorem inv_importPhase (hp : p.Valid) (hph : s.phase = .r0Import) : Inv p (importPhase p s) := by
  obtain ⟨hcmd, hem⟩ : kernelCommand s ∧ (s.curCmd = encode .sign → s.work.em.length = p.kLen) := h.live_at hph
  refine h.goesOn hph hpend ⟨hcmd, ?_, window_lt_two_pow_K hp .., window_lt_two_pow_K hp ..⟩
  dsimp only
  split
  next hsign => exact beInt_lt_two_pow_K hp (hem hsign)
  next => exact window_lt_two_pow_K hp ..

/-- The loop starts with `M^0`: above bit `K - 1` the exponent has no bit. -/
theorem inv_rangePhase (hph : s.phase = .r1Range) : Inv p (rangePhase p s) := by
  obtain ⟨hcmd, hm, hk, hn⟩ : kernelOperands p s := h.live_at hph
  rcases Nat.lt_or_ge s.work.rsaM s.work.rsaN with hlt | hle
  · rw [rangePhase_of_lt p hlt]
    refine h.goesOn hph hpend ⟨⟨hcmd, hm, hk, hn⟩, hlt, le_refl _, ?_⟩
    simp [Nat.div_eq_of_lt hk]
  · rw [rangePhase_of_le p hle]
    exact inv_endErr h.inputsWf _

theorem inv_expPhase (hph : s.phase = .r2Exp) : Inv p (expPhase s) := by
  obtain ⟨hops, hlt, hi, hr⟩ : kernelOperands p s ∧ s.work.rsaM < s.work.rsaN ∧ s.work.rsaI ≤ p.K ∧
    s.work.rsaR = s.work.rsaM ^ (s.work.rsaK / 2 ^ s.work.rsaI) % s.work.rsaN := h.live_at hph
  cases hI : s.work.rsaI with
  | zero =>
    rw [expPhase_zero hI]
    refine h.goesOn hph hpend ⟨hops, hlt, ?_⟩
    simpa [hI] using hr
  | succ i =>
    rw [expPhase_succ hI]
    rw [hI] at hi hr
    have hround := h.goesOn (ph' := .r2Exp) (w := { s.work with rsaI := i, rsaR := _ }) hph hpend
      ⟨hops, hlt, Nat.le_of_succ_le hi, expRound_of_eq_pow_mod hr⟩
    rwa [← hph] at hround

theorem inv_exportPhase (hp : p.Valid) (hph : s.phase = .r3Export) : Inv p (exportPhase p s) := by
  by_cases hcmd : s.curCmd = 0x04#8
  · rw [exportPhase_verify p hcmd]
    exact h.goesOn hph hpend ⟨hcmd, beBytes_length ..⟩
  · rw [exportPhase_of_ne_verify p hcmd]
    exact inv_endOk h.inputsWf (kLen_fits_out hp (beBytes_length ..))

/-! ### MGF1 (rule R168) -/

theorem inv_boundPhase (hph : s.phase = .m0Bound) : Inv p (boundPhase p s) := by
  have henter : mgfEntered p s := h.live_at hph
  rcases Nat.lt_or_ge p.maskBound s.work.mgfLen with hlt | hle
  · rw [boundPhase_of_lt p hlt]
    exact inv_endErr h.inputsWf _
  · rw [boundPhase_of_le p hle]
    exact h.goesOn hph hpend ⟨henter, hle, Nat.zero_le _, rfl⟩

theorem inv_loopPhase (hph : s.phase = .m1Loop) : Inv p (loopPhase s) := by
  obtain ⟨henter, -, -, hacc⟩ : mgfEntered p s ∧ s.work.mgfLen ≤ p.maskBound ∧ s.work.mgfCtr ≤ 2 ^ 32 ∧
      s.work.mgfAcc = mgfBlocks p s.work.mgfSeed s.work.mgfCtr := h.live_at hph
  rcases Nat.lt_or_ge s.work.mgfAcc.length s.work.mgfLen with hlt | hle
  · rw [loopPhase_of_lt hlt]
    have hseed : s.work.mgfSeed.length + 4 ≤ p.hashMaxLen := henter.1
    refine h.asks hph ?_ ?_
    · simp [callOf, hph, hlt, mgfInput]
    · simpa [PortCall.inDomain, be32] using hseed
  · rw [loopPhase_of_le hle]
    exact h.goesOn hph hpend ⟨henter, hle, hacc⟩

/-- The mask is what the command asked for, and the buffers it is combined with are in place. -/
theorem inv_truncPhase (hph : s.phase = .m2Trunc) : Inv p (truncPhase s) := by
  obtain ⟨⟨-, hfits, hcmd⟩, henough, -⟩ : mgfEntered p s ∧ s.work.mgfLen ≤ s.work.mgfAcc.length ∧
      s.work.mgfAcc = mgfBlocks p s.work.mgfSeed s.work.mgfCtr := h.live_at hph
  have hlen : (s.work.mgfAcc.take s.work.mgfLen).length = s.work.mgfLen := List.length_take_of_le henough
  rcases hcmd with hmgf | ⟨hsign, hsize, hhb, hdb⟩ | ⟨hverify, hsize, hhb, hmdb⟩
  · rw [truncPhase_mgf hmgf]
    exact inv_endOk h.inputsWf (hlen.trans_le hfits)
  · rw [truncPhase_sign hsign]
    exact h.goesOn hph hpend ⟨hsign, hhb, hdb, hlen.trans hsize⟩
  · rw [truncPhase_verify hverify]
    exact h.goesOn hph hpend ⟨hverify, hhb, hmdb, hlen.trans hsize⟩

/-! ### SIGN (rule R193) -/

theorem inv_lenPhase (hph : s.phase = .s1Len) : Inv p (lenPhase p s) := by
  have hcmd : s.curCmd = encode .sign := h.live_at hph
  rcases Nat.lt_or_ge p.hashMaxLen s.msg.length with hlt | hle
  · rw [lenPhase_of_lt p hlt]; exact inv_endErr h.inputsWf _
  · rw [lenPhase_of_le p hle]; exact h.goesOn hph hpend ⟨hcmd, hle⟩

theorem inv_dbPhase (hp : p.Valid) (hph : s.phase = .s5Db) : Inv p (dbPhase p s) := by
  obtain ⟨hcmd, hsalt, hhb⟩ : s.curCmd = encode .sign ∧ s.work.salt.length = p.hLen ∧ s.work.hb.length = p.hLen :=
    h.live_at hph
  exact h.goesOn hph hpend ⟨hcmd, hhb, dataBlock_length_eq_dbSize hp hsalt⟩

theorem inv_maskPhase (hp : p.Valid) (hph : s.phase = .s6Mask) : Inv p (maskPhase p s) := by
  obtain ⟨hcmd, hhb, hdb⟩ : s.curCmd = encode .sign ∧ s.work.hb.length = p.hLen ∧ s.work.db.length = p.dbSize :=
    h.live_at hph
  obtain ⟨hseed, hfits⟩ := seed_and_mask_fit hp hhb
  exact h.goesOn hph hpend ⟨hseed, hfits, .inr (.inl ⟨hcmd, rfl, hhb, hdb⟩)⟩

theorem inv_xorPhase (hph : s.phase = .s6Xor) : Inv p (xorPhase s) := by
  obtain ⟨hcmd, hhb, hdb, hmask⟩ : s.curCmd = encode .sign ∧ s.work.hb.length = p.hLen ∧
    s.work.db.length = p.dbSize ∧ s.work.dbmask.length = p.dbSize := h.live_at hph
  refine h.goesOn hph hpend ⟨hcmd, hhb, ?_⟩
  rw [xorBytes_length, hdb, hmask, min_self]

theorem inv_sizePhase (hp : p.Valid) (hph : s.phase = .s7Size) : Inv p (sizePhase p s) := by
  have hlive := h.live_at hph
  rw [sizePhase_of_valid p hp]
  exact h.goesOn hph hpend hlive

theorem inv_emPhase (hp : p.Valid) (hph : s.phase = .s8Em) : Inv p (emPhase s) := by
  obtain ⟨hcmd, hhb, hmdb⟩ : s.curCmd = encode .sign ∧ s.work.hb.length = p.hLen ∧ s.work.mdb.length = p.dbSize :=
    h.live_at hph
  refine h.goesOn hph hpend ⟨hcmd, ?_⟩
  rw [encodedMessage_length, hmdb, hhb, hp.dbSize_eq]

theorem inv_topbitPhase (hph : s.phase = .s9Topbit) : Inv p (topbitPhase s) := by
  obtain ⟨hcmd, hem⟩ : s.curCmd = encode .sign ∧ s.work.em.length = p.kLen := h.live_at hph
  exact h.goesOn hph hpend ⟨hcmd, (clearTopBit_length _).trans hem⟩

theorem inv_signRsaPhase (hph : s.phase = .s10Rsa) : Inv p (signRsaPhase s) := by
  obtain ⟨hcmd, hem⟩ : s.curCmd = encode .sign ∧ s.work.em.length = p.kLen := h.live_at hph
  exact h.goesOn hph hpend ⟨.inr (.inl hcmd), fun _ => hem⟩

/-! ### VERIFY (rule R232) -/

theorem inv_verifyRsaPhase (hph : s.phase = .v1Rsa) : Inv p (verifyRsaPhase s) := by
  have hcmd : s.curCmd = encode .verify := h.live_at hph
  refine h.goesOn hph hpend ⟨.inr (.inr hcmd), fun hsign => ?_⟩
  exact absurd (hcmd.symm.trans hsign) (by decide)

theorem inv_trailerPhase (hph : s.phase = .v2Trailer) : Inv p (trailerPhase p s) := by
  have hlive := h.live_at hph
  unfold trailerPhase
  split
  · exact inv_endErr h.inputsWf _
  · exact h.goesOn hph hpend hlive

theorem inv_leadbitPhase (hph : s.phase = .v3Leadbit) : Inv p (leadbitPhase s) := by
  have hlive := h.live_at hph
  unfold leadbitPhase
  split
  · exact inv_endErr h.inputsWf _
  · exact h.goesOn hph hpend hlive

theorem inv_splitPhase (hp : p.Valid) (hph : s.phase = .v4Split) : Inv p (splitPhase p s) := by
  obtain ⟨hcmd, hem⟩ : s.curCmd = encode .verify ∧ s.work.em.length = p.kLen := h.live_at hph
  have hdb := hp.dbSize_eq
  refine h.goesOn hph hpend ⟨hcmd, hashOf_length hp hem, ?_⟩
  exact List.length_take_of_le (by omega)

theorem inv_unmaskPhase (hp : p.Valid) (hph : s.phase = .v5Mask) : Inv p (unmaskPhase p s) := by
  obtain ⟨hcmd, hhb, hmdb⟩ : s.curCmd = encode .verify ∧ s.work.hb.length = p.hLen ∧ s.work.mdb.length = p.dbSize :=
    h.live_at hph
  obtain ⟨hseed, hfits⟩ := seed_and_mask_fit hp hhb
  exact h.goesOn hph hpend ⟨hseed, hfits, .inr (.inr ⟨hcmd, rfl, hhb, hmdb⟩)⟩

theorem inv_unxorPhase (hph : s.phase = .v5Xor) : Inv p (unxorPhase s) := by
  obtain ⟨hcmd, hhb, hmdb, hmask⟩ : s.curCmd = encode .verify ∧ s.work.hb.length = p.hLen ∧
    s.work.mdb.length = p.dbSize ∧ s.work.dbmask.length = p.dbSize := h.live_at hph
  refine h.goesOn hph hpend ⟨hcmd, hhb, ?_⟩
  rw [unmask, forceFirst_length, xorBytes_length, hmdb, hmask, min_self]

theorem inv_padPhase (hph : s.phase = .v6Pad) : Inv p (padPhase p s) := by
  have hlive := h.live_at hph
  unfold padPhase
  split
  · exact h.goesOn hph hpend hlive
  · exact inv_endErr h.inputsWf _

theorem inv_recoverSaltPhase (hp : p.Valid) (hph : s.phase = .v7Salt) : Inv p (recoverSaltPhase p s) := by
  obtain ⟨hcmd, hhb, hdb⟩ : s.curCmd = encode .verify ∧ s.work.hb.length = p.hLen ∧ s.work.db.length = p.dbSize :=
    h.live_at hph
  have hps := hp.psLen_eq
  refine h.goesOn hph hpend ⟨hcmd, hhb, ?_⟩
  simp only [saltOf, List.length_take, List.length_drop, hdb]
  omega

theorem inv_guardPhase (hph : s.phase = .v8Len) : Inv p (guardPhase p s) := by
  obtain ⟨hcmd, hhb, hsalt⟩ : s.curCmd = encode .verify ∧ s.work.hb.length = p.hLen ∧ s.work.salt.length = p.hLen :=
    h.live_at hph
  unfold guardPhase
  split
  next => exact inv_endErr h.inputsWf _
  next hle => exact h.goesOn hph hpend ⟨hcmd, hhb, hsalt, Nat.le_of_not_lt hle⟩

theorem inv_cmpPhase (hph : s.phase = .v9Cmp) : Inv p (cmpPhase s) := by
  obtain ⟨hcmd, -⟩ : s.curCmd = encode .verify ∧ s.work.hb.length = p.hLen ∧ s.work.h2.length = p.hLen :=
    h.live_at hph
  unfold cmpPhase
  split
  · exact inv_endErr h.inputsWf _
  · exact h.goesOn hph hpend hcmd

/-! ### The sequencer's step -/

theorem inv_phaseStep (hp : p.Valid) : Inv p (phaseStep p s) := by
  cases hph : s.phase with
  | idle => simpa [phaseStep, hph] using h
  | r0Import => rw [phaseStep_r0Import p hph]; exact inv_importPhase h hpend hp hph
  | r1Range => rw [phaseStep_r1Range p hph]; exact inv_rangePhase h hpend hph
  | r2Exp => rw [phaseStep_r2Exp p hph]; exact inv_expPhase h hpend hph
  | r3Export => rw [phaseStep_r3Export p hph]; exact inv_exportPhase h hpend hp hph
  | m0Bound => rw [phaseStep_m0Bound p hph]; exact inv_boundPhase h hpend hph
  | m1Loop => rw [phaseStep_m1Loop p hph]; exact inv_loopPhase h hpend hph
  | m2Trunc => rw [phaseStep_m2Trunc p hph]; exact inv_truncPhase h hpend hph
  | s1Len => rw [phaseStep_s1Len p hph]; exact inv_lenPhase h hpend hph
  | s2Mhash => rw [phaseStep_s2Mhash p hph]; exact inv_mhashPhase h hph
  | s3Salt => rw [phaseStep_s3Salt p hph]; exact inv_saltPhase h hp hph
  | s4H => rw [phaseStep_s4H p hph]; exact inv_hPhase h hp hph
  | s5Db => rw [phaseStep_s5Db p hph]; exact inv_dbPhase h hpend hp hph
  | s6Mask => rw [phaseStep_s6Mask p hph]; exact inv_maskPhase h hpend hp hph
  | s6Xor => rw [phaseStep_s6Xor p hph]; exact inv_xorPhase h hpend hph
  | s7Size => rw [phaseStep_s7Size p hph]; exact inv_sizePhase h hpend hp hph
  | s8Em => rw [phaseStep_s8Em p hph]; exact inv_emPhase h hpend hp hph
  | s9Topbit => rw [phaseStep_s9Topbit p hph]; exact inv_topbitPhase h hpend hph
  | s10Rsa => rw [phaseStep_s10Rsa p hph]; exact inv_signRsaPhase h hpend hph
  | v1Rsa => rw [phaseStep_v1Rsa p hph]; exact inv_verifyRsaPhase h hpend hph
  | v2Trailer => rw [phaseStep_v2Trailer p hph]; exact inv_trailerPhase h hpend hph
  | v3Leadbit => rw [phaseStep_v3Leadbit p hph]; exact inv_leadbitPhase h hpend hph
  | v4Split => rw [phaseStep_v4Split p hph]; exact inv_splitPhase h hpend hp hph
  | v5Mask => rw [phaseStep_v5Mask p hph]; exact inv_unmaskPhase h hpend hp hph
  | v5Xor => rw [phaseStep_v5Xor p hph]; exact inv_unxorPhase h hpend hph
  | v6Pad => rw [phaseStep_v6Pad p hph]; exact inv_padPhase h hpend hph
  | v7Salt => rw [phaseStep_v7Salt p hph]; exact inv_recoverSaltPhase h hpend hp hph
  | v8Len => rw [phaseStep_v8Len p hph]; exact inv_guardPhase h hpend hph
  | v8Mhash => rw [phaseStep_v8Mhash p hph]; exact inv_verifyMhashPhase h hph
  | v8H2 => rw [phaseStep_v8H2 p hph]; exact inv_h2Phase h hp hph
  | v9Cmp => rw [phaseStep_v9Cmp p hph]; exact inv_cmpPhase h hpend hph
  | v10Accept => rw [phaseStep_v10Accept p hph]; exact inv_endOk h.inputsWf (Nat.zero_le _)

end Phases

end Sys2Proof.Machine
end

section
/-! SUPPORT. Every move keeps the invariant, whichever agent makes it: the answers, the host's reads and writes, the
commands at either level, reset; and the obligations on the invariant. -/

namespace Sys2Proof.Machine

/-! ### The answers (rule R34) -/

/-- A phase asks for a digest or for a salt. -/
theorem callOf_cases {p : Params} {s : State} {c : PortCall} (h : callOf p s = some c) :
    (∃ x, c = .hash x) ∨ c = .rng p.hLen := by
  unfold callOf at h
  split at h
  · split at h
    · exact .inl ⟨_, (Option.some.inj h).symm⟩
    · cases h
  · exact .inl ⟨_, (Option.some.inj h).symm⟩
  · exact .inr (Option.some.inj h).symm
  · exact .inl ⟨_, (Option.some.inj h).symm⟩
  · exact .inl ⟨_, (Option.some.inj h).symm⟩
  · exact .inl ⟨_, (Option.some.inj h).symm⟩
  · cases h

/-- Either answer has `hLen` bytes. -/
theorem answerOf_length {p : Params} {s : State} {c : PortCall} (h : callOf p s = some c) :
    (answerOf p s c).length = p.hLen := by
  rcases callOf_cases h with ⟨x, rfl⟩ | rfl
  · exact hash_length ..
  · exact draw_length ..

theorem callOf_m1Loop {p : Params} {s : State} {c : PortCall} (hph : s.phase = .m1Loop) (h : callOf p s = some c) :
    s.work.mgfAcc.length < s.work.mgfLen ∧ c = .hash (mgfInput s.work.mgfSeed s.work.mgfCtr) := by
  simp only [callOf, hph] at h
  split at h
  next hlt => exact ⟨hlt, (Option.some.inj h).symm⟩
  next => cases h

section Answers

variable {p : Params} {s : State} (h : Inv p s) (hpend : s.pend = none)
include h hpend

/-- One more digest, within the `2^32` the bound leaves room for (rules R163, R166). -/
theorem inv_loopAnswered (hph : s.phase = .m1Loop) (hlt : s.work.mgfAcc.length < s.work.mgfLen) :
    Inv p (loopAnswered (p.hash (mgfInput s.work.mgfSeed s.work.mgfCtr)) s) := by
  obtain ⟨henter, hbound, -, hacc⟩ : mgfEntered p s ∧ s.work.mgfLen ≤ p.maskBound ∧ s.work.mgfCtr ≤ 2 ^ 32 ∧
      s.work.mgfAcc = mgfBlocks p s.work.mgfSeed s.work.mgfCtr := h.live_at hph
  have hctr : s.work.mgfCtr < 2 ^ 32 := by
    rw [hacc, mgfBlocks_length] at hlt
    exact Nat.lt_of_mul_lt_mul_right (hlt.trans_le hbound)
  have hgoes := h.goesOn (ph' := .m1Loop) (w := { s.work with
      mgfAcc := s.work.mgfAcc ++ p.hash (mgfInput s.work.mgfSeed s.work.mgfCtr), mgfCtr := s.work.mgfCtr + 1 }) hph
    hpend ⟨henter, hbound, hctr, by rw [mgfBlocks_succ, ← hacc]⟩
  rwa [← hph] at hgoes

/-- The answer to the phase's call fills the buffer of that phase, and the next phase finds it with its size. -/
theorem inv_completePhase {c : PortCall} (hcall : callOf p s = some c) {bytes : Bytes} (hlen : bytes.length = p.hLen)
    (hbytes : ∀ x, c = .hash x → bytes = p.hash x) : Inv p (completePhase bytes s) := by
  cases hph : s.phase with
  | m1Loop =>
    obtain ⟨hlt, hc⟩ := callOf_m1Loop hph hcall
    rw [completePhase_m1Loop _ hph, hbytes _ hc]
    exact inv_loopAnswered h hpend hph hlt
  | s2Mhash =>
    obtain ⟨hcmd, -⟩ : s.curCmd = encode .sign ∧ s.msg.length ≤ p.hashMaxLen := h.live_at hph
    rw [completePhase_s2Mhash _ hph]
    exact h.goesOn hph hpend ⟨hcmd, hlen⟩
  | s3Salt =>
    obtain ⟨hcmd, hmh⟩ : s.curCmd = encode .sign ∧ s.work.mhash.length = p.hLen := h.live_at hph
    rw [completePhase_s3Salt _ hph]
    exact h.goesOn hph hpend ⟨hcmd, hmh, hlen⟩
  | s4H =>
    obtain ⟨hcmd, -, hsalt⟩ : s.curCmd = encode .sign ∧ s.work.mhash.length = p.hLen ∧ s.work.salt.length = p.hLen :=
      h.live_at hph
    rw [completePhase_s4H _ hph]
    exact h.goesOn hph hpend ⟨hcmd, hsalt, hlen⟩
  | v8Mhash =>
    obtain ⟨hcmd, hhb, hsalt, -⟩ : s.curCmd = encode .verify ∧ s.work.hb.length = p.hLen ∧
      s.work.salt.length = p.hLen ∧ s.msg.length ≤ p.hashMaxLen := h.live_at hph
    rw [completePhase_v8Mhash _ hph]
    exact h.goesOn hph hpend ⟨hcmd, hhb, hsalt, hlen⟩
  | v8H2 =>
    obtain ⟨hcmd, hhb, -⟩ : s.curCmd = encode .verify ∧ s.work.hb.length = p.hLen ∧ s.work.salt.length = p.hLen ∧
      s.work.mhash.length = p.hLen := h.live_at hph
    rw [completePhase_v8H2 _ hph]
    exact h.goesOn hph hpend ⟨hcmd, hhb, hlen⟩
  | _ => simp [callOf, hph] at hcall

end Answers

/-! ### The moves of the block and of reset -/

section Moves

variable {p : Params} {s : State}

theorem inv_sequencerMove (hp : p.Valid) (h : Inv p s) : Inv p (sequencerMove p s) := by
  unfold sequencerMove
  split
  next => exact h
  next hpend => exact inv_phaseStep h hpend hp

theorem inv_answerMove (h : Inv p s) : Inv p (answerMove p s) := by
  unfold answerMove
  split
  next => exact h
  next c hpend =>
    obtain ⟨hcall, -⟩ := h.pending c hpend
    exact inv_completePhase h.pendCleared rfl hcall (answerOf_length hcall) (by rintro x rfl; rfl)

theorem inv_dueMove (hp : p.Valid) (h : Inv p s) : Inv p (dueMove p s) := by
  unfold dueMove
  split
  · exact inv_answerMove h
  · exact inv_sequencerMove hp h

theorem inv_resetMove (p : Params) (s : State) : Inv p (resetMove s) :=
  inv_of_idle ⟨rfl, by simp, by simp⟩ rfl (by simp) (by simp) (by simp) (.inl (by simp)) rfl rfl rfl

/-! ### The host's reads -/

/-- The schedule and the host's record are no part of the invariant. -/
theorem Inv.observed (h : Inv p s) (agenda : List Event) (reads : List (Addr × Byte)) :
    Inv p { s with agenda := agenda, reads := reads } :=
  ⟨h.memWf, h.memIn, h.msgFits, h.outFits, h.busyFlags, h.errDone, h.errCause, h.cause, h.busyPhase, h.pending,
    h.transients⟩

/-- A pop takes a byte of `OUT`, which while busy has none. -/
theorem Inv.popped (h : Inv p s) : Inv p { s with out := s.out.tail } := by
  refine ⟨h.memWf, h.memIn, h.msgFits, ?_, fun hb => ?_, h.errDone, h.errCause, h.cause, h.busyPhase, h.pending,
    h.transients⟩
  · have hfits := h.outFits
    rw [List.length_tail]
    omega
  · obtain ⟨hdone, herr, hout⟩ := h.busyFlags hb
    exact ⟨hdone, herr, by rw [hout]; rfl⟩

theorem inv_hostRead (h : Inv p s) (a : Addr) : Inv p (hostRead p a s) := by
  by_cases hl : locate p a = .outPop
  · rw [hostRead_outPop hl]
    exact h.popped.observed s.agenda _
  · rw [hostRead_of_ne_outPop hl]
    exact h.observed s.agenda _

theorem inv_hostWait (h : Inv p s) : Inv p (hostWait s) := by
  unfold hostWait
  dsimp only
  split
  · exact h.observed _ _
  · exact h.observed s.agenda _

end Moves

/-! ### The host's writes of a byte (rules R24, R25, R65) -/

/-- The bus address of an operand byte; none for every other place. -/
def Loc.operandAddr : Loc → Option Nat
  | .opm i => some (opmBase + i)
  | .opk i => some (opkBase + i)
  | .opn i => some (opnBase + i)
  | _ => none

theorem windowLoc_operandAddr {p : Params} {inside : Nat → Loc} {base i b : Nat}
    (hinside : ∀ j, (inside j).operandAddr = some (base + j)) (h : (windowLoc p inside i).operandAddr = some b) :
    base ≤ b ∧ b < base + p.kLen := by
  rcases windowLoc_cases p inside i with ⟨hi, he⟩ | ⟨-, he⟩
  · rw [he, hinside] at h
    cases h
    omega
  · rw [he] at h
    cases h

/-- The address map gives an operand no byte outside its window (rule R61). -/
theorem inWindow_of_locate {p : Params} {a : Addr} {b : Nat} (h : (locate p a).operandAddr = some b) :
    inWindow p b := by
  unfold locate at h
  split at h
  next =>
    exfalso
    have hmap : ∀ n < 0x23, (controlMap.getD n .reserved).operandAddr = none := by decide
    by_cases hn : a.toNat < 0x23
    · rw [hmap _ hn] at h; cases h
    · rw [List.getD_eq_default _ _ (Nat.le_of_not_lt hn)] at h; cases h
  next =>
    split at h
    next => exact .inl (windowLoc_operandAddr (fun _ => rfl) h)
    next =>
      split at h
      next => exact .inr (.inl (windowLoc_operandAddr (fun _ => rfl) h))
      next => exact .inr (.inr (windowLoc_operandAddr (fun _ => rfl) h))

/-- A byte write sets an operand byte, or it leaves the operands alone and keeps `MSG` within its bound. -/
theorem writeByte_cases (v : Byte) (s : State) (l : Loc) :
    (∃ a, l.operandAddr = some a ∧ writeByte v s l = setOperandByte a v s) ∨
    (∃ msg maskLen, writeByte v s l = { s with msg := msg, maskLen := maskLen } ∧
      msg.length ≤ max s.msg.length (2 ^ 64 - 1)) := by
  cases l with
  | opm i => exact .inl ⟨_, rfl, rfl⟩
  | opk i => exact .inl ⟨_, rfl, rfl⟩
  | opn i => exact .inl ⟨_, rfl, rfl⟩
  | msgClr => exact .inr ⟨[], s.maskLen, rfl, Nat.zero_le _⟩
  | maskLen i => exact .inr ⟨s.msg, _, rfl, le_max_left ..⟩
  | msgPush =>
    by_cases hlt : s.msg.length < 2 ^ 64 - 1
    · refine .inr ⟨s.msg ++ [v], s.maskLen, if_pos hlt, ?_⟩
      rw [List.length_append, List.length_singleton]
      omega
    · exact .inr ⟨s.msg, s.maskLen, if_neg hlt, le_max_left ..⟩
  | _ => exact .inr ⟨s.msg, s.maskLen, rfl, le_max_left ..⟩

/-- A command that ends does so from its start, with the inputs as they were. -/
theorem inv_finish_beginCommand {p : Params} {s : State} (h : Inv p s) (op : Byte) (calls : List PortCall)
    {r : Except ErrorKind Bytes} (hr : ∀ v, r = .ok v → v.length ≤ 2 ^ 64 - 1) :
    Inv p (finish r (record calls (beginCommand op s))) :=
  inv_finish (s := record calls (beginCommand op s)) h.inputsWf hr

theorem inv_endErr_beginCommand {p : Params} {s : State} (h : Inv p s) (op : Byte) (k : ErrorKind) :
    Inv p (endErr k (beginCommand op s)) :=
  inv_endErr (s := beginCommand op s) h.inputsWf k

section Writes

variable {p : Params} {s : State} (h : Inv p s) (hb : s.busy = false)
include h hb

theorem Inv.work_eq_cleared : s.work = Work.cleared := h.live_at (h.phase_eq_idle hb)

theorem Inv.pend_eq_none : s.pend = none := h.pend_eq_none_of_idle (h.phase_eq_idle hb)

/-- While idle the host may put anything well formed into the inputs. -/
theorem Inv.withInputs {mem : List Host.Cell} {msg : Bytes} (hin : InputsWf p mem msg) (maskLen : BitVec 64) :
    Inv p { s with mem := mem, msg := msg, maskLen := maskLen } :=
  inv_of_idle hin hb h.outFits h.errDone h.errCause h.cause (h.phase_eq_idle hb) (h.pend_eq_none hb)
    (h.work_eq_cleared hb)

theorem inv_writeByte (v : Byte) (a : Addr) : Inv p (writeByte v s (locate p a)) := by
  obtain ⟨hwf, hwin, hmsg⟩ := h.inputsWf
  rcases writeByte_cases v s (locate p a) with ⟨b, hl, he⟩ | ⟨msg, maskLen, he, hlen⟩
  · rw [he]
    refine h.withInputs hb ⟨memWrite_wf b v hwf, fun c hc => ?_, hmsg⟩ s.maskLen
    rcases mem_memWrite hc with rfl | hold
    · exact inWindow_of_locate hl
    · exact hwin c hold
  · rw [he]
    exact h.withInputs hb ⟨hwf, hwin, by omega⟩ maskLen

/-! ### The commands and the illegal bytes (rules R101, R102) -/

/-- The common part of a start leaves an idle block with nothing to report. -/
theorem inv_beginCommand (op : Byte) : Inv p (beginCommand op s) :=
  inv_of_idle h.inputsWf rfl (by simp) (by simp) (by simp) (.inl (by simp)) (h.phase_eq_idle hb) (h.pend_eq_none hb)
    (h.work_eq_cleared hb)

/-- A command starts in a phase whose transients are in place. -/
theorem inv_start {op : Byte} {ph : Phase} {w : Work}
    (hlive : live p { launch ph (beginCommand op s) with work := w }) (hne : ph ≠ .idle := by decide) :
    Inv p { launch ph (beginCommand op s) with work := w } :=
  inv_of_busy h.inputsWf rfl ⟨rfl, rfl, rfl, rfl⟩ hne (pendWf_of_none (h.pend_eq_none hb)) hlive

theorem inv_illegalCommand (op : Byte) : Inv p (illegalCommand op s) := by
  rw [illegalCommand_idle op hb]
  exact inv_of_idle h.inputsWf rfl (by simp) (by simp) (by simp) (.inr rfl) (h.phase_eq_idle hb) (h.pend_eq_none hb)
    (h.work_eq_cleared hb)

/-- A mask has at most `MASK_LEN`'s largest value of bytes. -/
theorem inv_mgfCommand (hp : p.Valid) : Inv p (mgfCommand p s) := by
  have hfits : s.maskLen.toNat ≤ 2 ^ 64 - 1 := Nat.le_pred_of_lt s.maskLen.isLt
  rcases command_cases (mgfWhole p) (mgfStart p) s with ⟨-, he⟩ | ⟨-, -, he⟩ | ⟨-, -, he⟩
  · rw [mgfCommand, he]; exact h
  · rw [mgfCommand, he, mgfWhole]
    split
    · exact inv_endErr_beginCommand h ..
    · exact inv_finish_beginCommand h _ _ fun v hv => (mgf_ok_length hp.hLen_pos hv).trans_le hfits
  · rw [mgfCommand, he, mgfStart]
    split
    next => exact inv_endErr_beginCommand h ..
    next hseed =>
      have hle : s.msg.length + 4 ≤ p.hashMaxLen := Nat.le_of_not_lt (by simpa [seedTooLong] using hseed)
      exact inv_start h hb ⟨hle, hfits, .inl rfl⟩

theorem inv_rsaCommand (hp : p.Valid) : Inv p (rsaCommand p s) := by
  rcases command_cases (rsaWhole p) rsaStart s with ⟨-, he⟩ | ⟨-, -, he⟩ | ⟨-, -, he⟩
  · rw [rsaCommand, he]; exact h
  · rw [rsaCommand, he, rsaWhole]
    exact inv_finish (s := beginCommand _ s) h.inputsWf fun v hv => kLen_fits_out hp (rsaTransform_ok_length hv)
  · rw [rsaCommand, he]
    have hne : encode .rsa ≠ encode .sign := by decide
    exact inv_start h hb (w := s.work) ⟨.inl rfl, fun hsign => absurd hsign hne⟩

/-- A signature is a result of the kernel. -/
theorem inv_signCommand (hp : p.Valid) : Inv p (signCommand p s) := by
  rcases command_cases (signWhole p) signStart s with ⟨-, he⟩ | ⟨-, -, he⟩ | ⟨-, -, he⟩
  · rw [signCommand, he]; exact h
  · rw [signCommand, he]
    refine inv_finish_beginCommand h _ _ fun v hv => kLen_fits_out hp ?_
    rcases Nat.lt_or_ge p.hashMaxLen s.msg.length with hlong | hshort
    · rw [sign_of_lt _ _ _ hlong] at hv; cases hv
    · rw [sign_of_le _ hp _ _ hshort] at hv; exact rsaTransform_ok_length hv
  · rw [signCommand, he]
    exact inv_start h hb (w := s.work) rfl

theorem inv_verifyCommand : Inv p (verifyCommand p s) := by
  rcases command_cases (verifyWhole p) verifyStart s with ⟨-, he⟩ | ⟨-, -, he⟩ | ⟨-, -, he⟩
  · rw [verifyCommand, he]; exact h
  · rw [verifyCommand, he]
    refine inv_finish_beginCommand h _ _ fun v hv => ?_
    cases hr : verify p s.msg (opk p s) (opn p s) (opm p s) with
    | ok => rw [hr] at hv; cases hv; exact Nat.zero_le _
    | error k => rw [hr] at hv; cases hv
  · rw [verifyCommand, he]
    exact inv_start h hb (w := s.work) rfl

end Writes

/-! ### A step -/

theorem inv_exec {i : Instr} {s t : State} (h : Inv Config.params s) (hb : s.busy = false) (hx : exec i s = .next t) :
    Inv Config.params t := by
  rw [exec_next] at hx
  obtain rfl := Host.Outcome.next.inj hx
  cases i with
  | clear => simpa [clearCommand, hb] using inv_beginCommand h hb (encode .clear)
  | rsa => exact inv_rsaCommand h hb Config.params_valid
  | mgf => exact inv_mgfCommand h hb Config.params_valid
  | sign => exact inv_signCommand h hb Config.params_valid
  | verify => exact inv_verifyCommand h hb

theorem inv_hostWrite {a : Addr} {v : Byte} {s t : State} (h : Inv Config.params s) (hw : hostWrite a v s = .next t) :
    Inv Config.params t := by
  cases hb : s.busy with
  | true =>
    rw [hostWrite_busy a v hb] at hw
    cases hw
    exact h
  | false =>
    rcases hostWrite_cases a v s with ⟨-, he⟩ | ⟨-, he⟩
    · rcases writeCmd_cases v s with ⟨i, -, hc⟩ | ⟨-, hc⟩
      · exact inv_exec h hb (hc.symm.trans (he.symm.trans hw))
      · rw [he, hc] at hw
        cases hw
        exact inv_illegalCommand h hb v
    · rw [he, gatedWrite, hb] at hw
      cases hw
      exact inv_writeByte h hb v a

theorem inv_move {e : Event} {s t : State} (h : Inv Config.params s) (hm : move e s = .next t) :
    Inv Config.params t := by
  cases e with
  | hostWrite a v => exact inv_hostWrite h hm
  | hostRead a => cases hm; exact inv_hostRead h a
  | hostWait => cases hm; exact inv_hostWait h
  | sequencer => cases hm; exact inv_sequencerMove Config.params_valid h
  | answer => cases hm; exact inv_answerMove h
  | reset => cases hm; exact inv_resetMove ..

/-- Settles O52, move by move: the phases and answers by what `live` says of their buffers and loops, the host's moves and
the commands by the two shapes of a state. -/
theorem everyStepKeepsInvariant : Obligations.EveryStepKeepsInvariant := by
  unfold Obligations.EveryStepKeepsInvariant
  intro s t h hstep
  rcases step_cases s with ⟨-, hdue⟩ | ⟨e, rest, -, hmove⟩
  · rw [hdue] at hstep
    cases hstep
    exact inv_dueMove Config.params_valid h
  · exact inv_move (h.observed rest s.reads) (hmove.symm.trans hstep)

/-- Settles O51: the reset state is what reset leaves, of itself. -/
theorem resetSatisfiesInvariant : Obligations.ResetSatisfiesInvariant := inv_resetMove Config.params State.reset

end Sys2Proof.Machine
end

section
/-! SUPPORT. The command byte both ways (rules R100 to R102), and the steps that always answer (rule R274), place a command,
do nothing (rules R34, R259, R271) or reset the block (rules R270, R271). -/

namespace Sys2Proof.Machine

/-! ### The command byte -/

/-- Settles O1, word by word. -/
theorem opcodeWordsDecode : Obligations.OpcodeWordsDecode :=
  ⟨rfl, rfl, rfl, rfl, rfl, rfl, rfl⟩

theorem decode_encode (i : Instr) : decode (encode i) = .ok i := by
  cases i <;> rfl

/-- Settles O2: each command's byte decodes to it, a byte that decodes is that encoding, and the rest of the bytes are those
from 0x05 on. -/
theorem decodeInvertsEncode : Obligations.DecodeInvertsEncode := by
  unfold Obligations.DecodeInvertsEncode
  exact ⟨fun i _ => decode_encode i, fun _ _ => encode_of_decode, fun _ => decode_of_five_le⟩

theorem decode_of_decodeTableWord {w : Nat} {i : Instr} (h : decodeTableWord 8 w = some i) :
    decode (commandByte 8 w) = .ok i := by
  unfold decodeTableWord at h
  split at h
  next hd => rw [hd, Option.some.inj h]
  next => cases h

/-- A step whose move is the write of a command's byte is that command. -/
theorem step_command {s : State} {op : Byte} {rest : List Event} {i : Instr}
    (h : s.agenda = .hostWrite 0x0000#14 op :: rest) (hi : decode op = .ok i) :
    step s = exec i { s with agenda := rest } := by
  rw [step_writeCmd h, writeCmd_of_decode hi]

/-- Settles O3: the write is taken from the schedule and runs; `withFetchWord` schedules it and nothing else. -/
theorem stepRunsDecodedCommand : Obligations.StepRunsDecodedCommand := by
  unfold Obligations.StepRunsDecodedCommand
  exact ⟨fun s op rest i h hi _ => step_command h hi,
    fun s w i hw => step_command (s := s.withFetchWord 8 w) rfl (decode_of_decodeTableWord hw)⟩

/-! ### Every move answers -/

theorem hostWrite_next (a : Addr) (v : Byte) (s : State) : ∃ t, hostWrite a v s = .next t := by
  rcases hostWrite_cases a v s with ⟨-, he⟩ | ⟨-, he⟩
  · rcases writeCmd_cases v s with ⟨i, -, hc⟩ | ⟨-, hc⟩
    · exact ⟨_, he.trans (hc.trans (exec_next i s))⟩
    · exact ⟨_, he.trans hc⟩
  · exact ⟨_, he⟩

theorem move_next (e : Event) (s : State) : ∃ t, move e s = .next t := by
  cases e with
  | hostWrite a v => exact hostWrite_next a v s
  | hostRead a => exact ⟨_, rfl⟩
  | hostWait => exact ⟨_, rfl⟩
  | sequencer => exact ⟨_, rfl⟩
  | answer => exact ⟨_, rfl⟩
  | reset => exact ⟨_, rfl⟩

/-- Settles O4: a command by its equation, a step by the move it makes. -/
theorem stepNeverStops : Obligations.StepNeverStops := by
  unfold Obligations.StepNeverStops
  refine ⟨fun i s => ⟨_, exec_next i s⟩, fun s => ?_⟩
  rcases step_cases s with ⟨-, hdue⟩ | ⟨e, rest, -, hmove⟩
  · exact ⟨_, hdue⟩
  · rw [hmove]
    exact move_next e _

/-! ### The moves that do nothing -/

/-- An answer makes no further call and is the last thing its call waited for. -/
@[simp] theorem completePhase_pend (bytes : Bytes) (s : State) : (completePhase bytes s).pend = s.pend := by
  unfold completePhase
  split <;> rfl

/-- With nothing scheduled a step is the due move. -/
theorem step_nil {s : State} (h : s.agenda = []) : step s = .next (dueMove Config.params s) := by
  rw [step, nextMove, h]

theorem dueMove_of_pend {p : Params} {s : State} {c : PortCall} (h : s.pend = some c) :
    dueMove p s = completePhase (answerOf p s c) { s with pend := none } := by
  simp only [dueMove, answerMove, h]

theorem dueMove_of_pend_none {p : Params} {s : State} (h : s.pend = none) : dueMove p s = phaseStep p s := by
  simp only [dueMove, sequencerMove, h]

theorem phaseStep_idle (p : Params) {s : State} (h : s.phase = .idle) : phaseStep p s = s := by
  rw [phaseStep, h]

theorem step_answer_discarded {s : State} {rest : List Event} (h : s.agenda = .answer :: rest) (hp : s.pend = none) :
    step s = .next { s with agenda := rest } := by
  rw [step_cons h, move, answerMove]
  simp only [hp]

/-- Settles O7, clause by clause. -/
theorem movesThatDoNothing : Obligations.MovesThatDoNothing := by
  unfold Obligations.MovesThatDoNothing
  refine ⟨fun s h hp hph => ?_, fun s rest c h hp => ?_, fun s rest h hp => step_answer_discarded h hp,
    fun s rest c h hp => ?_⟩
  · rw [step_nil h, dueMove_of_pend_none hp, phaseStep_idle _ hph]
  · rw [step_cons h, move, sequencerMove]
    simp only [hp]
  · obtain ⟨-, -, -, -, hagenda, -⟩ := completePhase_kept (answerOf Config.params { s with agenda := rest } c)
      { s with agenda := rest, pend := none }
    exact ⟨_, step_answer h hp, completePhase_pend .., completePhase_trace .., hagenda⟩

/-! ### Reset -/

/-- Settles O47: reset writes every field of the block, keeps the trace the draws are counted in, and leaves no call for a
late answer. -/
theorem resetFromAnyState : Obligations.ResetFromAnyState := by
  unfold Obligations.ResetFromAnyState
  intro s rest h
  refine ⟨resetMove { s with agenda := rest }, ?_, rfl, rfl, fun rest' h' => step_answer_discarded h' rfl⟩
  rw [step_cons h, move]

/-! ### What the host cannot see -/

/-- The byte a read returns is one of the host's registers, the flags or the parameters. -/
theorem readByte_transients (p : Params) (s : State) (w : Work) (ph : Phase) (c : Option PortCall) (l : Loc) :
    readByte p { s with work := w, phase := ph, pend := c } l = readByte p s l := by
  cases l <;> rfl

/-- A read adds its one byte to the host's record. -/
theorem hostRead_reads (p : Params) (a : Addr) (s : State) :
    (hostRead p a s).reads = s.reads ++ [(a, readByte p s (locate p a))] := by
  unfold hostRead readEffect
  split <;> rfl

/-- Settles O18: no register of the host's map and no wire is a transient, the phase or the call in flight. -/
theorem readsIgnoreTransients : Obligations.ReadsIgnoreTransients := by
  unfold Obligations.ReadsIgnoreTransients
  intro s w ph c a
  refine ⟨?_, rfl, rfl⟩
  rw [hostRead_reads, hostRead_reads, readByte_transients]

/-! ### CLEAR -/

/-- Settles O19: CLEAR is the common part of a start. -/
theorem clearDropsTheResult : Obligations.ClearDropsTheResult := by
  unfold Obligations.ClearDropsTheResult
  intro s hb
  exact ⟨_, exec_clear_idle hb, statusByte_of_flags_clear rfl rfl rfl, errcode_of_ecause_eq_zero _ rfl, rfl, rfl,
    ⟨rfl, fun _ => rfl, rfl, rfl⟩, ⟨rfl, rfl, rfl⟩, rfl, rfl, rfl, rfl⟩

end Sys2Proof.Machine
end

section
/-! SUPPORT. What the steps of every agent leave as it was (rules R21 to R25, R67, R69). -/

namespace Sys2Proof.Machine

/-! ### The inputs -/

theorem InputsKept.refl (s : State) : InputsKept s s := ⟨rfl, fun _ => rfl, rfl, rfl⟩

theorem InputsKept.of_eq {s t : State} (hmem : t.mem = s.mem) (hmsg : t.msg = s.msg) (hmask : t.maskLen = s.maskLen) :
    InputsKept s t := ⟨hmem, fun _ => by rw [hmem], hmsg, hmask⟩

theorem MoveKept.inputsKept {s t : State} (h : MoveKept s t) : InputsKept s t := by
  obtain ⟨hmem, hmsg, hmask, -⟩ := h
  exact .of_eq hmem hmsg hmask

/-- A command that keeps the inputs whole and at its start keeps them at either level, and while busy. -/
theorem inputsKept_command {whole start : State → State} {s : State} (hwhole : InputsKept s (whole s))
    (hstart : InputsKept s (start s)) : InputsKept s (command whole start s) := by
  rcases command_cases whole start s with ⟨-, he⟩ | ⟨-, -, he⟩ | ⟨-, -, he⟩
  · rw [he]; exact .refl s
  · rw [he]; exact hwhole
  · rw [he]; exact hstart

theorem inputsKept_mgfCommand (p : Params) (s : State) : InputsKept s (mgfCommand p s) := by
  refine inputsKept_command ?_ ?_
  · unfold mgfWhole
    split
    · exact inputsKept_finish_beginCommand (.error .messageTooLong) ..
    · exact inputsKept_finish_record_beginCommand ..
  · unfold mgfStart
    split
    · exact inputsKept_finish_beginCommand (.error .messageTooLong) ..
    · exact .of_eq rfl rfl rfl

theorem inputsKept_exec {i : Instr} {s t : State} (h : exec i s = .next t) : InputsKept s t := by
  rw [exec_next] at h
  obtain rfl := Host.Outcome.next.inj h
  cases i with
  | clear =>
    dsimp only [clearCommand]
    split
    · exact .refl s
    · exact .of_eq rfl rfl rfl
  | rsa => exact inputsKept_command (inputsKept_finish_beginCommand ..) (.of_eq rfl rfl rfl)
  | mgf => exact inputsKept_mgfCommand ..
  | sign => exact inputsKept_command (inputsKept_finish_record_beginCommand ..) (.of_eq rfl rfl rfl)
  | verify => exact inputsKept_command (inputsKept_verifyWhole ..) (.of_eq rfl rfl rfl)

theorem inputsKept_hostRead (p : Params) (a : Addr) (s : State) : InputsKept s (hostRead p a s) := by
  unfold hostRead readEffect
  split
  · exact .of_eq rfl rfl rfl
  · exact .of_eq rfl rfl rfl

theorem inputsKept_hostWait (s : State) : InputsKept s (hostWait s) := by
  unfold hostWait
  dsimp only
  split
  · exact .of_eq rfl rfl rfl
  · exact .of_eq rfl rfl rfl

theorem inputsKept_move {e : Event} {s t : State} (hwrite : ∀ a v, e ≠ .hostWrite a v) (hreset : e ≠ .reset)
    (h : move e s = .next t) : InputsKept s t := by
  cases e with
  | hostWrite a v => exact absurd rfl (hwrite a v)
  | hostRead a => cases h; exact inputsKept_hostRead ..
  | hostWait => cases h; exact inputsKept_hostWait s
  | sequencer => cases h; exact (sequencerMove_kept _ s).inputsKept
  | answer => cases h; exact (answerMove_kept _ s).inputsKept
  | reset => exact absurd rfl hreset

/-- Settles O50: the commands at either level, then move by move. -/
theorem inputsWrittenOnlyByHostAndReset : Obligations.InputsWrittenOnlyByHostAndReset := by
  unfold Obligations.InputsWrittenOnlyByHostAndReset
  refine ⟨fun i s t => inputsKept_exec, fun s t hstep hwrite hreset => ?_⟩
  rcases step_cases s with ⟨-, hdue⟩ | ⟨e, rest, hagenda, hmove⟩
  · rw [hdue] at hstep
    cases hstep
    exact (dueMove_kept _ s).inputsKept
  · exact inputsKept_move (s := { s with agenda := rest }) (fun a v he => hwrite a v rest (he ▸ hagenda))
      (fun he => hreset rest (he ▸ hagenda)) (hmove.symm.trans hstep)

/-! ### What the host sees while busy -/

/-- The registers a step of a running command leaves as they were, `OUT` apart. -/
def VisibleKept (s t : State) : Prop :=
  t.curCmd = s.curCmd ∧ t.done = s.done ∧ t.err = s.err ∧ t.ecause = s.ecause ∧ t.mem = s.mem ∧ t.msg = s.msg ∧
    t.maskLen = s.maskLen

theorem MoveKept.visibleKept {s t : State} (h : MoveKept s t) (hb : t.busy = true) :
    VisibleKept s t ∧ t.out = s.out := by
  obtain ⟨hmem, hmsg, hmask, hcmd, -, -, -, ⟨-, hdone, herr, hcause, hout⟩ | ⟨hidle, -⟩⟩ := h
  · exact ⟨⟨hcmd, hdone, herr, hcause, hmem, hmsg, hmask⟩, hout⟩
  · rw [hidle] at hb
    cases hb

/-- Only address 0x0021 is `OUT_POP` (rule R61). -/
theorem eq_of_locate_outPop {p : Params} {a : Addr} (h : locate p a = .outPop) : a = 0x0021#14 := by
  apply BitVec.eq_of_toNat_eq
  by_cases hcontrol : a.toNat < 0x1000
  · rw [locate_control hcontrol] at h
    by_cases hlow : a.toNat < 0x23
    · have key : ∀ n < 0x23, controlMap.getD n .reserved = .outPop → n = 0x21 := by decide
      exact key _ hlow h
    · rw [List.getD_eq_default _ _ (Nat.le_of_not_lt hlow)] at h
      cases h
  · exfalso
    have hwindow : ∀ inside i, (∀ j, inside j ≠ .outPop) → windowLoc p inside i ≠ .outPop := by
      intro inside i hinside
      rcases windowLoc_cases p inside i with ⟨-, he⟩ | ⟨-, he⟩
      · rw [he]; exact hinside i
      · rw [he]; nofun
    unfold locate at h
    rw [if_neg hcontrol] at h
    split at h
    · exact hwindow .opm _ nofun h
    · split at h
      · exact hwindow .opk _ nofun h
      · exact hwindow .opn _ nofun h

/-- A move that begins and ends busy shows the host nothing but the byte it pops itself. -/
theorem visibleKept_move {e : Event} {s t : State} (hs : s.busy = true) (ht : t.busy = true)
    (h : move e s = .next t) :
    VisibleKept s t ∧ (t.out = s.out ∨ (e = .hostRead 0x0021#14 ∧ t.out = s.out.tail)) := by
  cases e with
  | hostWrite a v =>
    rw [move, hostWrite_busy a v hs] at h
    cases h
    exact ⟨⟨rfl, rfl, rfl, rfl, rfl, rfl, rfl⟩, .inl rfl⟩
  | hostRead a =>
    cases h
    by_cases hl : locate Config.params a = .outPop
    · obtain rfl := eq_of_locate_outPop hl
      rw [hostRead_outPop hl]
      exact ⟨⟨rfl, rfl, rfl, rfl, rfl, rfl, rfl⟩, .inr ⟨rfl, rfl⟩⟩
    · rw [hostRead_of_ne_outPop hl]
      exact ⟨⟨rfl, rfl, rfl, rfl, rfl, rfl, rfl⟩, .inl rfl⟩
  | hostWait =>
    cases h
    rw [hostWait, if_pos hs]
    exact ⟨⟨rfl, rfl, rfl, rfl, rfl, rfl, rfl⟩, .inl rfl⟩
  | sequencer => cases h; exact ((sequencerMove_kept _ s).visibleKept ht).imp_right .inl
  | answer => cases h; exact ((answerMove_kept _ s).visibleKept ht).imp_right .inl
  | reset => cases h; cases ht

/-- Settles O49, move by move. -/
theorem commandHasTwoVisibleInstants : Obligations.CommandHasTwoVisibleInstants := by
  unfold Obligations.CommandHasTwoVisibleInstants
  intro s t hs ht hstep
  have hkept : VisibleKept s t ∧
      (t.out = s.out ∨ ∃ rest, s.agenda = .hostRead 0x0021#14 :: rest ∧ t.out = s.out.tail) := by
    rcases step_cases s with ⟨-, hdue⟩ | ⟨e, rest, hagenda, hmove⟩
    · rw [hdue] at hstep
      cases hstep
      exact ((dueMove_kept _ s).visibleKept ht).imp_right .inl
    · obtain ⟨hvisible, hout⟩ := visibleKept_move (s := { s with agenda := rest }) hs ht (hmove.symm.trans hstep)
      exact ⟨hvisible, hout.imp_right fun ⟨he, htail⟩ => ⟨rest, he ▸ hagenda, htail⟩⟩
  obtain ⟨⟨hcmd, hdone, herr, hcause, hmem, hmsg, hmask⟩, hout⟩ := hkept
  exact ⟨hcmd, hdone, herr, hcause, hmem, hmsg, hmask, hout⟩

end Sys2Proof.Machine
end

section
/-! SUPPORT. The host's writes and pops while the block is idle (rules R24 to R26, R63 to R65), one at a time and in the
sequences of the host (rule R113). -/

namespace Sys2Proof.Machine

/-! ### Runs -/

theorem run_zero (s : State) : Sys2Proof.core.run 0 s = .next s := rfl

theorem run_succ {s t : State} (h : step s = .next t) (n : Nat) :
    Sys2Proof.core.run (n + 1) s = Sys2Proof.core.run n t := by
  have hcore : Sys2Proof.core.step s = .next t := h
  simp only [Host.Core.run, hcore]

/-! ### Pops -/

/-- Settles O11, by induction over `OUT`: each pop takes the first byte left. -/
theorem popsDeliverOutInOrder : Obligations.PopsDeliverOutInOrder := by
  unfold Obligations.PopsDeliverOutInOrder
  intro s rest h
  induction hout : s.out generalizing s with
  | nil =>
    rw [hout] at h
    rw [List.length_nil, run_zero, List.map_nil, List.append_nil, ← hout, ← h.trans (List.nil_append rest)]
  | cons b out ih =>
    rw [hout] at h
    have hpop : s.agenda = .hostRead 0x0021#14 :: (popn out.length ++ rest) := h
    rw [List.length_cons, run_succ (step_hostRead_outPop hpop) out.length]
    have htail := ih { s with
      agenda := popn out.length ++ rest, reads := s.reads ++ [(0x0021#14, s.out.headD 0x00#8)], out := s.out.tail }
      (by simp [hout]) (by simp [hout])
    simpa [hout] using htail

/-! ### One write while idle -/

/-- A write of any place but `CMD`, while idle, is the byte's own effect (rule R65). -/
theorem step_hostWrite_idle {s : State} {a : Addr} {v : Byte} {rest : List Event} {l : Loc} (hb : s.busy = false)
    (hl : locate Config.params a = l) (hne : l ≠ .cmd) (h : s.agenda = .hostWrite a v :: rest) :
    step s = .next (writeByte v { s with agenda := rest } l) := by
  subst hl
  rw [step_cons h, move]
  rcases hostWrite_cases a v { s with agenda := rest } with ⟨hcmd, -⟩ | ⟨-, hw⟩
  · exact absurd hcmd hne
  · rw [hw, gatedWrite, if_neg (by simp [hb])]

/-- Settles O14: a push by whether the buffer is full; the clear. -/
theorem messagePushAndClear : Obligations.MessagePushAndClear := by
  unfold Obligations.MessagePushAndClear
  intro s v rest hb
  refine ⟨fun h hlt => ?_, fun h hfull => ?_, fun h => ?_⟩
  · rw [step_hostWrite_idle (l := .msgPush) hb rfl nofun h, writeByte, pushByte, if_pos hlt]
  · rw [step_hostWrite_idle (l := .msgPush) hb rfl nofun h, writeByte, pushByte, if_neg hfull.not_lt]
  · rw [step_hostWrite_idle (l := .msgClr) hb rfl nofun h, writeByte]

/-- Eight bytes are a 64-bit value and back (rule R63). -/
theorem beBytes_ofNat_beInt {x : Bytes} (h : x.length = 8) : beBytes (BitVec.ofNat 64 (beInt x)).toNat 8 = x := by
  have hlt : beInt x < 2 ^ 64 := by
    have hbound := beInt_lt x
    rw [h] at hbound
    omega
  have hback := beBytes_beInt x
  rw [h] at hback
  rw [BitVec.toNat_ofNat, Nat.mod_eq_of_lt hlt, hback]

/-- A write to byte `i` of `MASK_LEN` replaces that byte and nothing else. -/
theorem step_write_maskLen {s : State} {i : Nat} {v : Byte} {rest : List Event} (hi : i < 8) (hb : s.busy = false)
    (h : s.agenda = .hostWrite (BitVec.ofNat 14 (0x0010 + i)) v :: rest) :
    ∃ m : BitVec 64, step s = .next { s with agenda := rest, maskLen := m } ∧
      beBytes m.toNat 8 = (beBytes s.maskLen.toNat 8).set i v :=
  ⟨_, step_hostWrite_idle hb (locate_maskLen _ hi) nofun h, beBytes_ofNat_beInt (by simp)⟩

/-- Settles O12: the eight bytes, one replaced, are a value of 64 bits. -/
theorem maskLenByteWrites : Obligations.MaskLenByteWrites := by
  unfold Obligations.MaskLenByteWrites
  intro s i v rest hi hb h
  obtain ⟨m, hstep, hbytes⟩ := step_write_maskLen hi hb h
  exact ⟨_, hstep, hbytes, rfl⟩

/-! ### Operand bytes -/

/-- The base address of an operand register (rule R61). -/
def operandBase (base : Nat) : Prop := base = opmBase ∨ base = opkBase ∨ base = opnBase

/-- A write inside an operand's window writes the memory at that bus address. -/
theorem step_write_operand {s : State} {base i : Nat} {v : Byte} {rest : List Event} (hbase : operandBase base)
    (hi : i < Config.params.kLen) (hb : s.busy = false)
    (h : s.agenda = .hostWrite (BitVec.ofNat 14 (base + i)) v :: rest) :
    step s = .next { s with agenda := rest, mem := memWrite s.mem (base + i) v } := by
  have hk := Config.params_valid.kLen_le
  rcases hbase with rfl | rfl | rfl
  · exact step_hostWrite_idle hb (locate_opm hi hk) nofun h
  · exact step_hostWrite_idle hb (locate_opk hi hk) nofun h
  · exact step_hostWrite_idle hb (locate_opn hi hk) nofun h

/-- A register is its bytes, read one by one. -/
theorem window_eq_of_forall {p : Params} {mem : List Host.Cell} {base : Nat} {x : Bytes} (hx : x.length = p.kLen)
    (h : ∀ i < p.kLen, memRead mem (base + i) = x.getD i 0x00#8) : window p mem base = x := by
  apply List.ext_getElem
  · rw [window_length, hx]
  · intro i hi hi'
    have hik : i < p.kLen := by rwa [window_length] at hi
    have hread := h i hik
    rw [← window_getD mem base hik, List.getD_eq_getElem _ _ hi, List.getD_eq_getElem _ _ hi'] at hread
    exact hread

/-- The windows of two registers do not meet: an operand fits its window (rules R7, R61). -/
theorem operand_ne {p : Params} (hp : p.Valid) {base base' i j : Nat} (hbase : operandBase base)
    (hbase' : operandBase base') (hne : base' ≠ base) (hi : i < p.kLen) (hj : j < p.kLen) : base + i ≠ base' + j := by
  have hk := hp.kLen_le
  unfold operandBase opmBase opkBase opnBase at hbase hbase'
  omega

/-- After a write of one byte each register is as before, but for that byte where it is its own. -/
theorem window_memWrite {p : Params} (hp : p.Valid) {mem : List Host.Cell} (hwf : Memory.wf mem = true)
    {base base' i : Nat} (hbase : operandBase base) (hbase' : operandBase base') (hi : i < p.kLen) (v : Byte) :
    window p (memWrite mem (base + i) v) base' =
      if base = base' then (window p mem base').set i v else window p mem base' := by
  split
  next heq =>
    subst heq
    refine window_eq_of_forall (by simp) fun j hj => ?_
    rw [memRead_memWrite hwf, List.getD_eq_getElem?_getD, List.getElem?_set, window_length]
    by_cases hij : i = j
    · simp [hij, hj]
    · simp [hij, window, hj]
  next hne =>
    refine window_eq_of_forall (by simp) fun j hj => ?_
    rw [memRead_memWrite hwf, if_neg (operand_ne hp hbase hbase' (Ne.symm hne) hi hj), window_getD mem base' hj]

/-- Settles O13: the write is one of the memory, which keeps its form and every other byte. -/
theorem operandByteWrites : Obligations.OperandByteWrites := by
  unfold Obligations.OperandByteWrites
  intro P s i v rest hwf hi hb base hbase h
  have hwindow := fun base' hbase' =>
    window_memWrite (base' := base') Config.params_valid hwf hbase hbase' hi v
  exact ⟨_, step_write_operand hbase hi hb h, memWrite_wf _ v hwf,
    fun a => by rw [memRead_memWrite hwf]; exact if_congr eq_comm rfl rfl,
    hwindow opmBase (.inl rfl), hwindow opkBase (.inr (.inl rfl)), hwindow opnBase (.inr (.inr rfl)), rfl⟩

end Sys2Proof.Machine
end

section
/-! SUPPORT. The load pseudo-instructions (rule R113), each by induction over its writes. -/

namespace Sys2Proof.Machine

/-! ### `ldop` -/

/-- The memory after the bytes of a string are written from an address on. -/
def memLoad : List Host.Cell → Nat → Bytes → List Host.Cell
  | mem, _, [] => mem
  | mem, a, b :: x => memLoad (memWrite mem a b) (a + 1) x

theorem memRead_memLoad {mem : List Host.Cell} (hwf : Memory.wf mem = true) (x : Bytes) (a a' : Nat) :
    memRead (memLoad mem a x) a' =
      if a ≤ a' ∧ a' < a + x.length then x.getD (a' - a) 0x00#8 else memRead mem a' := by
  induction x generalizing mem a with
  | nil => rw [memLoad, List.length_nil, if_neg (by omega)]
  | cons b x ih =>
    rw [memLoad, ih (memWrite_wf a b hwf), memRead_memWrite hwf, List.length_cons]
    rcases Nat.lt_trichotomy a a' with hlt | rfl | hgt
    · obtain ⟨d, rfl⟩ : ∃ d, a' = a + 1 + d := ⟨a' - (a + 1), by omega⟩
      have hidx : a + 1 + d - a = d + 1 := by omega
      rw [hidx, List.getD_cons_succ, Nat.add_sub_cancel_left]
      exact if_congr (by omega) rfl (if_neg (by omega))
    · rw [if_neg (by omega), if_pos rfl, if_pos (by omega), Nat.sub_self, List.getD_cons_zero]
    · rw [if_neg (by omega), if_neg (by omega), if_neg (by omega)]

/-- The writes of `ldop` from byte `k` of the register on. -/
theorem run_ldop_from {base : Nat} (hbase : operandBase base) {rest : List Event} (x : Bytes) (k : Nat) {s : State}
    (hfits : k + x.length ≤ Config.params.kLen) (hb : s.busy = false)
    (h : s.agenda = (x.zipIdx k).map (fun b => .hostWrite (BitVec.ofNat 14 (base + b.2)) b.1) ++ rest) :
    Sys2Proof.core.run x.length s = .next { s with agenda := rest, mem := memLoad s.mem (base + k) x } := by
  induction x generalizing k s with
  | nil =>
    have hs : { s with agenda := rest } = s := by rw [← h.trans (List.nil_append rest)]
    rw [List.length_nil, run_zero, memLoad, hs]
  | cons b x ih =>
    rw [List.length_cons] at hfits ⊢
    rw [run_succ (step_write_operand hbase (by omega) hb h)]
    exact ih (k + 1) (by omega) hb rfl

theorem run_ldop {base : Nat} (hbase : operandBase base) {rest : List Event} {x : Bytes} {s : State}
    (hx : x.length = Config.params.kLen) (hb : s.busy = false) (h : s.agenda = ldop base x ++ rest) :
    Sys2Proof.core.run Config.params.kLen s = .next { s with agenda := rest, mem := memLoad s.mem base x } := by
  rw [← hx]
  exact run_ldop_from hbase x 0 (by omega) hb h

/-! ### `ldmsg` -/

theorem run_pushes {rest : List Event} (x : Bytes) {s : State} (hfits : s.msg.length + x.length ≤ 2 ^ 64 - 1)
    (hb : s.busy = false) (h : s.agenda = x.map (.hostWrite 0x0020#14) ++ rest) :
    Sys2Proof.core.run x.length s = .next { s with agenda := rest, msg := s.msg ++ x } := by
  induction x generalizing s with
  | nil =>
    have hs : { s with agenda := rest } = s := by rw [← h.trans (List.nil_append rest)]
    rw [List.length_nil, run_zero, List.append_nil, hs]
  | cons v x ih =>
    rw [List.length_cons] at hfits ⊢
    obtain ⟨hpush, -⟩ := messagePushAndClear s v (x.map (.hostWrite 0x0020#14) ++ rest) hb
    have hrest := ih (s := { s with agenda := x.map (.hostWrite 0x0020#14) ++ rest, msg := s.msg ++ [v] })
      (by rw [List.length_append, List.length_singleton]; omega) hb rfl
    rw [List.append_assoc] at hrest
    exact (run_succ (hpush h (by omega)) _).trans hrest

theorem run_ldmsg {rest : List Event} {x : Bytes} {s : State} (hx : x.length ≤ 2 ^ 64 - 1) (hb : s.busy = false)
    (h : s.agenda = ldmsg x ++ rest) :
    Sys2Proof.core.run (x.length + 1) s = .next { s with agenda := rest, msg := x } := by
  obtain ⟨-, -, hclear⟩ := messagePushAndClear s 0x00#8 (x.map (.hostWrite 0x0020#14) ++ rest) hb
  rw [run_succ (hclear h)]
  exact run_pushes x (by simpa using hx) hb rfl

/-! ### `ldlen` -/

/-- A byte string with one byte taken from another follows the other one byte longer. -/
theorem take_set_append_drop {B V : Bytes} {k : Nat} (hB : k < B.length) (hV : k < V.length) :
    (B.set k (V.getD k 0x00#8)).take (k + 1) ++ V.drop (k + 1) = B.take k ++ V.drop k := by
  rw [List.drop_eq_getElem_cons hV, List.take_add_one, List.take_set_of_le (le_refl k), List.getElem?_set_self hB,
    List.getD_eq_getElem _ _ hV, Option.toList_some, List.append_assoc, List.singleton_append]

/-- The writes of `ldlen` from byte `k` on leave the bytes before it. -/
theorem run_ldlen_from {v : Nat} {rest : List Event} (j k : Nat) {s : State} (hjk : k + j = 8) (hb : s.busy = false)
    (h : s.agenda =
      (List.range' k j).map (fun i => .hostWrite (BitVec.ofNat 14 (0x0010 + i)) (regByte v 8 i)) ++ rest) :
    ∃ m : BitVec 64, Sys2Proof.core.run j s = .next { s with agenda := rest, maskLen := m } ∧
      beBytes m.toNat 8 = (beBytes s.maskLen.toNat 8).take k ++ (beBytes v 8).drop k := by
  induction j generalizing k s with
  | zero =>
    have hs : { s with agenda := rest } = s := by rw [← h.trans (List.nil_append rest)]
    obtain rfl : k = 8 := hjk
    refine ⟨s.maskLen, by rw [run_zero, hs], ?_⟩
    rw [List.take_of_length_le (beBytes_length ..).le, List.drop_of_length_le (beBytes_length ..).le, List.append_nil]
  | succ j ih =>
    obtain ⟨m, hstep, hbytes⟩ := step_write_maskLen (by omega) hb h
    obtain ⟨m', hrun, hbytes'⟩ := ih (k + 1) (s := { s with
      agenda := (List.range' (k + 1) j).map
        (fun i => .hostWrite (BitVec.ofNat 14 (0x0010 + i)) (regByte v 8 i)) ++ rest, maskLen := m })
      (by omega) hb rfl
    refine ⟨m', (run_succ hstep j).trans hrun, hbytes'.trans ?_⟩
    rw [hbytes, regByte]
    exact take_set_append_drop (by rw [beBytes_length]; omega) (by rw [beBytes_length]; omega)

theorem run_ldlen {v : Nat} {rest : List Event} {s : State} (hv : v < 2 ^ 64) (hb : s.busy = false)
    (h : s.agenda = ldlen v ++ rest) :
    Sys2Proof.core.run 8 s = .next { s with agenda := rest, maskLen := BitVec.ofNat 64 v } := by
  obtain ⟨m, hrun, hbytes⟩ := run_ldlen_from (v := v) (rest := rest) 8 0 rfl hb h
  rw [List.take_zero, List.nil_append, List.drop_zero] at hbytes
  have himport := congrArg beInt hbytes
  rw [beInt_beBytes m.isLt, beInt_beBytes hv] at himport
  rw [hrun, ← himport, BitVec.ofNat_toNat, BitVec.setWidth_eq]

/-- Settles O15: the memory loaded is read back byte by byte; the pushes follow the clear; the eight bytes written are the
value's. -/
theorem loadsReachTheirRegisters : Obligations.LoadsReachTheirRegisters := by
  unfold Obligations.LoadsReachTheirRegisters
  intro P s rest hb
  refine ⟨fun base x hwf hx hbase h => ?_, fun x hx h => run_ldmsg hx hb h, fun v hv h => run_ldlen hv hb h⟩
  refine ⟨_, run_ldop hbase hx hb h, window_eq_of_forall hx fun i hi => ?_, fun a ha => ?_, rfl⟩
  · rw [memRead_memLoad hwf, if_pos (by omega), Nat.add_sub_cancel_left]
  · rw [memRead_memLoad hwf, if_neg (by rwa [hx])]

end Sys2Proof.Machine
end

section
/-! SUPPORT. The error kinds of the functions and of the commands (rules R250, R254), and the commands in the reset state
(rule R273). -/

namespace Sys2Proof.Machine

/-! ### The kinds of the functions -/

theorem rsaTransform_error {p : Params} {m k n : Bytes} {e : ErrorKind} (h : rsaTransform p m k n = .error e) :
    e = .messageOutOfRange := by
  rcases rsaTransform_cases p m k n with ⟨-, he⟩ | ⟨-, he⟩
  · rw [he] at h; cases h; rfl
  · rw [he] at h; cases h

theorem mgf_error {p : Params} {seed : Bytes} {maskLen : Nat} {e : ErrorKind} (h : mgf p seed maskLen = .error e) :
    e = .maskTooLong := by
  rcases mgf_cases p seed maskLen with ⟨-, he⟩ | ⟨-, he⟩
  · rw [he] at h; cases h; rfl
  · rw [he] at h; cases h

/-- Under rule R7 SIGN can fail in step 1 and in the kernel alone (rule R192). -/
theorem sign_error {p : Params} (hp : p.Valid) {message d n salt : Bytes} {e : ErrorKind}
    (h : sign p message d n salt = .error e) : e = .messageTooLong ∨ e = .messageOutOfRange := by
  rcases Nat.lt_or_ge p.hashMaxLen message.length with hlong | hshort
  · rw [sign_of_lt _ _ _ hlong] at h; cases h; exact .inl rfl
  · rw [sign_of_le _ hp _ _ hshort] at h; exact .inr (rsaTransform_error h)

/-- A kind the decoder can end with: one for each of its checks. -/
def DecoderKind (k : ErrorKind) : Prop :=
  k = .messageTooLong ∨ k = .invalidTrailer ∨ k = .invalidLeadingBit ∨ k = .invalidPadding ∨ k = .hashMismatch

theorem verifyHash_error {p : Params} {message salt h : Bytes} {e : ErrorKind}
    (herr : verifyHash p message salt h = .error e) : DecoderKind e := by
  rcases verifyHash_cases p message salt h with ⟨-, he⟩ | ⟨-, -, he⟩ | ⟨-, -, he⟩
  · rw [he] at herr; cases herr; exact .inl rfl
  · rw [he] at herr; cases herr; exact .inr (.inr (.inr (.inr rfl)))
  · rw [he] at herr; cases herr

/-- Under rule R7 the mask of step 5 is within the bound, so each kind is that of a check (rules R167, R250). -/
theorem verifyBlock_error {p : Params} (hp : p.Valid) {message em : Bytes} {e : ErrorKind}
    (h : verifyBlock p message em = .error e) : DecoderKind e := by
  by_cases htrailer : trailerOf p em = trailer
  · cases htop : topBitSet em with
    | true =>
      rw [(verifyBlock_of_topBitSet message htrailer htop).1] at h
      cases h
      exact .inr (.inr (.inl rfl))
    | false =>
      rw [(verifyBlock_of_topBit_clear message htrailer htop hp.dbSize_le_maskBound).1] at h
      split at h
      · exact verifyHash_error h
      · cases h; exact .inr (.inr (.inr (.inl rfl)))
  · rw [(verifyBlock_of_trailer message htrailer).1] at h
    cases h
    exact .inr (.inl rfl)

theorem verify_error {p : Params} (hp : p.Valid) {message e n signature : Bytes} {k : ErrorKind}
    (h : verify p message e n signature = .error k) : k = .messageOutOfRange ∨ DecoderKind k := by
  rcases rsaTransform_cases p signature e n with ⟨hle, -⟩ | ⟨-, hok⟩
  · rw [(verify_of_le p message e hle).1] at h; cases h; exact .inl rfl
  · rw [(verify_of_rsaTransform message hok).1] at h; exact .inr (verifyBlock_error hp h)

/-! ### The codes of the commands -/

/-- A command that ends with `ERR = 1` has the code of its function's kind (rules R29, R252). -/
theorem finish_err {r : Except ErrorKind Bytes} {s : State} (h : (finish r s).err = true) :
    ∃ k, r = .error k ∧ (finish r s).ecause = errorCode k := by
  rcases finish_cases r s with ⟨v, -, he⟩ | ⟨k, hk, he⟩
  · rw [he] at h; cases h
  · exact ⟨k, hk, by rw [he, endErr_ecause]⟩

section Kinds

variable {s : State} (hb : s.busy = false) (hl : s.level = .bigStep)
include hb hl

theorem exec_rsa_kinds : ∃ t, exec .rsa s = .next t ∧ (t.err = true → t.ecause = 0x01#8) := by
  refine ⟨_, exec_rsa_bigStep hb hl, fun herr => ?_⟩
  obtain ⟨k, hk, hcause⟩ := finish_err herr
  obtain rfl := rsaTransform_error hk
  exact hcause

theorem exec_mgf_kinds : ∃ t, exec .mgf s = .next t ∧ (t.err = true → t.ecause = 0x02#8 ∨ t.ecause = 0x04#8) := by
  refine ⟨_, exec_mgf_bigStep hb hl, ?_⟩
  split
  next => exact fun _ => .inl rfl
  next =>
    intro herr
    obtain ⟨k, hk, hcause⟩ := finish_err herr
    obtain rfl := mgf_error hk
    exact .inr hcause

theorem exec_sign_kinds : ∃ t, exec .sign s = .next t ∧ (t.err = true → t.ecause = 0x02#8 ∨ t.ecause = 0x01#8) := by
  refine ⟨_, exec_sign_bigStep hb hl, fun herr => ?_⟩
  obtain ⟨k, hk, hcause⟩ := finish_err herr
  rcases sign_error Config.params_valid hk with rfl | rfl
  · exact .inl hcause
  · exact .inr hcause

theorem exec_verify_kinds : ∃ t, exec .verify s = .next t ∧ (t.err = true → t.ecause = 0x01#8 ∨ t.ecause = 0x02#8 ∨
    t.ecause = 0x05#8 ∨ t.ecause = 0x06#8 ∨ t.ecause = 0x07#8 ∨ t.ecause = 0x08#8) := by
  refine ⟨_, exec_verify_bigStep hb hl, fun herr => ?_⟩
  obtain ⟨k, hk, hcause⟩ := finish_err herr
  have hverify : verify Config.params s.msg (opk Config.params s) (opn Config.params s) (opm Config.params s) =
      .error k := by
    cases hv : verify Config.params s.msg (opk Config.params s) (opn Config.params s) (opm Config.params s) with
    | ok => rw [hv] at hk; cases hk
    | error k' => rw [hv] at hk; cases hk; rfl
  change (verifyWhole Config.params s).ecause = errorCode k at hcause
  rw [hcause]
  rcases verify_error Config.params_valid hverify with rfl | rfl | rfl | rfl | rfl | rfl
  · exact .inl rfl
  · exact .inr (.inl rfl)
  · exact .inr (.inr (.inl rfl))
  · exact .inr (.inr (.inr (.inl rfl)))
  · exact .inr (.inr (.inr (.inr (.inl rfl))))
  · exact .inr (.inr (.inr (.inr (.inr rfl))))

end Kinds

/-- Settles O44: a command's code is that of the kind its function fails with. -/
theorem errorKindsPerCommand : Obligations.ErrorKindsPerCommand := by
  unfold Obligations.ErrorKindsPerCommand
  intro s hb hl
  exact ⟨⟨_, exec_clear_idle hb, rfl, rfl⟩, exec_rsa_kinds hb hl, exec_mgf_kinds hb hl, exec_sign_kinds hb hl,
    exec_verify_kinds hb hl⟩

/-! ### What `ERRCODE` shows (rules R29, R254) -/

theorem statusByte_of_endedErr {op c : Byte} {t : State} (h : EndedErr op c t) : statusByte t = 0x06#8 := by
  obtain ⟨-, -, -, hb, hd, he, -⟩ := h
  rw [statusByte_of_flags hb hd he]
  rfl

theorem statusByte_of_endedOk {op : Byte} {v : Bytes} {t : State} (h : EndedOk op v t) : statusByte t = 0x02#8 := by
  obtain ⟨-, -, -, hb, hd, he, -⟩ := h
  rw [statusByte_of_flags hb hd he]
  rfl

theorem mgfWhole_curCmd (p : Params) (s : State) : (mgfWhole p s).curCmd = 0x02#8 := by
  unfold mgfWhole
  split
  · rfl
  · rw [finish_curCmd]; rfl

/-- Settles O17: after VERIFY the filter of `ERRCODE` applies to every rejection; every other command and every illegal
byte leaves a latch the filter does not look at. -/
theorem rejectionCauseIsHidden : Obligations.RejectionCauseIsHidden := by
  unfold Obligations.RejectionCauseIsHidden
  intro p s hb hl
  rw [verifyCommand_bigStep p hb hl, errcode_verifyWhole]
  refine ⟨fun k hk => ?_, fun hok => ?_, ?_, ?_, ?_, fun op hop => ?_⟩
  · have hend := endedErr_verifyWhole hk
    refine ⟨statusByte_of_endedErr hend, ?_⟩
    obtain ⟨-, -, hcause, -, -, herr, -⟩ := hend
    exact ⟨fun hdiag => if_pos ⟨herr, hdiag⟩, fun hdiag => (if_neg (by simp [hdiag])).trans hcause⟩
  · have hend := endedOk_verifyWhole hok
    refine ⟨statusByte_of_endedOk hend, ?_⟩
    obtain ⟨-, -, hcause, -, -, herr, -⟩ := hend
    rw [if_neg (by simp [herr]), hcause]
  · refine errcode_of_curCmd_ne_verify p ?_
    rw [rsaCommand, command_bigStep hb hl, rsaWhole, finish_curCmd, beginCommand_curCmd]
    decide
  · refine errcode_of_curCmd_ne_verify p ?_
    rw [mgfCommand, command_bigStep hb hl, mgfWhole_curCmd]
    decide
  · refine errcode_of_curCmd_ne_verify p ?_
    rw [signCommand_bigStep p hb hl, finish_curCmd, record_curCmd, beginCommand_curCmd]
    decide
  · have hne : op ≠ 0x04#8 := by rintro rfl; exact absurd hop (by decide)
    rw [illegalCommand_idle op hb]
    exact errcode_of_curCmd_ne_verify p hne

/-! ### The power (rule R143) -/

/-- Settles O20: the loop's value and its bound; a modulus 0 has nothing below it. -/
theorem modexpIsPowerModN : Obligations.ModexpIsPowerModN := by
  unfold Obligations.ModexpIsPowerModN
  refine ⟨fun p M E N hM hE => ⟨modexp_eq_pow_mod p M N hE, modexp_lt p (by omega) M E⟩, fun p m k n hn => ?_⟩
  exact rsaTransform_of_le p k (by omega)

/-! ### The commands in the reset state (rule R273) -/

/-- After reset the modulus is 0, so no message is below it. -/
theorem beInt_opn_reset (p : Params) (m : Bytes) : beInt (opn p State.reset) ≤ beInt m := by
  have hzero : opn p State.reset = zeros p.kLen := window_nil p opnBase
  rw [hzero, beInt_zeros]
  exact Nat.zero_le _

/-- Settles O48: the three that use the modulus fail on it, SIGN after its calls; the mask of length 0 is empty; CLEAR writes
reset values. -/
theorem commandsFromReset : Obligations.CommandsFromReset := by
  unfold Obligations.CommandsFromReset
  intro P
  have hp : P.Valid := Config.params_valid
  have hmsg : State.reset.msg.length ≤ P.hashMaxLen := Nat.zero_le _
  refine ⟨⟨_, exec_rsa_bigStep rfl rfl, ?_⟩, ⟨_, exec_verify_bigStep rfl rfl, ?_⟩, ⟨_, exec_sign_bigStep rfl rfl, ?_⟩,
    ⟨_, exec_mgf_maskLen_zero rfl rfl ?_ rfl, endedOk_endOk_record_beginCommand .., rfl⟩, exec_clear_idle rfl⟩
  · rw [rsaTransform_of_le _ _ (beInt_opn_reset ..), finish_error]
    exact ⟨endedErr_endErr_beginCommand .messageOutOfRange .., rfl⟩
  · obtain ⟨hverify, hcalls⟩ := verify_of_le P State.reset.msg (opk P State.reset) (beInt_opn_reset P (opm P State.reset))
    exact ⟨endedErr_verifyWhole hverify, by rw [verifyWhole_trace, hcalls]; rfl⟩
  · rw [sign_of_le _ hp _ _ hmsg, signCalls_of_le _ hp hmsg, rsaTransform_of_le _ _ (beInt_opn_reset ..), finish_error]
    refine ⟨endedErr_endErr_record_beginCommand .messageOutOfRange .., ?_, rfl⟩
    simp only [endErr_trace, record_trace, beginCommand_trace, List.length_append, List.length_cons, List.length_nil,
      List.length_map, List.length_range, State.reset, mgfCount]
    omega
  · have hge := hp.hash_ge
    exact (by omega : 0 + 4 ≤ P.hashMaxLen)

end Sys2Proof.Machine
end

section
/-! SUPPORT. The port calls of a step are in their ports' domains (rules R72 to R74): those a command makes at the big-step
level, and the one a phase presents. -/

namespace Sys2Proof.Machine

/-! ### Calls in their domains -/

def CallsInDomain (p : Params) (cs : List PortCall) : Prop := ∀ c ∈ cs, c.inDomain p

theorem callsInDomain_nil (p : Params) : CallsInDomain p [] := nofun

theorem CallsInDomain.append {p : Params} {cs ds : List PortCall} (hcs : CallsInDomain p cs)
    (hds : CallsInDomain p ds) : CallsInDomain p (cs ++ ds) :=
  List.forall_mem_append.2 ⟨hcs, hds⟩

theorem CallsInDomain.cons {p : Params} {c : PortCall} {cs : List PortCall} (hc : c.inDomain p)
    (hcs : CallsInDomain p cs) : CallsInDomain p (c :: cs) :=
  List.forall_mem_cons.2 ⟨hc, hcs⟩

/-- A seed with room for the counter keeps every call of MGF1 in the domain (rule R160). -/
theorem callsInDomain_mgfCalls {p : Params} {seed : Bytes} (hseed : seed.length + 4 ≤ p.hashMaxLen) (L : Nat) :
    CallsInDomain p (mgfCalls p seed L) := by
  unfold mgfCalls
  split
  · exact callsInDomain_nil p
  · intro c hc
    obtain ⟨j, -, rfl⟩ := List.mem_map.1 hc
    simpa [PortCall.inDomain, mgfInput, be32] using hseed

/-- A digest and a salt of at most `hLen` bytes make an `M'` of the domain (rules R7, R109). -/
theorem mPrime_inDomain {p : Params} (hp : p.Valid) (message : Bytes) {salt : Bytes} (hsalt : salt.length ≤ p.hLen) :
    (PortCall.hash (mPrime (p.hash message) salt)).inDomain p := by
  have hge := hp.hash_ge
  simp only [PortCall.inDomain, mPrime_length, hash_length]
  omega

theorem callsInDomain_signCalls {p : Params} (hp : p.Valid) (message : Bytes) {salt : Bytes}
    (hsalt : salt.length ≤ p.hLen) : CallsInDomain p (signCalls p message salt) := by
  unfold signCalls
  split
  next => exact callsInDomain_nil p
  next hshort =>
    have hmsg : (PortCall.hash message).inDomain p := Nat.le_of_not_lt hshort
    have hrng : (PortCall.rng p.hLen).inDomain p := hp.hLen_pos
    obtain ⟨hseed, -⟩ := seed_and_mask_fit hp (hash_length p (mPrime (p.hash message) salt))
    exact (.cons hmsg (.cons hrng (.cons (mPrime_inDomain hp message hsalt) (callsInDomain_nil p)))
      : CallsInDomain p _).append (callsInDomain_mgfCalls hseed _)

theorem callsInDomain_verifyHashCalls {p : Params} (hp : p.Valid) (message : Bytes) {salt : Bytes}
    (hsalt : salt.length ≤ p.hLen) : CallsInDomain p (verifyHashCalls p message salt) := by
  unfold verifyHashCalls
  split
  next => exact callsInDomain_nil p
  next hshort =>
    exact .cons (Nat.le_of_not_lt hshort) (.cons (mPrime_inDomain hp message hsalt) (callsInDomain_nil p))

/-- The mask's calls are in the domain because the `H` of the block has `hLen` bytes; the salt has at most as many. -/
theorem callsInDomain_blockCalls {p : Params} (hp : p.Valid) (message : Bytes) {em : Bytes} (hem : em.length = p.kLen) :
    CallsInDomain p (blockCalls p message em) := by
  by_cases htrailer : trailerOf p em = trailer
  · cases htop : topBitSet em with
    | true =>
      rw [(verifyBlock_of_topBitSet message htrailer htop).2]
      exact callsInDomain_nil p
    | false =>
      obtain ⟨hseed, -⟩ := seed_and_mask_fit hp (hashOf_length hp hem)
      rw [(verifyBlock_of_topBit_clear message htrailer htop hp.dbSize_le_maskBound).2]
      refine (callsInDomain_mgfCalls hseed _).append ?_
      split
      · exact callsInDomain_verifyHashCalls hp message (List.length_take_le ..)
      · exact callsInDomain_nil p
  · rw [(verifyBlock_of_trailer message htrailer).2]
    exact callsInDomain_nil p

theorem callsInDomain_verifyCalls {p : Params} (hp : p.Valid) (message e n signature : Bytes) :
    CallsInDomain p (verifyCalls p message e n signature) := by
  cases hem : rsaTransform p signature e n with
  | error k =>
    rw [verifyCalls, hem]
    exact callsInDomain_nil p
  | ok em =>
    rw [(verify_of_rsaTransform message hem).2]
    exact callsInDomain_blockCalls hp message (rsaTransform_ok_length hem)

/-! ### The trace over a step -/

/-- From `s` to `t` the trace has grown by calls in their domains. -/
def TraceGrows (p : Params) (s t : State) : Prop := ∃ cs, t.trace = s.trace ++ cs ∧ CallsInDomain p cs

theorem TraceGrows.of_eq {p : Params} {s t : State} (h : t.trace = s.trace) : TraceGrows p s t :=
  ⟨[], by rw [h, List.append_nil], callsInDomain_nil p⟩

/-- What a phase does to the trace: nothing, or it presents its one call (rule R34). -/
theorem phaseStep_trace_cases (p : Params) (s : State) :
    (phaseStep p s).trace = s.trace ∨ ∃ c, phaseStep p s = ask c s := by
  unfold phaseStep
  split
  case h_3 => left; unfold rangePhase; split <;> rfl
  case h_4 => left; unfold expPhase; split <;> rfl
  case h_5 => left; unfold exportPhase; dsimp only; split <;> rfl
  case h_6 => left; unfold boundPhase; split <;> rfl
  case h_7 =>
    unfold loopPhase
    split
    · exact .inl rfl
    · exact .inr ⟨_, rfl⟩
  case h_8 => left; unfold truncPhase; dsimp only; split; rfl; split <;> rfl
  case h_9 => left; unfold lenPhase; split <;> rfl
  case h_10 => exact .inr ⟨_, rfl⟩
  case h_11 => exact .inr ⟨_, rfl⟩
  case h_12 => exact .inr ⟨_, rfl⟩
  case h_16 => left; unfold sizePhase; split <;> rfl
  case h_21 => left; unfold trailerPhase; split <;> rfl
  case h_22 => left; unfold leadbitPhase; split <;> rfl
  case h_26 => left; unfold padPhase; split <;> rfl
  case h_28 => left; unfold guardPhase; split <;> rfl
  case h_29 => exact .inr ⟨_, rfl⟩
  case h_30 => exact .inr ⟨_, rfl⟩
  case h_31 => left; unfold cmpPhase; split <;> rfl
  all_goals exact .inl rfl

section Grows

variable {p : Params} {s : State} (hp : p.Valid) (h : Inv p s)
include hp h

/-- The call a phase presents is then in flight, where the invariant has it in its domain. -/
theorem traceGrows_phaseStep (hpend : s.pend = none) : TraceGrows p s (phaseStep p s) := by
  rcases phaseStep_trace_cases p s with he | ⟨c, he⟩
  · exact .of_eq he
  · have hask : Inv p (ask c s) := he ▸ inv_phaseStep h hpend hp
    obtain ⟨-, -, hdom⟩ := hask.pending c rfl
    rw [he]
    exact ⟨[c], rfl, .cons hdom (callsInDomain_nil p)⟩

theorem traceGrows_sequencerMove : TraceGrows p s (sequencerMove p s) := by
  unfold sequencerMove
  split
  next => exact .of_eq rfl
  next hpend => exact traceGrows_phaseStep hp h hpend

omit hp h in
theorem traceGrows_answerMove (p : Params) (s : State) : TraceGrows p s (answerMove p s) := by
  unfold answerMove
  split
  · exact .of_eq rfl
  · exact .of_eq (completePhase_trace ..)

theorem traceGrows_dueMove : TraceGrows p s (dueMove p s) := by
  unfold dueMove
  split
  · exact traceGrows_answerMove p s
  · exact traceGrows_sequencerMove hp h

end Grows

/-- A command makes its calls at once where it runs whole; its start makes none. -/
theorem traceGrows_command {p : Params} {whole start : State → State} {s : State} (hwhole : TraceGrows p s (whole s))
    (hstart : (start s).trace = s.trace) : TraceGrows p s (command whole start s) := by
  rcases command_cases whole start s with ⟨-, he⟩ | ⟨-, -, he⟩ | ⟨-, -, he⟩
  · rw [he]; exact .of_eq rfl
  · rw [he]; exact hwhole
  · rw [he]; exact .of_eq hstart

theorem traceGrows_finish {p : Params} {calls : List PortCall} (hcalls : CallsInDomain p calls)
    (r : Except ErrorKind Bytes) (op : Byte) (s : State) :
    TraceGrows p s (finish r (record calls (beginCommand op s))) :=
  ⟨calls, finish_trace .., hcalls⟩

theorem traceGrows_mgfCommand (p : Params) (s : State) : TraceGrows p s (mgfCommand p s) := by
  refine traceGrows_command ?_ ?_
  · unfold mgfWhole
    split
    next => exact .of_eq rfl
    next hseed =>
      have hle : s.msg.length + 4 ≤ p.hashMaxLen := Nat.le_of_not_lt (by simpa [seedTooLong] using hseed)
      exact traceGrows_finish (callsInDomain_mgfCalls hle _) ..
  · unfold mgfStart
    split <;> rfl

theorem traceGrows_exec {i : Instr} {s t : State} (h : exec i s = .next t) : TraceGrows Config.params s t := by
  have hp := Config.params_valid
  rw [exec_next] at h
  obtain rfl := Host.Outcome.next.inj h
  cases i with
  | clear =>
    dsimp only [clearCommand]
    split <;> exact .of_eq rfl
  | rsa => exact traceGrows_command (.of_eq (finish_trace ..)) rfl
  | mgf => exact traceGrows_mgfCommand ..
  | sign => exact traceGrows_command (traceGrows_finish (callsInDomain_signCalls hp _ (draw_length ..).le) ..) rfl
  | verify => exact traceGrows_command (traceGrows_finish (callsInDomain_verifyCalls hp _ _ _ _) ..) rfl

theorem writeByte_trace (v : Byte) (s : State) (l : Loc) : (writeByte v s l).trace = s.trace := by
  rcases writeByte_cases v s l with ⟨a, -, he⟩ | ⟨msg, maskLen, he, -⟩
  · rw [he, setOperandByte_trace]
  · rw [he]

theorem illegalCommand_trace (op : Byte) (s : State) : (illegalCommand op s).trace = s.trace := by
  unfold illegalCommand
  split <;> rfl

theorem traceGrows_hostWrite {a : Addr} {v : Byte} {s t : State} (h : hostWrite a v s = .next t) :
    TraceGrows Config.params s t := by
  rcases hostWrite_cases a v s with ⟨-, he⟩ | ⟨-, he⟩
  · rcases writeCmd_cases v s with ⟨i, -, hc⟩ | ⟨-, hc⟩
    · exact traceGrows_exec (hc.symm.trans (he.symm.trans h))
    · rw [he, hc] at h
      cases h
      exact .of_eq (illegalCommand_trace v s)
  · rw [he, gatedWrite] at h
    cases h
    split
    · exact .of_eq rfl
    · exact .of_eq (writeByte_trace ..)

theorem traceGrows_move {e : Event} {s t : State} (hinv : Inv Config.params s) (h : move e s = .next t) :
    TraceGrows Config.params s t := by
  cases e with
  | hostWrite a v => exact traceGrows_hostWrite h
  | hostRead a => cases h; exact .of_eq (by unfold hostRead readEffect; split <;> rfl)
  | hostWait => cases h; exact .of_eq (by unfold hostWait; dsimp only; split <;> rfl)
  | sequencer => cases h; exact traceGrows_sequencerMove Config.params_valid hinv
  | answer => cases h; exact traceGrows_answerMove ..
  | reset => cases h; exact .of_eq rfl

/-- Settles O45, move by move: a phase's call is in flight after the step, so the invariant speaks of it; a command's calls
at the big-step level by the sizes of their inputs. -/
theorem portCallsStayInDomain : Obligations.PortCallsStayInDomain := by
  unfold Obligations.PortCallsStayInDomain
  intro s t h hstep
  rcases step_cases s with ⟨-, hdue⟩ | ⟨e, rest, -, hmove⟩
  · rw [hdue] at hstep
    cases hstep
    exact traceGrows_dueMove Config.params_valid h
  · exact traceGrows_move (s := { s with agenda := rest }) (h.observed rest s.reads) (hmove.symm.trans hstep)

end Sys2Proof.Machine
end

section
/-! SUPPORT. SIGN and VERIFY one after the other: the round trip of rule R234, and why rule R229 excludes `PS_LEN = 0`. -/

namespace Sys2Proof.Machine

/-! ### Undoing the mask (rules R186, R189, R215) -/

theorem clearTopBit_take (x : Bytes) (k : Nat) : (clearTopBit x).take k = clearTopBit (x.take k) := by
  cases x with
  | nil => simp [clearTopBit]
  | cons b x => cases k <;> rfl

theorem xorBytes_xorBytes_cancel {x m : Bytes} (h : x.length = m.length) : xorBytes (xorBytes x m) m = x := by
  induction x generalizing m with
  | nil => rfl
  | cons a x ih =>
    cases m with
    | nil => cases h
    | cons b m =>
      have hrest : xorBytes (xorBytes x m) m = x := ih (Nat.succ.inj h)
      have hbyte : a ^^^ b ^^^ b = a := by rw [BitVec.xor_assoc, BitVec.xor_self, BitVec.xor_zero]
      exact congrArg₂ List.cons hbyte hrest

/-- The byte whose top bit SIGN cleared is forced by VERIFY, so the clearing is not seen. -/
theorem unmask_clearTopBit (x m : Bytes) : unmask (clearTopBit x) m = unmask x m := by
  cases x with
  | nil => rfl
  | cons b x => exact unmask_cons _ b x m

/-- A data block with a padding byte already has the first byte VERIFY forces. -/
theorem forceFirst_dataBlock {p : Params} (hp : p.Valid) (salt : Bytes) :
    forceFirst (dataBlock p salt) = dataBlock p salt := by
  obtain ⟨j, hj⟩ := Nat.exists_eq_add_of_le' hp.psLen_pos
  rw [dataBlock, hj]
  rfl

theorem paddingOk_dataBlock (p : Params) (salt : Bytes) : paddingOk p (dataBlock p salt) = true := by
  have hpad : (dataBlock p salt).take p.psLen = zeros p.psLen := by
    rw [dataBlock, List.append_assoc, List.take_left' (zeros_length _)]
  have hsep : (dataBlock p salt).getD p.psLen 0x00#8 = 0x01#8 := by
    rw [dataBlock, List.append_assoc, List.getD_append_right _ _ _ _ (zeros_length _).le, zeros_length, Nat.sub_self]
    rfl
  rw [paddingOk, hpad, hsep]
  simp [zeros]

theorem saltOf_dataBlock {p : Params} (hp : p.Valid) {salt : Bytes} (hsalt : salt.length = p.hLen) :
    saltOf p (dataBlock p salt) = salt := by
  have hps := hp.psLen_eq
  have hlen : (zeros p.psLen ++ [0x01#8]).length = p.dbSize - p.hLen := by
    rw [List.length_append, zeros_length, List.length_singleton]
    omega
  rw [saltOf, dataBlock, List.drop_left' hlen, List.take_of_length_le hsalt.le]

/-! ### What VERIFY recovers from the block SIGN made -/

section Message

variable {p : Params} (hp : p.Valid) (message : Bytes) {salt : Bytes} (hsalt : salt.length = p.hLen)
include hp hsalt

theorem messageBlock_length : (messageBlock p message salt).length = p.kLen :=
  signedBlock_length hp hsalt (signMask_length hp message salt) (hash_length ..)

theorem hashOf_messageBlock : hashOf p (messageBlock p message salt) = saltedHash p message salt :=
  hashOf_signedBlock hp hsalt (signMask_length hp message salt) (hash_length ..)

theorem recoveredDb_messageBlock : recoveredDb p (messageBlock p message salt) = dataBlock p salt := by
  have hmaskLen := signMask_length hp message salt
  have hmask : verifyMask p (messageBlock p message salt) = signMask p message salt := by
    rw [verifyMask, hashOf_messageBlock hp message hsalt, signMask]
  have hmasked : maskedDbOf p (messageBlock p message salt) =
      clearTopBit (xorBytes (dataBlock p salt) (signMask p message salt)) := by
    rw [maskedDbOf, messageBlock, signedBlock, clearTopBit_take, encodedMessage, List.append_assoc,
      List.take_left' (maskedDb_length hp hsalt hmaskLen)]
  rw [recoveredDb, hmask, hmasked, unmask_clearTopBit, unmask,
    xorBytes_xorBytes_cancel ((dataBlock_length_eq_dbSize hp hsalt).trans hmaskLen.symm), forceFirst_dataBlock hp]

/-- The decoder accepts the block of its own message (rule R234). -/
theorem verifyBlock_messageBlock (hmsg : message.length ≤ p.hashMaxLen) :
    verifyBlock p message (messageBlock p message salt) = .ok () := by
  have hlen := messageBlock_length hp message hsalt
  have htrailer : trailerOf p (messageBlock p message salt) = trailer :=
    trailerOf_signedBlock hp hsalt (signMask_length hp message salt) (hash_length ..)
  have htop : topBitSet (messageBlock p message salt) = false :=
    (topBitSet_eq_getLsbD _).trans (clearTopBit_getLsbD_seven _)
  have hdb := recoveredDb_messageBlock hp message hsalt
  have hpad : paddingOk p (recoveredDb p (messageBlock p message salt)) = true := hdb ▸ paddingOk_dataBlock p salt
  have hback : recoveredSalt p (messageBlock p message salt) = salt := by
    rw [recoveredSalt, hdb, saltOf_dataBlock hp hsalt]
  obtain ⟨hverdict, -⟩ := verifyBlock_of_message_le message htrailer htop hp.dbSize_le_maskBound hpad hmsg
    (hashOf_length hp hlen)
  rw [hverdict, hback, hashOf_messageBlock hp message hsalt, if_pos rfl]

/-- Under a valid key the signature verifies (rule R234). -/
theorem exists_sign_and_verify {e d n : Bytes} (hkey : ValidKey p e d n) (hmsg : message.length ≤ p.hashMaxLen) :
    ∃ sig, sign p message d n salt = .ok sig ∧ verify p message e n sig = .ok () := by
  have hsmall : beInt (messageBlock p message salt) < 2 ^ (p.K - 1) :=
    beInt_signedBlock_lt hp hsalt (signMask_length hp message salt) (hash_length ..)
  have hlt := hsmall.trans_le hkey.two_pow_le
  have hpow := hkey.pow_mul_modEq (beInt (messageBlock p message salt))
  obtain ⟨he, hd, hn, -⟩ := hkey
  obtain ⟨sig, hsig, hback⟩ := rsaTransform_inverts hp hd he hn (messageBlock_length hp message hsalt) hlt
    (by rwa [mul_comm])
  exact ⟨sig, (sign_of_le salt hp d n hmsg).trans hsig,
    (verify_of_rsaTransform message hback).1.trans (verifyBlock_messageBlock hp message hsalt hmsg)⟩

end Message

/-- Settles O43: the block is recovered from its signature, the mask and the forced byte undo step 6 and step 9, and the
recomputed hash is the one SIGN made. -/
theorem signThenVerifyAccepts : Obligations.SignThenVerifyAccepts := by
  unfold Obligations.SignThenVerifyAccepts
  intro p s u e hc hsb hsl hub hul hmsg hkey humsg huk hun hum
  have hp := Params.valid_of_constructible hc
  obtain ⟨sig, hsign, hverify⟩ := exists_sign_and_verify hp s.msg (draw_length p (draws s) p.hLen) hkey hmsg
  have hend : signCommand p s = endOk sig (record (signCalls p s.msg (nextSalt p s)) (beginCommand 0x03#8 s)) := by
    rw [signCommand_bigStep p hsb hsl, nextSalt, hsign, finish_ok]
  refine ⟨by rw [hend, statusByte_endOk], ?_⟩
  rw [hend, endOk_out] at hum
  rw [verifyCommand_bigStep p hub hul]
  exact statusByte_of_endedOk (endedOk_verifyWhole (by rw [humsg, huk, hun, hum]; exact hverify))

/-! ### Without a padding byte (rule R229) -/

/-- Where the separator would stand VERIFY forces 0x00. -/
theorem paddingOk_unmask_of_psLen_zero {p : Params} (h : p.psLen = 0) (x m : Bytes) :
    paddingOk p (unmask x m) = false := by
  have hzero : (unmask x m).getD p.psLen 0x00#8 = 0x00#8 := by
    rw [h, unmask]
    cases xorBytes x m <;> rfl
  rw [paddingOk_eq_false_iff, hzero]
  exact .inl (by decide)

theorem verifyBlock_ne_ok_of_psLen_zero {p : Params} (h : p.psLen = 0) (message em : Bytes) :
    verifyBlock p message em ≠ .ok () := by
  unfold verifyBlock
  split
  · nofun
  · split
    · nofun
    · split
      · nofun
      · rw [if_neg (by rw [paddingOk_unmask_of_psLen_zero h]; decide)]
        nofun

theorem verify_ne_ok_of_psLen_zero {p : Params} (h : p.psLen = 0) (message e n signature : Bytes) :
    verify p message e n signature ≠ .ok () := by
  unfold verify
  split
  · nofun
  · exact verifyBlock_ne_ok_of_psLen_zero h _ _

/-- A signature, on any sizes, is the kernel's result on the block of some mask (rules R181 to R190). -/
theorem sign_ok_block {p : Params} {message d n salt sig : Bytes} (h : sign p message d n salt = .ok sig) :
    ∃ dbMask, mgf p (saltedHash p message salt) p.dbSize = .ok dbMask ∧
      rsaTransform p (signedBlock p salt dbMask (saltedHash p message salt)) d n = .ok sig := by
  unfold sign at h
  split at h
  · cases h
  · dsimp only at h
    split at h
    · cases h
    · split at h
      · cases h
      · exact ⟨_, ‹_›, h⟩

section Sizes

variable {p : Params} (hK : p.K = 8 * p.kLen)
include hK

theorem beInt_lt_two_pow_K_of_K_eq {x : Bytes} (hx : x.length = p.kLen) : beInt x < 2 ^ p.K := by
  have hpow : 2 ^ p.K = 256 ^ p.kLen := by rw [hK, pow_mul]; norm_num
  rw [hpow, ← hx]
  exact beInt_lt x

/-- Under a valid key a signed block comes back, on every size that is a multiple of 8 (rule R151). -/
theorem rsaTransform_undo_of_K_eq {e d n x sig : Bytes} (hkey : ValidKey p e d n) (hx : x.length = p.kLen)
    (h : rsaTransform p x d n = .ok sig) : rsaTransform p sig e n = .ok x := by
  have hpow := hkey.pow_mul_modEq (beInt x)
  obtain ⟨he, hd, hn, -⟩ := hkey
  rcases rsaTransform_cases p x d n with ⟨-, hbad⟩ | ⟨hlt, hok⟩
  · rw [hbad] at h
    cases h
  · rw [hok, modexp_eq_pow_mod p _ _ (beInt_lt_two_pow_K_of_K_eq hK hd)] at h
    cases h
    have hmod : beInt x ^ beInt d % beInt n < beInt n := Nat.mod_lt _ (by omega)
    have himport : beInt (beBytes (beInt x ^ beInt d % beInt n) p.kLen) = beInt x ^ beInt d % beInt n := by
      refine beInt_beBytes (hmod.trans ?_)
      rw [← hn]
      exact beInt_lt n
    have hback : (beInt x ^ beInt d % beInt n) ^ beInt e % beInt n = beInt x := by
      rw [← Nat.pow_mod, ← pow_mul, mul_comm, hpow, Nat.mod_eq_of_lt hlt]
    rw [rsaTransform, if_neg (by omega), modexp_eq_pow_mod p _ _ (beInt_lt_two_pow_K_of_K_eq hK he), himport, hback,
      ← hx, beBytes_beInt]

end Sizes

/-- The trailer of a block of `kLen` bytes (rule R107). -/
theorem trailerOf_clearTopBit_encodedMessage {p : Params} {m h : Bytes} (hlen : m.length + h.length + 1 = p.kLen)
    (hpos : 1 ≤ h.length) : trailerOf p (clearTopBit (encodedMessage m h)) = trailer := by
  have hlast : p.kLen - 1 = (m ++ h).length := by rw [List.length_append]; omega
  rw [trailerOf, hlast, clearTopBit_getD_of_pos _ (by rw [List.length_append]; omega), encodedMessage,
    List.getD_append_right _ _ _ _ (le_refl _), Nat.sub_self]
  rfl

/-- A signature made without a padding byte passes the trailer and the top bit, and then fails the padding check. -/
theorem verify_sign_of_psLen_zero {p : Params} (hK : p.K = 8 * p.kLen) (hpos : 1 ≤ p.hLen)
    (hsize : p.kLen = 2 * p.hLen + 2) {message e d n salt sig : Bytes} (hkey : ValidKey p e d n)
    (hsalt : salt.length = p.hLen) (h : sign p message d n salt = .ok sig) :
    verify p message e n sig = .error .invalidPadding := by
  have hdb : p.dbSize = p.hLen + 1 := by unfold Params.dbSize; omega
  have hps : p.psLen = 0 := by unfold Params.psLen; omega
  have hbound : p.dbSize ≤ p.maskBound := by unfold Params.maskBound; omega
  obtain ⟨dbMask, hmask, hsig⟩ := sign_ok_block h
  have hhash : (saltedHash p message salt).length = p.hLen := hash_length ..
  have hmasked : (xorBytes (dataBlock p salt) dbMask).length = p.dbSize := by
    rw [xorBytes_length, dataBlock_length, mgf_ok_length hpos hmask]
    omega
  have hlen : (signedBlock p salt dbMask (saltedHash p message salt)).length = p.kLen := by
    rw [signedBlock, clearTopBit_length, encodedMessage_length]
    omega
  have htrailer : trailerOf p (signedBlock p salt dbMask (saltedHash p message salt)) = trailer :=
    trailerOf_clearTopBit_encodedMessage (by omega) (by omega)
  have htop : topBitSet (signedBlock p salt dbMask (saltedHash p message salt)) = false :=
    (topBitSet_eq_getLsbD _).trans (clearTopBit_getLsbD_seven _)
  rw [(verify_of_rsaTransform message (rsaTransform_undo_of_K_eq hK hkey hlen hsig)).1]
  exact (verifyBlock_of_padding message htrailer htop hbound (paddingOk_unmask_of_psLen_zero hps _ _)).1

/-- Settles O42: with `PS_LEN = 0` the padding check asks for 0x01 in the byte that is forced to 0x00. -/
theorem noPaddingByteNoAccept : Obligations.NoPaddingByteNoAccept := by
  unfold Obligations.NoPaddingByteNoAccept
  intro p message e d n hK hpos hsize _
  have hps : p.psLen = 0 := by unfold Params.psLen Params.dbSize; omega
  exact ⟨fun s => verify_ne_ok_of_psLen_zero hps message e n s,
    fun s salt hkey hsalt => verify_sign_of_psLen_zero hK hpos hsize hkey hsalt⟩

end Sys2Proof.Machine
end

section
/-! SUPPORT. Runs with nothing scheduled: each step is the due move (rule R285), and what is left to do goes down with each,
so every command ends. -/

namespace Sys2Proof.Machine

/-! ### Runs as iterated due moves -/

theorem dueMove_agenda (p : Params) (s : State) : (dueMove p s).agenda = s.agenda := by
  obtain ⟨-, -, -, -, hagenda, -⟩ := dueMove_kept p s
  exact hagenda

/-- With nothing scheduled a run is so many due moves. -/
theorem run_of_agenda_nil {s : State} (h : s.agenda = []) (n : Nat) :
    Sys2Proof.core.run n s = .next ((dueMove Config.params)^[n] s) := by
  induction n generalizing s with
  | zero => rfl
  | succ n ih =>
    rw [run_succ (step_nil h), Function.iterate_succ_apply]
    exact ih ((dueMove_agenda ..).trans h)

/-- A due move starts no command. -/
theorem busy_of_dueMove_busy {p : Params} {s : State} (h : (dueMove p s).busy = true) : s.busy = true := by
  obtain ⟨-, -, -, -, -, -, -, ⟨hbusy, -⟩ | ⟨hidle, -⟩⟩ := dueMove_kept p s
  · exact hbusy ▸ h
  · rw [hidle] at h
    cases h

/-- A due move that ends a command ends it with `DONE`. -/
theorem done_of_dueMove_idle {p : Params} {s : State} (hb : s.busy = true) (h : (dueMove p s).busy = false) :
    (dueMove p s).done = true := by
  obtain ⟨-, -, -, -, -, -, -, ⟨hbusy, -⟩ | ⟨-, hdone⟩⟩ := dueMove_kept p s
  · rw [hbusy, hb] at h
    cases h
  · exact hdone

/-! ### What is left to do -/

/-- How far a phase is from the end of its command: VERIFY runs the kernel before MGF1, SIGN after it. -/
def phaseRank (underVerify : Bool) : Phase → Nat
  | .idle => 0
  | .r3Export => if underVerify then 31 else 1
  | .r2Exp => if underVerify then 32 else 2
  | .r1Range => if underVerify then 33 else 3
  | .r0Import => if underVerify then 34 else 4
  | .m2Trunc => 10
  | .m1Loop => 11
  | .m0Bound => 12
  | .s10Rsa => 5
  | .s9Topbit => 6
  | .s8Em => 7
  | .s7Size => 8
  | .s6Xor => 9
  | .s6Mask => 13
  | .s5Db => 14
  | .s4H => 15
  | .s3Salt => 16
  | .s2Mhash => 17
  | .s1Len => 18
  | .v10Accept => 1
  | .v9Cmp => 2
  | .v8H2 => 3
  | .v8Mhash => 4
  | .v8Len => 5
  | .v7Salt => 6
  | .v6Pad => 7
  | .v5Xor => 8
  | .v5Mask => 13
  | .v4Split => 14
  | .v3Leadbit => 15
  | .v2Trailer => 16
  | .v1Rsa => 35

/-- What a loop has left: exponent bits, or mask bytes. -/
def loopLeft (s : State) : Nat :=
  match s.phase with
  | .r2Exp => s.work.rsaI
  | .m1Loop => s.work.mgfLen - s.work.mgfAcc.length
  | _ => 0

/-- What a running command has left to do: its phases, then the rounds of a loop, then the call of a round. -/
def remaining (s : State) : ℕ ×ₗ ℕ :=
  toLex (phaseRank (s.curCmd == 0x04#8) s.phase, 2 * loopLeft s + if s.pend.isSome then 0 else 1)

/-- The command has ended in `t`, or has less left to do than in `s`. -/
def Progress (s t : State) : Prop := t.busy = false ∨ remaining t < remaining s

section Progress

variable {s t u : State} {ph ph' : Phase}

theorem Progress.of_phaseRank (hph : s.phase = ph) (hcmd : t.curCmd = s.curCmd) (hph' : t.phase = ph')
    (h : phaseRank (s.curCmd == 0x04#8) ph' < phaseRank (s.curCmd == 0x04#8) ph) : Progress s t := by
  refine .inr (Prod.Lex.toLex_lt_toLex.2 (.inl ?_))
  rwa [hcmd, hph', hph]

/-- The next phase is nearer the end, whichever command runs. -/
theorem Progress.goesTo (hph : s.phase = ph) (hcmd : t.curCmd = s.curCmd) (hph' : t.phase = ph')
    (h : ∀ v, phaseRank v ph' < phaseRank v ph := by decide) : Progress s t :=
  .of_phaseRank hph hcmd hph' (h _)

theorem Progress.of_loop (hcmd : t.curCmd = s.curCmd) (hph : t.phase = s.phase) (h : loopLeft t < loopLeft s) :
    Progress s t := by
  refine .inr (Prod.Lex.toLex_lt_toLex.2 (.inr ⟨by rw [hcmd, hph], ?_⟩))
  split <;> split <;> omega

/-- A call presented is a call less to present. -/
theorem progress_ask (hpend : s.pend = none) (c : PortCall) : Progress s (ask c s) := by
  have hsame : loopLeft (ask c s) = loopLeft s := rfl
  refine .inr (Prod.Lex.toLex_lt_toLex.2 (.inr ⟨rfl, ?_⟩))
  simp [hsame, hpend]

theorem Progress.ite {c : Prop} [Decidable c] (ht : Progress s t) (hu : Progress s u) :
    Progress s (if c then t else u) := by
  split
  · exact ht
  · exact hu

/-! ### Every due move of a busy block makes progress -/

theorem progress_expPhase (hph : s.phase = .r2Exp) : Progress s (expPhase s) := by
  cases hI : s.work.rsaI with
  | zero =>
    rw [expPhase_zero hI]
    exact .goesTo (ph' := .r3Export) hph rfl rfl
  | succ i =>
    rw [expPhase_succ hI]
    exact .of_loop rfl rfl (by simp [loopLeft, hph, hI])

/-- Under VERIFY the decoder is next; else the command ends. -/
theorem progress_exportPhase (p : Params) (hph : s.phase = .r3Export) : Progress s (exportPhase p s) := by
  by_cases hcmd : s.curCmd = 0x04#8
  · rw [exportPhase_verify p hcmd]
    exact .of_phaseRank (ph' := .v2Trailer) hph rfl rfl (by rw [hcmd]; decide)
  · rw [exportPhase_of_ne_verify p hcmd]
    exact .inl rfl

theorem progress_truncPhase (hph : s.phase = .m2Trunc) : Progress s (truncPhase s) :=
  .ite (.goesTo (ph' := .s6Xor) hph rfl rfl) (.ite (.goesTo (ph' := .v5Xor) hph rfl rfl) (.inl rfl))

/-- SIGN comes to the kernel last. -/
theorem progress_signRsaPhase {p : Params} (h : Inv p s) (hph : s.phase = .s10Rsa) : Progress s (signRsaPhase s) := by
  obtain ⟨hcmd, -⟩ : s.curCmd = encode .sign ∧ s.work.em.length = p.kLen := h.live_at hph
  exact .of_phaseRank (ph' := .r0Import) hph rfl rfl (by rw [hcmd]; decide)

theorem progress_loopPhase (hpend : s.pend = none) (hph : s.phase = .m1Loop) : Progress s (loopPhase s) :=
  .ite (.goesTo (ph' := .m2Trunc) hph rfl rfl) (progress_ask hpend _)

end Progress

/-- Each phase goes on to one nearer the end, presents its call, or ends the command. -/
theorem progress_phaseStep {p : Params} {s : State} (h : Inv p s) (hb : s.busy = true) (hpend : s.pend = none) :
    Progress s (phaseStep p s) := by
  cases hph : s.phase with
  | idle => exact absurd hph (h.busyPhase.1 hb)
  | r0Import => rw [phaseStep_r0Import p hph]; exact .goesTo (ph' := .r1Range) hph rfl rfl
  | r1Range => rw [phaseStep_r1Range p hph]; exact .ite (.inl rfl) (.goesTo (ph' := .r2Exp) hph rfl rfl)
  | r2Exp => rw [phaseStep_r2Exp p hph]; exact progress_expPhase hph
  | r3Export => rw [phaseStep_r3Export p hph]; exact progress_exportPhase p hph
  | m0Bound => rw [phaseStep_m0Bound p hph]; exact .ite (.inl rfl) (.goesTo (ph' := .m1Loop) hph rfl rfl)
  | m1Loop => rw [phaseStep_m1Loop p hph]; exact progress_loopPhase hpend hph
  | m2Trunc => rw [phaseStep_m2Trunc p hph]; exact progress_truncPhase hph
  | s1Len => rw [phaseStep_s1Len p hph]; exact .ite (.inl rfl) (.goesTo (ph' := .s2Mhash) hph rfl rfl)
  | s2Mhash => rw [phaseStep_s2Mhash p hph]; exact progress_ask hpend _
  | s3Salt => rw [phaseStep_s3Salt p hph]; exact progress_ask hpend _
  | s4H => rw [phaseStep_s4H p hph]; exact progress_ask hpend _
  | s5Db => rw [phaseStep_s5Db p hph]; exact .goesTo (ph' := .s6Mask) hph rfl rfl
  | s6Mask => rw [phaseStep_s6Mask p hph]; exact .goesTo (ph' := .m0Bound) hph rfl rfl
  | s6Xor => rw [phaseStep_s6Xor p hph]; exact .goesTo (ph' := .s7Size) hph rfl rfl
  | s7Size => rw [phaseStep_s7Size p hph]; exact .ite (.inl rfl) (.goesTo (ph' := .s8Em) hph rfl rfl)
  | s8Em => rw [phaseStep_s8Em p hph]; exact .goesTo (ph' := .s9Topbit) hph rfl rfl
  | s9Topbit => rw [phaseStep_s9Topbit p hph]; exact .goesTo (ph' := .s10Rsa) hph rfl rfl
  | s10Rsa => rw [phaseStep_s10Rsa p hph]; exact progress_signRsaPhase h hph
  | v1Rsa => rw [phaseStep_v1Rsa p hph]; exact .goesTo (ph' := .r0Import) hph rfl rfl
  | v2Trailer => rw [phaseStep_v2Trailer p hph]; exact .ite (.inl rfl) (.goesTo (ph' := .v3Leadbit) hph rfl rfl)
  | v3Leadbit => rw [phaseStep_v3Leadbit p hph]; exact .ite (.inl rfl) (.goesTo (ph' := .v4Split) hph rfl rfl)
  | v4Split => rw [phaseStep_v4Split p hph]; exact .goesTo (ph' := .v5Mask) hph rfl rfl
  | v5Mask => rw [phaseStep_v5Mask p hph]; exact .goesTo (ph' := .m0Bound) hph rfl rfl
  | v5Xor => rw [phaseStep_v5Xor p hph]; exact .goesTo (ph' := .v6Pad) hph rfl rfl
  | v6Pad => rw [phaseStep_v6Pad p hph]; exact .ite (.goesTo (ph' := .v7Salt) hph rfl rfl) (.inl rfl)
  | v7Salt => rw [phaseStep_v7Salt p hph]; exact .goesTo (ph' := .v8Len) hph rfl rfl
  | v8Len => rw [phaseStep_v8Len p hph]; exact .ite (.inl rfl) (.goesTo (ph' := .v8Mhash) hph rfl rfl)
  | v8Mhash => rw [phaseStep_v8Mhash p hph]; exact progress_ask hpend _
  | v8H2 => rw [phaseStep_v8H2 p hph]; exact progress_ask hpend _
  | v9Cmp => rw [phaseStep_v9Cmp p hph]; exact .ite (.inl rfl) (.goesTo (ph' := .v10Accept) hph rfl rfl)
  | v10Accept => rw [phaseStep_v10Accept p hph]; exact .inl rfl

/-- The answer of at least one byte to a phase's call leads on to the next phase, or leaves fewer mask bytes to make. -/
theorem progress_completePhase {p : Params} {s u : State} {c : PortCall} (hcall : callOf p s = some c) {bytes : Bytes}
    (hbytes : 1 ≤ bytes.length) (hu : u = { s with pend := none }) : Progress s (completePhase bytes u) := by
  have huph : u.phase = s.phase := by rw [hu]
  have hucmd : u.curCmd = s.curCmd := by rw [hu]
  cases hph : s.phase with
  | m1Loop =>
    obtain ⟨hlt, -⟩ := callOf_m1Loop hph hcall
    rw [completePhase_m1Loop _ (huph.trans hph)]
    refine .of_loop hucmd huph ?_
    have hbefore : loopLeft s = s.work.mgfLen - s.work.mgfAcc.length := by simp [loopLeft, hph]
    have hafter : loopLeft (loopAnswered bytes u) = s.work.mgfLen - (s.work.mgfAcc.length + bytes.length) := by
      rw [hu]; simp [loopLeft, loopAnswered, hph]
    omega
  | s2Mhash => rw [completePhase_s2Mhash _ (huph.trans hph)]; exact .goesTo (ph' := .s3Salt) hph hucmd rfl
  | s3Salt => rw [completePhase_s3Salt _ (huph.trans hph)]; exact .goesTo (ph' := .s4H) hph hucmd rfl
  | s4H => rw [completePhase_s4H _ (huph.trans hph)]; exact .goesTo (ph' := .s5Db) hph hucmd rfl
  | v8Mhash => rw [completePhase_v8Mhash _ (huph.trans hph)]; exact .goesTo (ph' := .v8H2) hph hucmd rfl
  | v8H2 => rw [completePhase_v8H2 _ (huph.trans hph)]; exact .goesTo (ph' := .v9Cmp) hph hucmd rfl
  | _ => simp [callOf, hph] at hcall

theorem progress_dueMove {p : Params} (hp : p.Valid) {s : State} (h : Inv p s) (hb : s.busy = true) :
    Progress s (dueMove p s) := by
  cases hpend : s.pend with
  | none =>
    rw [dueMove_of_pend_none hpend]
    exact progress_phaseStep h hb hpend
  | some c =>
    obtain ⟨hcall, -⟩ := h.pending c hpend
    have hbytes : 1 ≤ (answerOf p s c).length := by rw [answerOf_length hcall]; exact hp.hLen_pos
    rw [dueMove_of_pend hpend]
    exact progress_completePhase hcall hbytes rfl

/-- Settles O54, by induction over what is left to do. -/
theorem everyCommandEnds : Obligations.EveryCommandEnds := by
  unfold Obligations.EveryCommandEnds
  intro s h hb hagenda
  induction hleft : remaining s using WellFoundedLT.induction generalizing s with
  | ind left ih =>
    subst hleft
    have hstep := step_nil hagenda
    have hinv := inv_dueMove Config.params_valid h
    have hnext := (dueMove_agenda Config.params s).trans hagenda
    by_cases hend : (dueMove Config.params s).busy = false
    · exact ⟨1, _, run_succ hstep 0, hend, done_of_dueMove_idle hb hend, hinv.phase_eq_idle hend⟩
    · have hless := (progress_dueMove Config.params_valid h hb).resolve_left hend
      obtain ⟨n, t, hrun, ht⟩ := ih _ hless _ hinv (Bool.eq_true_of_not_eq_false hend) hnext rfl
      exact ⟨n + 1, t, (run_succ hstep n).trans hrun, ht⟩

end Sys2Proof.Machine
end

section
/-! SUPPORT. What a unit of the sequencer does from its entry to its exit when left to run (rules R150, R168): the kernel, in
a known number of steps, and MGF1. -/

namespace Sys2Proof.Machine

/-! ### A running command -/

/-- `s` with phase `ph`, the transients `w` and the calls `cs` made since. -/
def running (ph : Phase) (w : Work) (cs : List PortCall) (s : State) : State :=
  record cs { s with phase := ph, work := w }

theorem running_nil (ph : Phase) (w : Work) (s : State) : running ph w [] s = { s with phase := ph, work := w } := by
  rw [running, record, List.append_nil]

theorem record_running (ph : Phase) (w : Work) (cs ds : List PortCall) (s : State) :
    record ds (running ph w cs s) = running ph w (cs ++ ds) s := by
  simp only [running, record, List.append_assoc]

/-- From `s` the due moves lead to `t`. -/
def Reaches (p : Params) (s t : State) : Prop := ∃ n, (dueMove p)^[n] s = t

theorem Reaches.trans {p : Params} {s t u : State} (hst : Reaches p s t) (htu : Reaches p t u) : Reaches p s u := by
  obtain ⟨m, rfl⟩ := hst
  obtain ⟨n, rfl⟩ := htu
  exact ⟨n + m, Function.iterate_add_apply ..⟩

section Running

variable {p : Params} {s : State} (hpend : s.pend = none)
include hpend

theorem dueMove_running (ph : Phase) (w : Work) (cs : List PortCall) :
    dueMove p (running ph w cs s) = phaseStep p (running ph w cs s) :=
  dueMove_of_pend_none hpend

/-- One step of the sequencer. -/
theorem reaches_phase {ph : Phase} {w : Work} {cs : List PortCall} {t : State}
    (h : phaseStep p (running ph w cs s) = t) : Reaches p (running ph w cs s) t :=
  ⟨1, (dueMove_running hpend ph w cs).trans h⟩

/-- A call and its answer: two steps (rule R34). -/
theorem reaches_call {ph ph' : Phase} {w w' : Work} {cs : List PortCall} {c : PortCall}
    (hask : phaseStep p (running ph w cs s) = ask c (running ph w cs s))
    (hanswer : completePhase (answerOf p (running ph w (cs ++ [c]) s) c) (running ph w (cs ++ [c]) s) =
      running ph' w' (cs ++ [c]) s) : Reaches p (running ph w cs s) (running ph' w' (cs ++ [c]) s) := by
  have hcleared : { ask c (running ph w cs s) with pend := none } = running ph w (cs ++ [c]) s := by
    rw [← record_running, ← hpend]
    rfl
  have hanswered : dueMove p (ask c (running ph w cs s)) =
      completePhase (answerOf p (ask c (running ph w cs s)) c) { ask c (running ph w cs s) with pend := none } :=
    dueMove_of_pend rfl
  have hsame : answerOf p (ask c (running ph w cs s)) c = answerOf p (running ph w (cs ++ [c]) s) c := by
    rw [← hcleared]
    cases c <;> rfl
  refine ⟨2, ?_⟩
  rw [Function.iterate_succ_apply, dueMove_running hpend, hask, Function.iterate_one, hanswered, hcleared, hsame,
    hanswer]

/-! ### The kernel (rule R150) -/

/-- The kernel's transients after its loop. -/
def kernelWork (p : Params) (w : Work) (M E N : Nat) : Work :=
  { w with rsaM := M, rsaK := E, rsaN := N, rsaI := 0, rsaR := modexp p M E N }

/-- The message representative the kernel imports. -/
def kernelMessage (p : Params) (w : Work) (s : State) : Bytes := if s.curCmd = encode .sign then w.em else opm p s

/-- A step for each exponent bit. -/
theorem iterate_expLoop (w : Work) (cs : List PortCall) (i R : Nat) :
    (dueMove p)^[i] (running .r2Exp { w with rsaI := i, rsaR := R } cs s) =
      running .r2Exp { w with rsaI := 0, rsaR := expLoop w.rsaM w.rsaK w.rsaN i R } cs s := by
  induction i generalizing R with
  | zero => rfl
  | succ i ih =>
    rw [Function.iterate_succ_apply, dueMove_running hpend]
    have hround : phaseStep p (running .r2Exp { w with rsaI := i + 1, rsaR := R } cs s) =
        running .r2Exp { w with rsaI := i, rsaR := expRound w.rsaM w.rsaK w.rsaN i R } cs s :=
      (phaseStep_r2Exp p rfl).trans (expPhase_succ rfl)
    rw [hround, ih]
    rfl

/-- From `R0_IN` to `R3_EXPORT`: `K + 3` steps, whatever the operands (rule R286). -/
theorem iterate_kernel {w : Work} (cs : List PortCall)
    (hlt : beInt (kernelMessage p w s) < beInt (opn p s)) :
    (dueMove p)^[p.K + 3] (running .r0Import w cs s) =
      running .r3Export (kernelWork p w (beInt (kernelMessage p w s)) (beInt (opk p s)) (beInt (opn p s))) cs s := by
  have hrange : phaseStep p (running .r1Range { w with
      rsaM := beInt (kernelMessage p w s), rsaK := beInt (opk p s), rsaN := beInt (opn p s) } cs s) =
      running .r2Exp { w with
        rsaM := beInt (kernelMessage p w s), rsaK := beInt (opk p s), rsaN := beInt (opn p s),
        rsaI := p.K, rsaR := 1 % beInt (opn p s) } cs s :=
    (phaseStep_r1Range p rfl).trans (rangePhase_of_lt p hlt)
  have hexit : phaseStep p (running .r2Exp
      (kernelWork p w (beInt (kernelMessage p w s)) (beInt (opk p s)) (beInt (opn p s))) cs s) =
      running .r3Export (kernelWork p w (beInt (kernelMessage p w s)) (beInt (opk p s)) (beInt (opn p s))) cs s :=
    (phaseStep_r2Exp p rfl).trans (expPhase_zero rfl)
  have himport : phaseStep p (running .r0Import w cs s) = running .r1Range { w with
      rsaM := beInt (kernelMessage p w s), rsaK := beInt (opk p s), rsaN := beInt (opn p s) } cs s := rfl
  rw [Function.iterate_succ_apply, dueMove_running hpend, himport, Function.iterate_succ_apply,
    dueMove_running hpend, hrange, Function.iterate_succ_apply', iterate_expLoop hpend (w := { w with
      rsaM := beInt (kernelMessage p w s), rsaK := beInt (opk p s), rsaN := beInt (opn p s) })]
  exact (dueMove_running hpend ..).trans hexit

/-- Under RSA and SIGN `R3_EXPORT` is one step more and ends the command. -/
theorem iterate_kernel_end (hcmd : s.curCmd ≠ 0x04#8) {w : Work} (cs : List PortCall)
    (hlt : beInt (kernelMessage p w s) < beInt (opn p s)) :
    (dueMove p)^[p.K + 4] (running .r0Import w cs s) =
      endOk (beBytes (modexp p (beInt (kernelMessage p w s)) (beInt (opk p s)) (beInt (opn p s))) p.kLen)
        (record cs s) := by
  rw [Function.iterate_succ_apply', iterate_kernel hpend cs hlt]
  exact (dueMove_running hpend ..).trans ((phaseStep_r3Export p rfl).trans (exportPhase_of_ne_verify p hcmd))

/-- A message representative that is not below the modulus ends the command in the range check. -/
theorem reaches_kernel_error {w : Work} (cs : List PortCall) {k : ErrorKind}
    (h : rsaTransform p (kernelMessage p w s) (opk p s) (opn p s) = .error k) :
    Reaches p (running .r0Import w cs s) (endErr k (record cs s)) := by
  rcases rsaTransform_cases p (kernelMessage p w s) (opk p s) (opn p s) with ⟨hle, he⟩ | ⟨-, he⟩
  · rw [he] at h
    cases h
    refine (reaches_phase hpend (t := running .r1Range { w with
      rsaM := beInt (kernelMessage p w s), rsaK := beInt (opk p s), rsaN := beInt (opn p s) } cs s) rfl).trans ?_
    exact reaches_phase hpend ((phaseStep_r1Range p rfl).trans (rangePhase_of_le p hle))
  · rw [he] at h
    cases h

/-- Else the kernel comes to `R3_EXPORT` with the power in `RSA_R`. -/
theorem reaches_kernel_export {w : Work} (cs : List PortCall) {v : Bytes}
    (h : rsaTransform p (kernelMessage p w s) (opk p s) (opn p s) = .ok v) :
    ∃ w' : Work, beBytes w'.rsaR p.kLen = v ∧ Reaches p (running .r0Import w cs s) (running .r3Export w' cs s) := by
  rcases rsaTransform_cases p (kernelMessage p w s) (opk p s) (opn p s) with ⟨-, he⟩ | ⟨hlt, he⟩
  · rw [he] at h
    cases h
  · rw [he] at h
    exact ⟨_, Except.ok.inj h, _, iterate_kernel hpend cs hlt⟩

/-- Under RSA and SIGN the kernel's end is the command's (rule R150). -/
theorem reaches_kernel_finish (hcmd : s.curCmd ≠ 0x04#8) (w : Work) (cs : List PortCall) :
    Reaches p (running .r0Import w cs s)
      (finish (rsaTransform p (kernelMessage p w s) (opk p s) (opn p s)) (record cs s)) := by
  cases hr : rsaTransform p (kernelMessage p w s) (opk p s) (opn p s) with
  | error k => exact reaches_kernel_error hpend cs hr
  | ok v =>
    obtain ⟨w', rfl, hexport⟩ := reaches_kernel_export hpend cs hr
    exact hexport.trans (reaches_phase hpend ((phaseStep_r3Export p rfl).trans (exportPhase_of_ne_verify p hcmd)))

/-- Under VERIFY the decoder finds the result in `EM` (rule R150). -/
theorem reaches_kernel_verify (hcmd : s.curCmd = 0x04#8) {w : Work} (cs : List PortCall) {em : Bytes}
    (h : rsaTransform p (kernelMessage p w s) (opk p s) (opn p s) = .ok em) :
    ∃ w' : Work, w'.em = em ∧ Reaches p (running .r0Import w cs s) (running .v2Trailer w' cs s) := by
  obtain ⟨w', rfl, hexport⟩ := reaches_kernel_export hpend cs h
  exact ⟨_, rfl, hexport.trans (reaches_phase hpend ((phaseStep_r3Export p rfl).trans (exportPhase_verify p hcmd)))⟩

/-! ### MGF1 (rule R168) -/

/-- The accumulator and the counter after `c` calls. -/
def mgfWork (p : Params) (w : Work) (c : Nat) : Work := { w with mgfAcc := mgfBlocks p w.mgfSeed c, mgfCtr := c }

/-- One round: the call of the counter, and its digest appended. -/
theorem reaches_mgf_round (w : Work) (cs : List PortCall) {c : Nat} (hlt : c * p.hLen < w.mgfLen) :
    Reaches p (running .m1Loop (mgfWork p w c) cs s)
      (running .m1Loop (mgfWork p w (c + 1)) (cs ++ [.hash (mgfInput w.mgfSeed c)]) s) := by
  have hshort : (mgfWork p w c).mgfAcc.length < (mgfWork p w c).mgfLen := by
    rwa [mgfWork, mgfBlocks_length]
  refine reaches_call hpend ((phaseStep_m1Loop p rfl).trans (loopPhase_of_lt hshort)) ?_
  rw [mgfWork, mgfWork, mgfBlocks_succ]
  rfl

/-- The rounds of the counters from `c` on, until the digests are enough. -/
theorem reaches_mgf_rounds (hp : p.Valid) (w : Work) (j c : Nat) (cs : List PortCall)
    (hcount : c + j = mgfCount p w.mgfLen) :
    Reaches p (running .m1Loop (mgfWork p w c) cs s)
      (running .m1Loop (mgfWork p w (c + j))
        (cs ++ (List.range' c j).map fun i => .hash (mgfInput w.mgfSeed i)) s) := by
  induction j generalizing c cs with
  | zero => exact ⟨0, by simp⟩
  | succ j ih =>
    have hlt : c * p.hLen < w.mgfLen := by
      by_contra hle
      have := (mgfCount_le_iff hp).2 (Nat.le_of_not_lt hle)
      omega
    have hrest := ih (c + 1) (cs ++ [.hash (mgfInput w.mgfSeed c)]) (by omega)
    rw [Nat.add_right_comm, List.append_assoc] at hrest
    exact (reaches_mgf_round hpend w cs hlt).trans hrest

/-- Beyond the bound the command ends in `M0_BOUND`, with no call. -/
theorem reaches_mgf_error {w : Work} (cs : List PortCall) {k : ErrorKind} (h : mgf p w.mgfSeed w.mgfLen = .error k) :
    Reaches p (running .m0Bound w cs s) (endErr k (record (cs ++ mgfCalls p w.mgfSeed w.mgfLen) s)) := by
  rcases mgf_cases p w.mgfSeed w.mgfLen with ⟨hlt, he⟩ | ⟨-, he⟩
  · rw [he] at h
    cases h
    rw [mgfCalls_of_lt _ hlt, List.append_nil]
    exact reaches_phase hpend ((phaseStep_m0Bound p rfl).trans (boundPhase_of_lt p hlt))
  · rw [he] at h
    cases h

/-- Else MGF1 comes to `M2_TRUNC` with enough digests for the mask, its calls made in order. -/
theorem reaches_mgf_trunc (hp : p.Valid) {w : Work} (cs : List PortCall) {mask : Bytes}
    (h : mgf p w.mgfSeed w.mgfLen = .ok mask) :
    ∃ acc ctr, acc.take w.mgfLen = mask ∧ Reaches p (running .m0Bound w cs s)
      (running .m2Trunc { w with mgfAcc := acc, mgfCtr := ctr } (cs ++ mgfCalls p w.mgfSeed w.mgfLen) s) := by
  rcases mgf_cases p w.mgfSeed w.mgfLen with ⟨-, he⟩ | ⟨hle, he⟩
  · rw [he] at h
    cases h
  · rw [he] at h
    have hbound : Reaches p (running .m0Bound w cs s) (running .m1Loop (mgfWork p w 0) cs s) :=
      reaches_phase hpend ((phaseStep_m0Bound p rfl).trans (boundPhase_of_le p hle))
    have hrounds := reaches_mgf_rounds hpend hp w (mgfCount p w.mgfLen) 0 cs (Nat.zero_add _)
    rw [← List.range_eq_range', Nat.zero_add] at hrounds
    have henough : (mgfWork p w (mgfCount p w.mgfLen)).mgfLen ≤ (mgfWork p w (mgfCount p w.mgfLen)).mgfAcc.length := by
      rw [mgfWork, mgfBlocks_length]
      exact le_mgfCount_mul p hp.hLen_pos _
    rw [mgfCalls, if_neg (Nat.not_lt.2 hle)]
    exact ⟨_, _, Except.ok.inj h, (hbound.trans hrounds).trans
      (reaches_phase hpend ((phaseStep_m1Loop p rfl).trans (loopPhase_of_le henough)))⟩

end Running

/-! ### The number of steps of RSA (rule R286) -/

/-- While a run is still busy it has been so from the start. -/
theorem iterate_dueMove_busy {p : Params} {s : State} {j n : Nat} (hjn : j ≤ n)
    (h : ((dueMove p)^[n] s).busy = true) : ((dueMove p)^[j] s).busy = true := by
  induction n, hjn using Nat.le_induction with
  | base => exact h
  | succ n _ ih =>
    rw [Function.iterate_succ_apply'] at h
    exact ih (busy_of_dueMove_busy h)

/-- Settles O27: the import, the range check, `K` bits, the exit of the loop, then the last phase, which ends the command. -/
theorem rsaTakesKPlusFourPhases : Obligations.RsaTakesKPlusFourPhases := by
  unfold Obligations.RsaTakesKPlusFourPhases
  intro P s hb hl hpend hagenda hlt
  let u : State := launch .r0Import (beginCommand 0x01#8 s)
  have hu : running .r0Import s.work [] u = u := running_nil .r0Import s.work u
  have hne : (0x01#8 : Byte) ≠ 0x04#8 := by decide
  have hexport := iterate_kernel (p := P) (s := u) hpend (w := s.work) [] hlt
  have hend := iterate_kernel_end (p := P) (s := u) hpend hne (w := s.work) [] hlt
  rw [hu] at hexport hend
  refine ⟨u, _, exec_rsa_smallStep hb hl, run_of_agenda_nil (s := u) hagenda _, by rw [hend]; rfl, by rw [hend]; rfl,
    fun j hj => ⟨_, run_of_agenda_nil (s := u) hagenda j, ?_⟩⟩
  exact iterate_dueMove_busy (Nat.le_of_lt_succ hj) (by rw [hexport]; rfl)

end Sys2Proof.Machine
end

section
/-! SUPPORT. The two levels of rule R15 agree: each command's phase sequence, left to run, ends as its function does, with
the same port calls (rules R150, R168, R193, R232). -/

namespace Sys2Proof.Machine

section Commands

variable {p : Params} {s : State} (hp : p.Valid) (hpend : s.pend = none)

/-! ### MGF -/

include hp hpend in
theorem reaches_mgf_finish (hcmd : s.curCmd = 0x02#8) (w : Work) (cs : List PortCall) :
    Reaches p (running .m0Bound w cs s)
      (finish (mgf p w.mgfSeed w.mgfLen) (record (cs ++ mgfCalls p w.mgfSeed w.mgfLen) s)) := by
  cases hmask : mgf p w.mgfSeed w.mgfLen with
  | error k => exact reaches_mgf_error hpend cs hmask
  | ok mask =>
    obtain ⟨acc, ctr, rfl, htrunc⟩ := reaches_mgf_trunc hpend hp cs hmask
    exact htrunc.trans (reaches_phase hpend ((phaseStep_m2Trunc p rfl).trans (truncPhase_mgf hcmd)))

/-- Entering the unit with `HB` as the seed and a mask for `DB` (rules R186, R215). -/
def enteredWork (p : Params) (w : Work) : Work := { w with mgfSeed := w.hb, mgfLen := p.dbSize }

/-- `DBMASK` as the unit leaves it to SIGN and VERIFY. -/
def maskedWork (w : Work) (acc : Bytes) (ctr : Nat) (mask : Bytes) : Work :=
  { w with mgfAcc := acc, mgfCtr := ctr, dbmask := mask }

include hp hpend in
theorem reaches_mgf_sign (hcmd : s.curCmd = 0x03#8) {w : Work} (cs : List PortCall) {mask : Bytes}
    (h : mgf p w.mgfSeed w.mgfLen = .ok mask) : ∃ acc ctr, Reaches p (running .m0Bound w cs s)
      (running .s6Xor (maskedWork w acc ctr mask) (cs ++ mgfCalls p w.mgfSeed w.mgfLen) s) := by
  obtain ⟨acc, ctr, rfl, htrunc⟩ := reaches_mgf_trunc hpend hp cs h
  exact ⟨acc, ctr, htrunc.trans (reaches_phase hpend ((phaseStep_m2Trunc p rfl).trans (truncPhase_sign hcmd)))⟩

include hp hpend in
theorem reaches_mgf_verify (hcmd : s.curCmd = 0x04#8) {w : Work} (cs : List PortCall) {mask : Bytes}
    (h : mgf p w.mgfSeed w.mgfLen = .ok mask) : ∃ acc ctr, Reaches p (running .m0Bound w cs s)
      (running .v5Xor (maskedWork w acc ctr mask) (cs ++ mgfCalls p w.mgfSeed w.mgfLen) s) := by
  obtain ⟨acc, ctr, rfl, htrunc⟩ := reaches_mgf_trunc hpend hp cs h
  exact ⟨acc, ctr, htrunc.trans (reaches_phase hpend ((phaseStep_m2Trunc p rfl).trans (truncPhase_verify hcmd)))⟩

/-! ### SIGN -/

/-- The draws before the next request are those of the trace. -/
theorem draws_running (ph : Phase) (w : Work) (cs : List PortCall) (s : State) :
    draws (running ph w cs s) = draws s + (cs.filter PortCall.isRng).length := by
  simp [draws, running]

include hpend in
/-- Steps 1 to 4: the message hash, the salt, `H` (rules R181 to R184). -/
theorem reaches_sign_hashes (w : Work) (h : s.msg.length ≤ p.hashMaxLen) :
    Reaches p (running .s1Len w [] s)
      (running .s5Db { w with
          mhash := p.hash s.msg, salt := nextSalt p s, hb := saltedHash p s.msg (nextSalt p s) }
        [.hash s.msg, .rng p.hLen, .hash (mPrime (p.hash s.msg) (nextSalt p s))] s) := by
  have hlen : Reaches p (running .s1Len w [] s) (running .s2Mhash w [] s) :=
    reaches_phase hpend ((phaseStep_s1Len p rfl).trans (lenPhase_of_le p h))
  have hmhash : Reaches p (running .s2Mhash w [] s)
      (running .s3Salt { w with mhash := p.hash s.msg } [.hash s.msg] s) := reaches_call hpend rfl rfl
  have hsalt : Reaches p (running .s3Salt { w with mhash := p.hash s.msg } [.hash s.msg] s)
      (running .s4H { w with mhash := p.hash s.msg, salt := nextSalt p s } ([.hash s.msg] ++ [.rng p.hLen]) s) := by
    refine reaches_call hpend rfl ?_
    rw [answerOf, draws_running]
    rfl
  exact hlen.trans (hmhash.trans (hsalt.trans (reaches_call hpend rfl rfl)))

include hp hpend in
/-- Steps 5 and 6: the data block and its mask, with the calls of MGF1 (rules R185, R186). -/
theorem reaches_sign_mask (hcmd : s.curCmd = 0x03#8) (w : Work) (cs : List PortCall) {mask : Bytes}
    (h : mgf p w.hb p.dbSize = .ok mask) :
    ∃ w' : Work, (w'.db = dataBlock p w.salt ∧ w'.dbmask = mask ∧ w'.hb = w.hb) ∧
      Reaches p (running .s5Db w cs s) (running .s6Xor w' (cs ++ mgfCalls p w.hb p.dbSize) s) := by
  have hdb : Reaches p (running .s5Db w cs s) (running .s6Mask { w with db := dataBlock p w.salt } cs s) :=
    reaches_phase hpend rfl
  have henter : Reaches p (running .s6Mask { w with db := dataBlock p w.salt } cs s)
      (running .m0Bound (enteredWork p { w with db := dataBlock p w.salt }) cs s) := reaches_phase hpend rfl
  obtain ⟨acc, ctr, hmask⟩ := reaches_mgf_sign hp hpend hcmd
    (w := enteredWork p { w with db := dataBlock p w.salt }) cs h
  refine ⟨_, ?_, hdb.trans (henter.trans hmask)⟩
  exact ⟨rfl, rfl, rfl⟩

include hp hpend in
/-- Steps 6 to 9: the block the kernel gets (rules R187 to R189). -/
theorem reaches_sign_block (w : Work) (cs : List PortCall) :
    ∃ w' : Work, w'.em = clearTopBit (encodedMessage (xorBytes w.db w.dbmask) w.hb) ∧
      Reaches p (running .s6Xor w cs s) (running .r0Import w' cs s) := by
  have hxor : Reaches p (running .s6Xor w cs s)
      (running .s7Size { w with mdb := xorBytes w.db w.dbmask } cs s) := reaches_phase hpend rfl
  have hsize : Reaches p (running .s7Size { w with mdb := xorBytes w.db w.dbmask } cs s)
      (running .s8Em { w with mdb := xorBytes w.db w.dbmask } cs s) :=
    reaches_phase hpend ((phaseStep_s7Size p rfl).trans (sizePhase_of_valid p hp))
  have hem : Reaches p (running .s8Em { w with mdb := xorBytes w.db w.dbmask } cs s)
      (running .s9Topbit { w with
        mdb := xorBytes w.db w.dbmask, em := encodedMessage (xorBytes w.db w.dbmask) w.hb } cs s) :=
    reaches_phase hpend rfl
  have htop : Reaches p (running .s9Topbit { w with
        mdb := xorBytes w.db w.dbmask, em := encodedMessage (xorBytes w.db w.dbmask) w.hb } cs s)
      (running .s10Rsa { w with
        mdb := xorBytes w.db w.dbmask,
        em := clearTopBit (encodedMessage (xorBytes w.db w.dbmask) w.hb) } cs s) := reaches_phase hpend rfl
  exact ⟨_, rfl, hxor.trans (hsize.trans (hem.trans (htop.trans (reaches_phase hpend rfl))))⟩

include hp hpend in
theorem reaches_sign_finish (hcmd : s.curCmd = 0x03#8) (w : Work) :
    Reaches p (running .s1Len w [] s) (finish (sign p s.msg (opk p s) (opn p s) (nextSalt p s))
      (record (signCalls p s.msg (nextSalt p s)) s)) := by
  rcases Nat.lt_or_ge p.hashMaxLen s.msg.length with hlong | hshort
  · rw [sign_of_lt _ _ _ hlong, signCalls_of_lt _ hlong]
    exact reaches_phase hpend ((phaseStep_s1Len p rfl).trans (lenPhase_of_lt p hlong))
  · have hhashes := reaches_sign_hashes hpend w hshort
    obtain ⟨w₁, ⟨hdb, hdbmask, hhb⟩, hmask⟩ := reaches_sign_mask hp hpend hcmd { w with
        mhash := p.hash s.msg, salt := nextSalt p s, hb := saltedHash p s.msg (nextSalt p s) }
      [.hash s.msg, .rng p.hLen, .hash (mPrime (p.hash s.msg) (nextSalt p s))]
      (mgf_saltedHash hp s.msg (nextSalt p s))
    obtain ⟨w₂, hem, hblock⟩ := reaches_sign_block hp hpend w₁
      ([.hash s.msg, .rng p.hLen, .hash (mPrime (p.hash s.msg) (nextSalt p s))] ++
        mgfCalls p (saltedHash p s.msg (nextSalt p s)) p.dbSize)
    have hmessage : kernelMessage p w₂ s = messageBlock p s.msg (nextSalt p s) := by
      rw [kernelMessage, encode, if_pos hcmd, hem, hdb, hdbmask, hhb]
      rfl
    have hkernel := reaches_kernel_finish (p := p) hpend (by rw [hcmd]; decide) w₂
      ([.hash s.msg, .rng p.hLen, .hash (mPrime (p.hash s.msg) (nextSalt p s))] ++
        mgfCalls p (saltedHash p s.msg (nextSalt p s)) p.dbSize)
    rw [hmessage] at hkernel
    rw [sign_of_le _ hp _ _ hshort, signCalls, if_neg (Nat.not_lt.2 hshort)]
    exact hhashes.trans (hmask.trans (hblock.trans hkernel))

/-! ### VERIFY -/

include hpend in
/-- Steps 8 to 10: the guard, the two hashes, the comparison (rules R218 to R225). -/
theorem reaches_verify_hash (w : Work) (cs : List PortCall) :
    Reaches p (running .v8Len w cs s) (finish (verdict (verifyHash p s.msg w.salt w.hb))
      (record (cs ++ verifyHashCalls p s.msg w.salt) s)) := by
  unfold verifyHash verifyHashCalls
  split
  next hlong =>
    rw [List.append_nil]
    exact reaches_phase hpend ((phaseStep_v8Len p rfl).trans (if_pos hlong))
  next hshort =>
    have hguard : Reaches p (running .v8Len w cs s) (running .v8Mhash w cs s) :=
      reaches_phase hpend ((phaseStep_v8Len p rfl).trans (if_neg hshort))
    have hmhash : Reaches p (running .v8Mhash w cs s)
        (running .v8H2 { w with mhash := p.hash s.msg } (cs ++ [.hash s.msg]) s) := reaches_call hpend rfl rfl
    have hh2 : Reaches p (running .v8H2 { w with mhash := p.hash s.msg } (cs ++ [.hash s.msg]) s)
        (running .v9Cmp { w with mhash := p.hash s.msg, h2 := saltedHash p s.msg w.salt }
          (cs ++ [.hash s.msg] ++ [.hash (mPrime (p.hash s.msg) w.salt)]) s) := reaches_call hpend rfl rfl
    rw [List.append_assoc] at hh2
    refine hguard.trans (hmhash.trans (hh2.trans ?_))
    split
    next hne => exact reaches_phase hpend ((phaseStep_v9Cmp p rfl).trans (if_pos hne))
    next heq =>
      have hcmp : Reaches p
          (running .v9Cmp { w with mhash := p.hash s.msg, h2 := saltedHash p s.msg w.salt }
            (cs ++ ([.hash s.msg] ++ [.hash (mPrime (p.hash s.msg) w.salt)])) s)
          (running .v10Accept { w with mhash := p.hash s.msg, h2 := saltedHash p s.msg w.salt }
            (cs ++ ([.hash s.msg] ++ [.hash (mPrime (p.hash s.msg) w.salt)])) s) :=
        reaches_phase hpend ((phaseStep_v9Cmp p rfl).trans (if_neg heq))
      exact hcmp.trans (reaches_phase hpend rfl)

include hpend in
/-- Steps 6 and 7, then the rest (rules R216, R217). -/
theorem reaches_verify_padding (w : Work) (cs : List PortCall) :
    Reaches p (running .v6Pad w cs s)
      (finish (verdict (if paddingOk p w.db then verifyHash p s.msg (saltOf p w.db) w.hb else .error .invalidPadding))
        (record (cs ++ if paddingOk p w.db then verifyHashCalls p s.msg (saltOf p w.db) else []) s)) := by
  split
  next hok =>
    have hpad : Reaches p (running .v6Pad w cs s) (running .v7Salt w cs s) :=
      reaches_phase hpend ((phaseStep_v6Pad p rfl).trans (if_pos hok))
    have hsalt : Reaches p (running .v7Salt w cs s) (running .v8Len { w with salt := saltOf p w.db } cs s) :=
      reaches_phase hpend rfl
    exact hpad.trans (hsalt.trans (reaches_verify_hash hpend { w with salt := saltOf p w.db } cs))
  next hbad =>
    rw [List.append_nil]
    exact reaches_phase hpend ((phaseStep_v6Pad p rfl).trans (if_neg hbad))

include hp hpend in
/-- Steps 4 and 5: `H` and the data block, with the calls of MGF1 (rules R214, R215). -/
theorem reaches_verify_db (hcmd : s.curCmd = 0x04#8) (w : Work) (cs : List PortCall) :
    ∃ w' : Work, (w'.db = recoveredDb p w.em ∧ w'.hb = hashOf p w.em) ∧
      Reaches p (running .v4Split w cs s) (running .v6Pad w' (cs ++ mgfCalls p (hashOf p w.em) p.dbSize) s) := by
  have hsplit : Reaches p (running .v4Split w cs s)
      (running .v5Mask { w with mdb := maskedDbOf p w.em, hb := hashOf p w.em } cs s) := reaches_phase hpend rfl
  have henter : Reaches p (running .v5Mask { w with mdb := maskedDbOf p w.em, hb := hashOf p w.em } cs s)
      (running .m0Bound (enteredWork p { w with mdb := maskedDbOf p w.em, hb := hashOf p w.em }) cs s) :=
    reaches_phase hpend rfl
  obtain ⟨acc, ctr, hmask⟩ := reaches_mgf_verify hp hpend hcmd
    (w := enteredWork p { w with mdb := maskedDbOf p w.em, hb := hashOf p w.em }) cs
    (mgf_of_le _ hp.dbSize_le_maskBound)
  refine ⟨_, ?_, hsplit.trans (henter.trans (hmask.trans (reaches_phase hpend (phaseStep_v5Xor p rfl))))⟩
  exact ⟨rfl, rfl⟩

include hp hpend in
/-- Steps 2 to 10: the decoder on the block (rules R212 to R225). -/
theorem reaches_verify_block (hcmd : s.curCmd = 0x04#8) (w : Work) (cs : List PortCall) :
    Reaches p (running .v2Trailer w cs s) (finish (verdict (verifyBlock p s.msg w.em))
      (record (cs ++ blockCalls p s.msg w.em) s)) := by
  by_cases htrailer : trailerOf p w.em = trailer
  · have hfirst : Reaches p (running .v2Trailer w cs s) (running .v3Leadbit w cs s) :=
      reaches_phase hpend ((phaseStep_v2Trailer p rfl).trans (if_neg (not_not.2 htrailer)))
    cases htop : topBitSet w.em with
    | true =>
      obtain ⟨hverdict, hcalls⟩ := verifyBlock_of_topBitSet s.msg htrailer htop
      rw [hverdict, hcalls, List.append_nil]
      exact hfirst.trans (reaches_phase hpend ((phaseStep_v3Leadbit p rfl).trans (if_pos htop)))
    | false =>
      have hsecond : Reaches p (running .v3Leadbit w cs s) (running .v4Split w cs s) :=
        reaches_phase hpend ((phaseStep_v3Leadbit p rfl).trans (if_neg (Bool.eq_false_iff.1 htop)))
      obtain ⟨hverdict, hcalls⟩ := verifyBlock_of_topBit_clear s.msg htrailer htop hp.dbSize_le_maskBound
      obtain ⟨w', ⟨hdb, hhb⟩, hrecover⟩ := reaches_verify_db hp hpend hcmd w cs
      have hrest := reaches_verify_padding (p := p) hpend w' (cs ++ mgfCalls p (hashOf p w.em) p.dbSize)
      rw [hdb, hhb, List.append_assoc] at hrest
      rw [hverdict, hcalls]
      exact hfirst.trans (hsecond.trans (hrecover.trans hrest))
  · obtain ⟨hverdict, hcalls⟩ := verifyBlock_of_trailer s.msg htrailer
    rw [hverdict, hcalls, List.append_nil]
    exact reaches_phase hpend ((phaseStep_v2Trailer p rfl).trans (if_pos htrailer))

include hp hpend in
theorem reaches_verify_finish (hcmd : s.curCmd = 0x04#8) (w : Work) :
    Reaches p (running .v1Rsa w [] s) (finish (verdict (verify p s.msg (opk p s) (opn p s) (opm p s)))
      (record (verifyCalls p s.msg (opk p s) (opn p s) (opm p s)) s)) := by
  have hmessage : kernelMessage p w s = opm p s := if_neg (by rw [hcmd]; decide)
  have hfirst : Reaches p (running .v1Rsa w [] s) (running .r0Import w [] s) := reaches_phase hpend rfl
  cases hr : rsaTransform p (opm p s) (opk p s) (opn p s) with
  | error k =>
    rw [verify, verifyCalls, hr]
    exact hfirst.trans (reaches_kernel_error hpend [] (hmessage ▸ hr))
  | ok em =>
    obtain ⟨hverify, hcalls⟩ := verify_of_rsaTransform s.msg hr
    obtain ⟨w', rfl, hkernel⟩ := reaches_kernel_verify hpend hcmd [] (hmessage ▸ hr)
    rw [hverify, hcalls]
    exact hfirst.trans (hkernel.trans (reaches_verify_block hp hpend hcmd w' []))

end Commands

/-! ### The two levels -/

/-- The function's end and the phases' end differ in nothing but the level they started at. -/
theorem finish_launch_smallStep (r : Except ErrorKind Bytes) (calls : List PortCall) (ph : Phase) (op : Byte)
    (s : State) : finish r (record calls (launch ph (beginCommand op { s with level := .smallStep }))) =
      { finish r (record calls (beginCommand op { s with level := .bigStep })) with level := .smallStep } := by
  cases r <;> rfl

/-- What the statement asks of a command. -/
def LevelsAgree (i : Instr) (s : State) : Prop :=
  ∃ n a b, exec i { s with level := .smallStep } = .next a ∧ exec i { s with level := .bigStep } = .next b ∧
    Sys2Proof.core.run n a = .next { b with level := .smallStep }

theorem levelsAgree_of_reaches {i : Instr} {s a b : State} (ha : exec i { s with level := .smallStep } = .next a)
    (hb : exec i { s with level := .bigStep } = .next b) (hagenda : a.agenda = [])
    (h : Reaches Config.params a { b with level := .smallStep }) : LevelsAgree i s := by
  obtain ⟨n, hn⟩ := h
  exact ⟨n, a, b, ha, hb, by rw [run_of_agenda_nil hagenda, hn]⟩

/-- A command whose start is the phase `ph` of an idle block and whose phases lead to its function's end. -/
theorem levelsAgree_of_start {i : Instr} {s : State} {op : Byte} {ph : Phase} {w : Work} {r : Except ErrorKind Bytes}
    {calls : List PortCall} (hagenda : s.agenda = [])
    (hstart : exec i { s with level := .smallStep } =
      .next (running ph w [] (launch ph (beginCommand op { s with level := .smallStep }))))
    (hwhole : exec i { s with level := .bigStep } =
      .next (finish r (record calls (beginCommand op { s with level := .bigStep }))))
    (hreaches : Reaches Config.params (running ph w [] (launch ph (beginCommand op { s with level := .smallStep })))
      (finish r (record calls (launch ph (beginCommand op { s with level := .smallStep }))))) : LevelsAgree i s :=
  levelsAgree_of_reaches hstart hwhole hagenda (finish_launch_smallStep r calls ph op s ▸ hreaches)

theorem running_launch (ph : Phase) (s : State) : running ph s.work [] (launch ph s) = launch ph s := running_nil ..

theorem record_nil (s : State) : record [] s = s := by rw [record, List.append_nil]

section Levels

variable {s : State} (hb : s.busy = false)
include hb

theorem levelsAgree_clear : LevelsAgree .clear s :=
  ⟨0, _, _, exec_clear_idle (s := { s with level := .smallStep }) hb,
    exec_clear_idle (s := { s with level := .bigStep }) hb, rfl⟩

variable (hpend : s.pend = none) (hagenda : s.agenda = [])
include hpend hagenda

theorem levelsAgree_rsa : LevelsAgree .rsa s := by
  have hne : (0x01#8 : Byte) ≠ 0x04#8 := by decide
  refine levelsAgree_of_start (ph := .r0Import) (w := s.work) (calls := []) hagenda ?_ ?_
    (reaches_kernel_finish (s := launch .r0Import (beginCommand 0x01#8 { s with level := .smallStep })) hpend hne ..)
  · exact (exec_rsa_smallStep (s := { s with level := .smallStep }) hb rfl).trans
      (congrArg _ (running_launch ..).symm)
  · rw [record_nil]
    exact exec_rsa_bigStep (s := { s with level := .bigStep }) hb rfl

/-- The seed guard ends MGF in its start at either level. -/
theorem levelsAgree_mgf : LevelsAgree .mgf s := by
  have hsmall := exec_mgf_smallStep (s := { s with level := .smallStep }) hb rfl
  have hbig := exec_mgf_bigStep (s := { s with level := .bigStep }) hb rfl
  by_cases hseed : s.msg.length + 4 > Config.params.hashMaxLen
  · rw [if_pos hseed] at hsmall hbig
    exact ⟨0, _, _, hsmall, hbig, rfl⟩
  · rw [if_neg hseed] at hsmall hbig
    refine levelsAgree_of_start (ph := .m0Bound)
      (w := { s.work with mgfSeed := s.msg, mgfLen := s.maskLen.toNat }) hagenda ?_ hbig
      (reaches_mgf_finish (s := launch .m0Bound (beginCommand 0x02#8 { s with level := .smallStep }))
        Config.params_valid hpend rfl _ [])
    rw [running_nil]
    exact hsmall

theorem levelsAgree_sign : LevelsAgree .sign s :=
  levelsAgree_of_start (ph := .s1Len) (w := s.work) hagenda
    ((exec_sign_smallStep (s := { s with level := .smallStep }) hb rfl).trans (congrArg _ (running_launch ..).symm))
    (exec_sign_bigStep (s := { s with level := .bigStep }) hb rfl)
    (reaches_sign_finish (s := launch .s1Len (beginCommand 0x03#8 { s with level := .smallStep }))
      Config.params_valid hpend rfl _)

theorem levelsAgree_verify : LevelsAgree .verify s :=
  levelsAgree_of_start (ph := .v1Rsa) (w := s.work) hagenda
    ((exec_verify_smallStep (s := { s with level := .smallStep }) hb rfl).trans (congrArg _ (running_launch ..).symm))
    (exec_verify_bigStep (s := { s with level := .bigStep }) hb rfl)
    (reaches_verify_finish (s := launch .v1Rsa (beginCommand 0x04#8 { s with level := .smallStep }))
      Config.params_valid hpend rfl _)

end Levels

/-- Settles O53, command by command: each phase sequence is followed from the start to the function's end. -/
theorem phaseSequenceAgreesWithFunction : Obligations.PhaseSequenceAgreesWithFunction := by
  unfold Obligations.PhaseSequenceAgreesWithFunction
  intro i s hb hpend hagenda
  cases i with
  | clear => exact levelsAgree_clear hb
  | rsa => exact levelsAgree_rsa hb hpend hagenda
  | mgf => exact levelsAgree_mgf hb hpend hagenda
  | sign => exact levelsAgree_sign hb hpend hagenda
  | verify => exact levelsAgree_verify hb hpend hagenda

end Sys2Proof.Machine
end
